-- ==== Sys2Proof/Word.lean ====
section
/-! DEFINITION. The two word types of the block: the 32-bit register and command word, and the byte. -/

namespace Sys2Proof

/-- One word of the register port; a command is one such word (20_memory R41, 30_encoding R60). -/
abbrev Word := BitVec 32

/-- One byte of the payload space (20_memory R42). -/
abbrev Byte := BitVec 8

end Sys2Proof
end

