-- ==== Sys2Proof/Config.lean ====
section
/-! DEFINITION. What is fixed for one machine: the constants of 00_scope R5, the parameters of R6, and the
free values that stand for contents the spec leaves unspecified (93_implementation_defined U1, U2, U4). -/

namespace Sys2Proof.Config

/-- HEADER_BYTES (00_scope R5). -/
def headerBytes : Nat := 4
/-- SLOT_PIXELS (00_scope R5). -/
def slotPixels : Nat := 8
/-- GROUPS_PER_ROW (00_scope R5). -/
def groupsPerRow : Nat := 8
/-- SLOT_ROWS (00_scope R5). -/
def slotRows : Nat := 2
/-- SLOTS_PER_FRAME (00_scope R5). -/
def slotsPerFrame : Nat := 16
/-- MIN_WIDTH (00_scope R5). -/
def minWidth : Nat := 64
/-- MIN_HEIGHT (00_scope R5). -/
def minHeight : Nat := 2
/-- SLOT_CHANNEL (00_scope R5). -/
def slotChannel : Nat := 0

/-- The two parameters of the block (00_scope R6). A machine keeps the values it is built with; DESIGN CHOICE
(log 4): they stand beside the state, so that a statement about every state holds for every parameter value. -/
structure Params where
  /-- SAMPLE_BITS, the width of one pixel sample. -/
  sampleBits : Nat
  /-- PBUF_BYTES, the capacity of the payload buffer. -/
  pbufBytes : Nat
deriving DecidableEq, Repr

/-- The spec's defaults, 8 and 2^32 - 1 (00_scope R6; the 8 is marked there as general knowledge). -/
def defaultParams : Params := { sampleBits := 8, pbufBytes := 2 ^ 32 - 1 }

/-- FREE VALUE (log 5): the byte that index `index` of PBUF holds while nothing has written it since the
`epoch`-th time its contents became unspecified (10_state R25, R33; 93_implementation_defined U1). -/
opaque unspecifiedByte (epoch index : Nat) : Byte

/-- FREE VALUE (log 6): the same for the sample at linear index `index` of FB (10_state R26, R33;
93_implementation_defined U2, U4). The reader cuts it to SAMPLE_BITS bits. -/
opaque unspecifiedSample (epoch index : Nat) : Nat

end Sys2Proof.Config
end

