-- ==== Sys2Proof/Syntax.lean ====
section
/-! DEFINITION. The ten commands (30_encoding R61). No command carries an operand (30_encoding R60). -/

namespace Sys2Proof

/-- The command set, one constructor per row of the opcode table, in the table's order. -/
inductive Instr where
  /-- NOP (44_control R140). -/
  | nop
  /-- CLEAR (44_control R141). -/
  | clear
  /-- SLOT_QUERY (40_slot_addresser R86). -/
  | slotQuery
  /-- CAP_QUERY (41_capacity_planner R93). -/
  | capQuery
  /-- ENC_START (42_encoder R102). -/
  | encStart
  /-- ENC_FRAME (42_encoder R103). -/
  | encFrame
  /-- DEC_START (43_decoder R121). -/
  | decStart
  /-- DEC_FRAME (43_decoder R122). -/
  | decFrame
  /-- EOS (44_control R142). -/
  | eos
  /-- SRC_FAIL (44_control R143). -/
  | srcFail
deriving DecidableEq, Repr

end Sys2Proof
end

