-- ==== Sys2Proof/WellFormed.lean ====
section
/-! DEFINITION. The checks on terms that come from outside: a command word, an instruction, the parameters. -/

namespace Sys2Proof

/-- The reserved field, bits 31:8 (30_encoding R60). -/
def rsvField (w : Word) : BitVec 24 := w.extractLsb' 8 24

/-- The opcode field, bits 7:0 (30_encoding R60). -/
def opField (w : Word) : Byte := w.extractLsb' 0 8

/-- The ten defined opcodes (30_encoding R61). -/
def definedOps : List Byte := [0x00, 0x01, 0x02, 0x03, 0x10, 0x11, 0x18, 0x19, 0x20, 0x21]

/-- "reserved, must be 0" (30_encoding R60). -/
def rsvClear (w : Word) : Bool := rsvField w == 0

/-- The opcode is one of the ten (30_encoding R61, R62). -/
def opDefined (w : Word) : Bool := definedOps.contains (opField w)

/-- A legal command word: reserved bits clear and a defined opcode (30_encoding R62). -/
def wordWellFormed (w : Word) : Bool := rsvClear w && opDefined w

/-- An instruction is well formed whatever it is: "No command carries an operand or an immediate" (30_encoding
R60), so no field of any constructor could be out of range. -/
def Instr.wellFormed : Instr → Bool
  | .nop => true
  | .clear => true
  | .slotQuery => true
  | .capQuery => true
  | .encStart => true
  | .encFrame => true
  | .decStart => true
  | .decFrame => true
  | .eos => true
  | .srcFail => true

/-- SAMPLE_BITS is at least 1 (00_scope R6). -/
def sampleBitsOk (p : Config.Params) : Bool := decide (1 ≤ p.sampleBits)

/-- PBUF_BYTES is at most 2^32 - 1 (00_scope R6). -/
def pbufBytesOk (p : Config.Params) : Bool := decide (p.pbufBytes ≤ 2 ^ 32 - 1)

/-- Both parameters are in their range (00_scope R6). -/
def paramsWellFormed (p : Config.Params) : Bool := sampleBitsOk p && pbufBytesOk p

end Sys2Proof
end

