-- ==== Sys2Proof/Decode.lean ====
section
/-! DEFINITION. Decoding of the 32-bit command word and its encoder (30_encoding R60 to R62). -/

namespace Sys2Proof

/-- Why a word is no command (30_encoding R62). -/
inductive DecodeReject where
  /-- A bit of 31:8 is set, whatever the opcode. -/
  | reservedBits
  /-- The reserved bits are 0 and the opcode is none of the ten. -/
  | unknownOpcode (op : Byte)
deriving DecidableEq, Repr

/-- One row of the opcode map (30_encoding R61): the command is selected when `word & mask = value`. -/
structure OpcodeRow where
  value : Word
  mask : Word
  instr : Instr
deriving DecidableEq, Repr

/-- The opcode map of 30_encoding R61, in its order. "A decoder tests the whole word". -/
def opcodeMap : List OpcodeRow :=
  [ ⟨0x00000000, 0xFFFFFFFF, .nop⟩,
    ⟨0x00000001, 0xFFFFFFFF, .clear⟩,
    ⟨0x00000002, 0xFFFFFFFF, .slotQuery⟩,
    ⟨0x00000003, 0xFFFFFFFF, .capQuery⟩,
    ⟨0x00000010, 0xFFFFFFFF, .encStart⟩,
    ⟨0x00000011, 0xFFFFFFFF, .encFrame⟩,
    ⟨0x00000018, 0xFFFFFFFF, .decStart⟩,
    ⟨0x00000019, 0xFFFFFFFF, .decFrame⟩,
    ⟨0x00000020, 0xFFFFFFFF, .eos⟩,
    ⟨0x00000021, 0xFFFFFFFF, .srcFail⟩ ]

/-- The row's test on a word (30_encoding R61). -/
def OpcodeRow.selects (r : OpcodeRow) (w : Word) : Bool := (w &&& r.mask) == r.value

/-- The name of the rejection of a word that no row selects (30_encoding R62). -/
def rejection (w : Word) : DecodeReject :=
  if rsvField w ≠ 0 then .reservedBits else .unknownOpcode (opField w)

/-- Decoding of a command word, total: the command the opcode map selects, or the reason why there is none. -/
def decode (w : Word) : Except DecodeReject Instr :=
  match opcodeMap.find? (·.selects w) with
  | some r => .ok r.instr
  | none => .error (rejection w)

/-- The opcode of a command, bits 7:0 of its word (30_encoding R61). -/
def opcodeOf : Instr → Byte
  | .nop => 0x00
  | .clear => 0x01
  | .slotQuery => 0x02
  | .capQuery => 0x03
  | .encStart => 0x10
  | .encFrame => 0x11
  | .decStart => 0x18
  | .decFrame => 0x19
  | .eos => 0x20
  | .srcFail => 0x21

/-- The word of a command: the reserved field 0 above the opcode (30_encoding R60). -/
def encode (i : Instr) : Word := (0 : BitVec 24) ++ opcodeOf i

/-- The command that the decoder reads from an instruction whose `nbits` bits are `w`, bit 0 the least significant
bit of the command word. The command word is one 32-bit datum of the register port, so no byte order arises
(20_memory R41); bits above `nbits` are 0 and a word with a bit above 31 is no command word. -/
def decodeTableWord (nbits w : Nat) : Option Instr :=
  if w % 2 ^ nbits < 2 ^ 32 then
    match decode (BitVec.ofNat 32 (w % 2 ^ nbits)) with
    | .ok i => some i
    | .error _ => none
  else none

end Sys2Proof
end

