-- ==== Sys2Proof/Machine/State.lean ====
section
/-! DEFINITION. The state of the block (10_state R10), what the model holds beside it, and the state after reset. -/

namespace Sys2Proof.Machine

/-- The control state STATE (10_state R11). Code 6 is reserved and never entered, so no constructor stands for it
(93_implementation_defined U5c; log 12). -/
inductive Ctl where
  /-- No operation in progress. -/
  | idle
  /-- An encode has been validated and started. -/
  | encActive
  /-- The encode ended successfully. -/
  | encDone
  /-- The document's ReadingHeader. -/
  | decHeader
  /-- The document's ReadingPayload. -/
  | decPayload
  /-- The document's Done. -/
  | decDone
  /-- An error was raised; ERR says which. -/
  | error
deriving DecidableEq, Repr

/-- The values of ERR (10_state R12, 60_exceptions R150). Codes 7 to 15 are never produced (log 12). -/
inductive ErrCode where
  /-- No error. -/
  | none
  /-- Payload and header exceed the capacity (60_exceptions R151). -/
  | capacityExceeded
  /-- The geometry is not eligible (60_exceptions R152). -/
  | dimensionError
  /-- The source failed or ended early (60_exceptions R153). -/
  | sourceUnavailable
  /-- The source ended before the payload was complete (60_exceptions R154). -/
  | incompleteData
  /-- An illegal word, or a command not permitted in the state (60_exceptions R155). -/
  | illegalCommand
  /-- The payload is longer than PBUF (60_exceptions R156). -/
  | bufferExceeded
deriving DecidableEq, Repr

/-- The 22 defined locations of register space, in offset order (30_encoding R63). -/
inductive Reg where
  | cmd | status | err | width | height | channels | frameCount | plenIn | qidxLo | qidxHi
  | qFrame | qSlot | qRow | qCol | qChan | capMaxLo | capMaxHi | capFits | bidxLo | bidxHi | fidx | hdr
deriving DecidableEq, Repr

/-- A memory: the units that have been written since the contents last became unspecified, by rising address, and
the number of times that has happened, which selects the free values of the units not listed (logs 5, 6). -/
structure Memory (α : Type) where
  cells : List (Nat × α)
  epoch : Nat
deriving DecidableEq, Repr

/-- One access of the host, or the reset input (00_scope R7; 20_memory R41 to R43; 70_reset_and_hazards R180). -/
inductive HostAccess where
  /-- A write to register space: byte offset, access width in bits, data. -/
  | regWrite (offset bits : Nat) (value : Word)
  /-- A read of register space: byte offset, access width in bits. -/
  | regRead (offset bits : Nat)
  /-- A write of one payload byte. -/
  | payWrite (index : Nat) (value : Byte)
  /-- A read of one payload byte. -/
  | payRead (index : Nat)
  /-- A write of one sample. -/
  | pixWrite (row col ch value : Nat)
  /-- A read of one sample. -/
  | pixRead (row col ch : Nat)
  /-- The hardware reset input. -/
  | reset
deriving DecidableEq, Repr

/-- What a port answers to one host access (20_memory R46; log 2). -/
inductive PortAnswer where
  /-- The write was performed. -/
  | done
  /-- The word read from register space. -/
  | word (w : Word)
  /-- The byte read from payload space. -/
  | byte (b : Byte)
  /-- The sample read from pixel space. -/
  | sample (v : Nat)
  /-- The access is refused: an error response and no data. -/
  | errorResponse
deriving DecidableEq, Repr

/-- One memory access of the core (00_scope R9, 20_memory R48). The record of these is the model's own (log 3). -/
inductive CoreAccess where
  | pixRead (row col ch : Nat)
  | pixWrite (row col ch : Nat)
  | payRead (index : Nat)
  | payWrite (index : Nat)
deriving DecidableEq, Repr

/-- The architectural state of the block: the table of 10_state R10, and nothing else. -/
structure Block where
  /-- STATE (R11). -/
  state : Ctl
  /-- ERR (R12). -/
  err : ErrCode
  /-- WIDTH (R13). -/
  width : BitVec 16
  /-- HEIGHT (R14). -/
  height : BitVec 16
  /-- CHANNELS (R15). -/
  channels : BitVec 8
  /-- FRAME_COUNT (R16). -/
  frameCount : BitVec 32
  /-- PLEN_IN (R17). -/
  plenIn : BitVec 32
  /-- HDR (R18). -/
  hdr : BitVec 32
  /-- BIDX (R19). -/
  bidx : BitVec 33
  /-- FIDX (R20). -/
  fidx : BitVec 32
  /-- QIDX (R21). -/
  qidx : BitVec 36
  /-- Q_FRAME (R22). -/
  qFrame : BitVec 32
  /-- Q_SLOT (R22). -/
  qSlot : BitVec 4
  /-- Q_ROW (R22). -/
  qRow : BitVec 16
  /-- Q_COL (R22). -/
  qCol : BitVec 16
  /-- Q_CHAN (R22). -/
  qChan : BitVec 8
  /-- CAP_MAX (R23), two's complement. -/
  capMax : BitVec 64
  /-- CAP_FITS (R23). -/
  capFits : BitVec 1
  /-- PBUF (R25): bytes by payload index. -/
  pbuf : Memory Byte
  /-- FB (R26): samples by the linear index of 20_memory R43. -/
  fb : Memory Nat
deriving DecidableEq, Repr

/-- The machine's state: the block, and what the model holds beside it. -/
structure State extends Block where
  /-- The model's: SAMPLE_BITS and PBUF_BYTES (log 4). -/
  params : Config.Params
  /-- The model's: the host accesses still to come, oldest first (log 1). -/
  pending : List HostAccess
  /-- The model's: the answer to the last host access, if there was one (log 2). -/
  answer : Option PortAnswer
  /-- The model's: the core's memory accesses in the command that ran last, in order (log 3). -/
  accesses : List CoreAccess
deriving DecidableEq, Repr

/-- Why the machine stops. The spec's block never does: 20_memory R47 says the core makes no such access, and no
state that a run reaches leads to one (log 9). -/
inductive Fault where
  /-- Raised by the core's pixel accesses (ENC_FRAME, DEC_FRAME) at a location outside the frame, or when the height
  is below 2 and slot_for is not defined. Safe: the model stops where no rule gives an effect. -/
  | noSuchPixel
  /-- Raised by the core's payload accesses (ENC_FRAME, DEC_FRAME) at an index outside PBUF. Safe, for the same
  reason. -/
  | noSuchPayloadByte
deriving DecidableEq, Repr

/-- Why an instruction has no meaning. -/
inductive Refusal where
  /-- Raised by an arm of the dispatch whose instruction is not modelled; none is left. Safe. -/
  | notModelled (mnemonic : String)
deriving DecidableEq, Repr

/-- The architectural state after a hardware reset (10_state R33): every register 0, STATE IDLE, ERR NONE, the two
memories unspecified. -/
def Block.reset : Block :=
  { state := .idle, err := .none, width := 0, height := 0, channels := 0, frameCount := 0, plenIn := 0,
    hdr := 0, bidx := 0, fidx := 0, qidx := 0, qFrame := 0, qSlot := 0, qRow := 0, qCol := 0, qChan := 0,
    capMax := 0, capFits := 0, pbuf := { cells := [], epoch := 0 }, fb := { cells := [], epoch := 0 } }

/-- The machine right after reset: the block as 10_state R33 has it, the default parameters of 00_scope R6, and no
host access under way. -/
def State.reset : State :=
  { toBlock := Block.reset, params := Config.defaultParams, pending := [], answer := none, accesses := [] }

end Sys2Proof.Machine
end

