-- ==== Sys2Proof/Machine/Ops.lean ====
section
/-! DEFINITION. The named operations over memory and registers: memories in canonical form, the locations of pixel
and payload space, the core's accesses, the codes of STATE and ERR, `require`, taking an error and the return from
one, and the hardware reset. -/

namespace Sys2Proof.Machine

/-- The outcome of a step of this machine. -/
abbrev StepOutcome := Host.Outcome State Fault Refusal

-- Memories: lists of (address, unit) with strictly rising addresses.

/-- The unit listed at an address. An address that is not listed holds no written unit. -/
def lookupCell {α : Type} : List (Nat × α) → Nat → Option α
  | [], _ => none
  | (b, v) :: rest, a => if a = b then some v else if a < b then none else lookupCell rest a

/-- The list after a write at an address, still with rising addresses. -/
def insertCell {α : Type} : List (Nat × α) → Nat → α → List (Nat × α)
  | [], a, v => [(a, v)]
  | (b, u) :: rest, a, v =>
    if a < b then (a, v) :: (b, u) :: rest
    else if a = b then (a, v) :: rest
    else (b, u) :: insertCell rest a v

/-- Every address of the list is above `a` and the addresses rise strictly. -/
def risingFrom {α : Type} : Option Nat → List (Nat × α) → Bool
  | _, [] => true
  | lo, (b, _) :: rest => (match lo with | none => true | some a => decide (a < b)) && risingFrom (some b) rest

/-- The canonical form: addresses strictly rising. An unlisted address reads, at this level, as `none`, so no entry
can equal what an unlisted address reads as (log 5). -/
def Memory.wf {α : Type} (m : Memory α) : Bool := risingFrom none m.cells

/-- What the memory lists at an address. -/
def Memory.lookup {α : Type} (m : Memory α) (a : Nat) : Option α := lookupCell m.cells a

/-- The memory after a write of one unit. -/
def Memory.insert {α : Type} (m : Memory α) (a : Nat) (v : α) : Memory α :=
  { m with cells := insertCell m.cells a v }

/-- The memory after its contents have become unspecified: nothing is listed, and the free values are new ones
(10_state R26, R33; 93_implementation_defined U1, U2, U4). -/
def Memory.forget {α : Type} (m : Memory α) : Memory α := { cells := [], epoch := m.epoch + 1 }

-- Pixel space and payload space.

/-- The location exists: `row < HEIGHT`, `col < WIDTH`, `ch < CHANNELS` (20_memory R40, R43). -/
def State.pixExists (s : State) (row col ch : Nat) : Bool :=
  decide (row < s.height.toNat) && decide (col < s.width.toNat) && decide (ch < s.channels.toNat)

/-- The linear index of a sample, row-major with channels interleaved (20_memory R43; log 7). -/
def State.pixIndex (s : State) (row col ch : Nat) : Nat :=
  (row * s.width.toNat + col) * s.channels.toNat + ch

/-- The sample at a location: the last one written, or a free value of SAMPLE_BITS bits (10_state R26; log 6). -/
def State.sampleAt (s : State) (row col ch : Nat) : Nat :=
  match s.fb.lookup (s.pixIndex row col ch) with
  | some v => v
  | none => Config.unspecifiedSample s.fb.epoch (s.pixIndex row col ch) % 2 ^ s.params.sampleBits

/-- The state with another FB. -/
def State.withFb (s : State) (m : Memory Nat) : State := { s with fb := m }

/-- The state with another PBUF. -/
def State.withPbuf (s : State) (m : Memory Byte) : State := { s with pbuf := m }

/-- FB after a write of one sample. -/
def State.setSample (s : State) (row col ch v : Nat) : State :=
  s.withFb (s.fb.insert (s.pixIndex row col ch) v)

/-- The payload index exists: `i < PBUF_BYTES` (20_memory R40, 10_state R25). -/
def State.payExists (s : State) (i : Nat) : Bool := decide (i < s.params.pbufBytes)

/-- The payload byte at an index: the last one written, or a free value (10_state R25; log 5). -/
def State.payloadAt (s : State) (i : Nat) : Byte :=
  match s.pbuf.lookup i with
  | some b => b
  | none => Config.unspecifiedByte s.pbuf.epoch i

/-- PBUF after a write of one byte. -/
def State.setPayload (s : State) (i : Nat) (b : Byte) : State := s.withPbuf (s.pbuf.insert i b)

-- The core's accesses (00_scope R9).

/-- The record of the core's accesses grows by one (log 3). -/
def State.note (s : State) (a : CoreAccess) : State := { s with accesses := s.accesses ++ [a] }

/-- `PixRead(row, col, ch)` of the core (00_scope R9). -/
def corePixRead (row col ch : Nat) (s : State) : Except Fault (Nat × State) :=
  if s.pixExists row col ch then .ok (s.sampleAt row col ch, s.note (.pixRead row col ch))
  else .error .noSuchPixel

/-- `PixWrite(row, col, ch, v)` of the core (00_scope R9). -/
def corePixWrite (row col ch v : Nat) (s : State) : Except Fault State :=
  if s.pixExists row col ch then .ok ((s.setSample row col ch v).note (.pixWrite row col ch))
  else .error .noSuchPixel

/-- `PayRead(k - 4)` of the core for the stream byte index `k` (20_memory R48: "a payload address is always `k − 4`
for a stream byte index `k ≥ 4`"). -/
def corePayRead (k : Nat) (s : State) : Except Fault (Byte × State) :=
  if 4 ≤ k && s.payExists (k - 4) then .ok (s.payloadAt (k - 4), s.note (.payRead (k - 4)))
  else .error .noSuchPayloadByte

/-- `PayWrite(k - 4, b)` of the core for the stream byte index `k` (20_memory R48). -/
def corePayWrite (k : Nat) (b : Byte) (s : State) : Except Fault State :=
  if 4 ≤ k && s.payExists (k - 4) then .ok ((s.setPayload (k - 4) b).note (.payWrite (k - 4)))
  else .error .noSuchPayloadByte

-- Codes (30_encoding R65, R66).

/-- The STATE code (30_encoding R65). -/
def stateCode : Ctl → BitVec 4
  | .idle => 0
  | .encActive => 1
  | .encDone => 2
  | .decHeader => 3
  | .decPayload => 4
  | .decDone => 5
  | .error => 7

/-- The error code (30_encoding R66). -/
def errCode : ErrCode → BitVec 4
  | .none => 0
  | .capacityExceeded => 1
  | .dimensionError => 2
  | .sourceUnavailable => 3
  | .incompleteData => 4
  | .illegalCommand => 5
  | .bufferExceeded => 6

-- Errors: entry, the state gate, return.

/-- `raise E` (60_exceptions R158): ERR gets the code, STATE becomes ERROR, "and no others". The command ends where
its caller returns this state; every earlier effect stays (R159). -/
def State.raise (s : State) (e : ErrCode) : State := { s with err := e, state := .error }

/-- The return from an error, and the end of any operation (60_exceptions R160, 44_control R141). -/
def State.toIdle (s : State) : State :=
  { s with state := .idle, err := .none, bidx := 0, fidx := 0, hdr := 0 }

/-- `require <condition>` at the head of a command (00_scope R9, 44_control R145): in ERROR the command is ignored;
where the condition fails IllegalCommand is raised; else the command's body runs. -/
def require (permitted : Bool) (s : State) (body : StepOutcome) : StepOutcome :=
  if s.state = .error then .next s
  else if permitted then body
  else .next (s.raise .illegalCommand)

/-- What an illegal word does (44_control R145, 30_encoding R62): ignored in ERROR, else IllegalCommand. -/
def illegalWord (s : State) : StepOutcome :=
  if s.state = .error then .next s else .next (s.raise .illegalCommand)

/-- The geometry test of ENC_START, DEC_START and SLOT_QUERY (60_exceptions R152): true when a frame is eligible. -/
def State.eligible (s : State) : Bool :=
  decide (Config.minWidth ≤ s.width.toNat) && decide (Config.minHeight ≤ s.height.toNat) && s.channels != 0

-- Reset.

/-- A hardware reset (70_reset_and_hazards R180): the block as 10_state R33 has it, the contents of both memories
unspecified anew. The parameters are the machine's own and the host's accesses stay the host's (log 11). -/
def State.hardwareReset (s : State) : State :=
  { s with toBlock := { Block.reset with pbuf := s.pbuf.forget, fb := s.fb.forget } }

end Sys2Proof.Machine
end

