-- ==== Sys2Proof/Machine/Operands.lean ====
section
/-! DEFINITION. The operand forms: the one addressing function `slot_for` with its inverse, the stream byte, and the
slot as an eight-lane operand (EmbedByte and ExtractByte). -/

namespace Sys2Proof.Machine

/-- A location as `slot_for` gives it (40_slot_addresser R80). -/
structure SlotLoc where
  /-- Which frame of the source. -/
  frame : Nat
  /-- Slot index within the frame, 0 to 15. -/
  slot : Nat
  /-- Row of the slot. -/
  row : Nat
  /-- Byte-group within the row, 0 to 7. -/
  group : Nat
  /-- Channel, always 0. -/
  channel : Nat
deriving DecidableEq, Repr

/-- `slot_for(k, H)` for `H ≥ 2` (40_slot_addresser R80). The one definition used by SLOT_QUERY, the encoder and the
decoder (R82). -/
def slotFor (k H : Nat) : SlotLoc :=
  { frame := k / Config.slotsPerFrame
    slot := k % Config.slotsPerFrame
    row := (H - 2) + k % Config.slotsPerFrame / Config.groupsPerRow
    group := k % Config.slotsPerFrame % Config.groupsPerRow
    channel := Config.slotChannel }

/-- `cols[i] = 8*x + i` (40_slot_addresser R80). -/
def SlotLoc.col (l : SlotLoc) (i : Nat) : Nat := Config.slotPixels * l.group + i

/-- The inverse of `slot_for` at bit level (40_slot_addresser R84): the stream byte index and the bit of that byte
which a location of frame `f` holds, if it holds one. -/
def slotInverse (f H row col ch : Nat) : Option (Nat × Nat) :=
  if ch = 0 ∧ H - 2 ≤ row ∧ row < H ∧ col ≤ 63 then
    some (16 * f + 8 * (row - (H - 2)) + col / 8, 7 - col % 8)
  else none

/-- Bit `7 - i` of a byte, the one that lane `i` carries: MSB first (20_memory R45, 30_encoding R69). -/
def laneBit (b : Byte) (i : Nat) : Nat := (b >>> (7 - i)).toNat % 2

/-- `(v & ~1) | bit` on a sample (00_scope R8, 20_memory R48): bit 0 replaced, every other bit kept. -/
def withLsb (v bit : Nat) : Nat := 2 * (v / 2) + bit % 2

/-- The lanes of a slot in their order, leftmost pixel first (42_encoder R101, 43_decoder R120). -/
def lanes : List Nat := [0, 1, 2, 3, 4, 5, 6, 7]

/-- The read-modify-writes of EmbedByte on the lanes given (42_encoder R101). -/
def embedLanes (l : SlotLoc) (b : Byte) : List Nat → State → Except Fault State
  | [], s => .ok s
  | i :: rest, s =>
    match corePixRead l.row (l.col i) l.channel s with
    | .error f => .error f
    | .ok (v, s) =>
      match corePixWrite l.row (l.col i) l.channel (withLsb v (laneBit b i)) s with
      | .error f => .error f
      | .ok s => embedLanes l b rest s

/-- `EmbedByte(slot, b)` (42_encoder R101). Below height 2 `slot_for` is not defined (log 9). -/
def embedByte (slot : Nat) (b : Byte) (s : State) : Except Fault State :=
  if s.height.toNat < Config.minHeight then .error .noSuchPixel
  else embedLanes (slotFor slot s.height.toNat) b lanes s

/-- The reads of ExtractByte on the lanes given, MSB first into the byte so far (43_decoder R120). -/
def extractLanes (l : SlotLoc) : List Nat → Byte → State → Except Fault (Byte × State)
  | [], b, s => .ok (b, s)
  | i :: rest, b, s =>
    match corePixRead l.row (l.col i) l.channel s with
    | .error f => .error f
    | .ok (v, s) => extractLanes l rest ((b <<< 1) ||| BitVec.ofNat 8 (v % 2)) s

/-- `ExtractByte(slot)` (43_decoder R120). Below height 2 `slot_for` is not defined (log 9). -/
def extractByte (slot : Nat) (s : State) : Except Fault (Byte × State) :=
  if s.height.toNat < Config.minHeight then .error .noSuchPixel
  else extractLanes (slotFor slot s.height.toNat) lanes 0 s

/-- Byte `k` of the header, `(HDR >> (8 * (3 - k))) & 0xFF` for `k ≤ 3`: big-endian (20_memory R44, 42_encoder
R100, 30_encoding R68). -/
def headerByte (hdr : Word) (k : Nat) : Byte := (hdr >>> (8 * (3 - k))).setWidth 8

/-- `stream_byte(k)` with its payload access (42_encoder R100). -/
def coreStreamByte (k : Nat) (s : State) : Except Fault (Byte × State) :=
  if k ≤ 3 then .ok (headerByte s.hdr k, s) else corePayRead k s

/-- The value of `stream_byte(k)` (42_encoder R100). -/
def State.streamByte (s : State) (k : Nat) : Byte :=
  if k ≤ 3 then headerByte s.hdr k else s.payloadAt (k - 4)

/-- The byte that the LSBs of a slot of FB spell, MSB first: the value of `ExtractByte(slot)` (43_decoder R120,
30_encoding R69). -/
def State.slotByte (s : State) (slot : Nat) : Byte :=
  lanes.foldl
    (fun b i =>
      (b <<< 1) ||| BitVec.ofNat 8
        (s.sampleAt (slotFor slot s.height.toNat).row ((slotFor slot s.height.toNat).col i)
          (slotFor slot s.height.toNat).channel % 2)) 0

/-- `HDR <- ((HDR << 8) | b) mod 2^32` (30_encoding R68, 43_decoder R123). -/
def shiftIntoHdr (hdr : Word) (b : Byte) : Word := (hdr <<< 8) ||| b.setWidth 32

end Sys2Proof.Machine
end

