-- ==== Sys2Proof/Machine/Addresser.lean ====
section
/-! DEFINITION. SlotAddresser: SLOT_QUERY (40_slot_addresser). -/

namespace Sys2Proof.Machine

/-- The Q registers after a SLOT_QUERY of the location `l` (40_slot_addresser R86). -/
def State.withQuery (s : State) (l : SlotLoc) : State :=
  { s with
    qFrame := BitVec.ofNat 32 l.frame
    qSlot := BitVec.ofNat 4 l.slot
    qRow := BitVec.ofNat 16 l.row
    qCol := BitVec.ofNat 16 (l.col 0)
    qChan := BitVec.ofNat 8 l.channel }

/-- SLOT_QUERY (40_slot_addresser R86). -/
def execSlotQuery (s : State) : StepOutcome :=
  require (s.state = .idle) s <|
    if s.eligible then .next (s.withQuery (slotFor s.qidx.toNat s.height.toNat))
    else .next (s.raise .dimensionError)

end Sys2Proof.Machine
end

