-- ==== Sys2Proof/Machine/Flags.lean ====
section
/-! DEFINITION. The block has no flags register (10_state R28); CAP_FITS is its only flag (R23). The two functions of
the capacity planner stand here, computed in unbounded integers (41_capacity_planner R90 to R94). -/

namespace Sys2Proof.Machine

/-- `capacity(F) = 16 × F`, header included (41_capacity_planner R90). -/
def capacity (frames : Nat) : Nat := Config.slotsPerFrame * frames

/-- `max_payload_bytes(F) = 16 × F − 4` in the integers, not clamped (41_capacity_planner R91). -/
def maxPayloadBytes (frames : Nat) : Int := (capacity frames : Int) - Config.headerBytes

/-- `fits(L, F)`: `4 + L ≤ 16 × F` without wrap-around (41_capacity_planner R92). -/
def fits (len frames : Nat) : Bool := decide (Config.headerBytes + len ≤ capacity frames)

/-- The value of CAP_MAX, `sext_64(16 * FRAME_COUNT - 4)` (41_capacity_planner R93). -/
def capMaxOf (frameCount : BitVec 32) : BitVec 64 := BitVec.ofInt 64 (maxPayloadBytes frameCount.toNat)

/-- The value of CAP_FITS (41_capacity_planner R93). -/
def capFitsOf (plenIn frameCount : BitVec 32) : BitVec 1 :=
  if fits plenIn.toNat frameCount.toNat then 1 else 0

end Sys2Proof.Machine
end

