-- ==== Sys2Proof/Machine/Encoder.lean ====
section
/-! DEFINITION. Encoder: ENC_START and ENC_FRAME (42_encoder). -/

namespace Sys2Proof.Machine

/-- `T = 4 + HDR`, the total embedded length of the operation (10_state R18). -/
def State.total (s : State) : Nat := Config.headerBytes + s.hdr.toNat

/-- ENC_START (42_encoder R102): capacity, then geometry, then buffer; the first failing check is reported. -/
def execEncStart (s : State) : StepOutcome :=
  require (s.state = .idle) s <|
    if fits s.plenIn.toNat s.frameCount.toNat = false then .next (s.raise .capacityExceeded)
    else if s.eligible = false then .next (s.raise .dimensionError)
    else if s.params.pbufBytes < s.plenIn.toNat then .next (s.raise .bufferExceeded)
    else .next { s with hdr := s.plenIn, bidx := 0, fidx := 0, state := .encActive }

/-- `n = min(16, T - BIDX)`, the bytes for this frame, in the integers (42_encoder R103; log 10). -/
def State.frameBytes (s : State) : Int := min 16 ((s.total : Int) - s.bidx.toNat)

/-- The loop of ENC_FRAME: `count` stream bytes from index `k` on, each into slot `k mod 16` (42_encoder R103). -/
def embedBytes : Nat → Nat → State → Except Fault State
  | _, 0, s => .ok s
  | k, count + 1, s =>
    match coreStreamByte k s with
    | .error f => .error f
    | .ok (b, s) =>
      match embedByte (k % Config.slotsPerFrame) b s with
      | .error f => .error f
      | .ok s => embedBytes (k + 1) count s

/-- The end of ENC_FRAME on `s` after its loop: BIDX moves past the `n` bytes and FIDX counts the frame (42_encoder
R103). -/
def endEncFrame (s : State) : Except Fault State → StepOutcome
  | .error f => .fault f
  | .ok t => .next { t with bidx := BitVec.ofInt 33 (s.bidx.toNat + s.frameBytes), fidx := s.fidx + 1 }

/-- ENC_FRAME (42_encoder R103). -/
def execEncFrame (s : State) : StepOutcome :=
  require (s.state = .encActive) s <| endEncFrame s (embedBytes s.bidx.toNat s.frameBytes.toNat s)

end Sys2Proof.Machine
end

