-- ==== Sys2Proof/Machine/Control.lean ====
section
/-! DEFINITION. The control commands NOP, CLEAR, EOS and SRC_FAIL, and the transition table (44_control). -/

namespace Sys2Proof.Machine

/-- NOP (44_control R140): permitted in every state, no effect; ignoring it in ERROR is the same. -/
def execNop (s : State) : StepOutcome := .next s

/-- CLEAR (44_control R141): permitted in every state, ERROR included. -/
def execClear (s : State) : StepOutcome := .next s.toIdle

/-- EOS (44_control R142). -/
def execEos (s : State) : StepOutcome :=
  require (s.state ≠ .idle) s <|
    match s.state with
    | .encActive =>
      if s.bidx.toNat = s.total then .next { s with state := .encDone }
      else .next (s.raise .sourceUnavailable)
    | .decHeader => .next (s.raise .incompleteData)
    | .decPayload => .next (s.raise .incompleteData)
    | .encDone => .next s
    | .decDone => .next s
    | .idle => .next s
    | .error => .next s

/-- SRC_FAIL (44_control R143). -/
def execSrcFail (s : State) : StepOutcome :=
  require (s.state ≠ .idle) s <|
    match s.state with
    | .encActive => .next (s.raise .sourceUnavailable)
    | .decHeader => .next (s.raise .sourceUnavailable)
    | .decPayload => .next (s.raise .sourceUnavailable)
    | .encDone => .next s
    | .decDone => .next s
    | .idle => .next s
    | .error => .next s

/-- One cell of the transition table (44_control R144). -/
inductive Cell where
  /-- "ILL": raise IllegalCommand. -/
  | ill
  /-- "ign": ignored. -/
  | ign
  /-- The next STATE is one of those given, and where it is ERROR the code is one of those given. -/
  | next (states : List Ctl) (errors : List ErrCode)
deriving DecidableEq, Repr

/-- The complete next-state table, cell by cell (44_control R144). "=" is the column's own state. -/
def transition (i : Instr) (st : Ctl) : Cell :=
  match i with
  | .nop => if st = .error then .ign else .next [st] []
  | .clear => .next [.idle] []
  | .slotQuery =>
    match st with
    | .idle => .next [.idle] [.dimensionError]
    | .error => .ign
    | _ => .ill
  | .capQuery =>
    match st with
    | .idle => .next [.idle] []
    | .error => .ign
    | _ => .ill
  | .encStart =>
    match st with
    | .idle => .next [.encActive] [.capacityExceeded, .dimensionError, .bufferExceeded]
    | .error => .ign
    | _ => .ill
  | .encFrame =>
    match st with
    | .encActive => .next [.encActive] []
    | .error => .ign
    | _ => .ill
  | .decStart =>
    match st with
    | .idle => .next [.decHeader] [.dimensionError]
    | .error => .ign
    | _ => .ill
  | .decFrame =>
    match st with
    | .decHeader => .next [.decPayload, .decDone] [.bufferExceeded]
    | .decPayload => .next [.decPayload, .decDone] []
    | .decDone => .next [.decDone] []
    | .error => .ign
    | _ => .ill
  | .eos =>
    match st with
    | .idle => .ill
    | .encActive => .next [.encDone] [.sourceUnavailable]
    | .encDone => .next [.encDone] []
    | .decHeader => .next [] [.incompleteData]
    | .decPayload => .next [] [.incompleteData]
    | .decDone => .next [.decDone] []
    | .error => .ign
  | .srcFail =>
    match st with
    | .idle => .ill
    | .encActive => .next [] [.sourceUnavailable]
    | .encDone => .next [.encDone] []
    | .decHeader => .next [] [.sourceUnavailable]
    | .decPayload => .next [] [.sourceUnavailable]
    | .decDone => .next [.decDone] []
    | .error => .ign

/-- A cell allows the step from `s` to `t` as far as STATE and ERR go (44_control R144, R145); outside ERROR, ERR is NONE
(10_state R12). -/
def Cell.allows (c : Cell) (s t : State) : Bool :=
  match c with
  | .ill => t.state == .error && t.err == .illegalCommand
  | .ign => t == s
  | .next states errors =>
    (states.contains t.state && t.err == .none) || (t.state == .error && errors.contains t.err)

end Sys2Proof.Machine
end

