-- ==== Sys2Proof/Machine/Decoder.lean ====
section
/-! DEFINITION. Decoder: DEC_START and DEC_FRAME (43_decoder). -/

namespace Sys2Proof.Machine

/-- DEC_START (43_decoder R121). PBUF is not cleared; FRAME_COUNT and PLEN_IN are not read. -/
def execDecStart (s : State) : StepOutcome :=
  require (s.state = .idle) s <|
    if s.eligible then .next { s with hdr := 0, bidx := 0, fidx := 0, state := .decHeader }
    else .next (s.raise .dimensionError)

/-- How one pass of the slot loop of DEC_FRAME ends (43_decoder R122). -/
inductive LoopEnd where
  /-- On to the next slot. -/
  | goOn
  /-- `break`. -/
  | leave
  /-- An error was raised: the command has ended. -/
  | raised
deriving DecidableEq, Repr

/-- Header completion, once the fourth byte is in (43_decoder R123). -/
def completeHeader (s : State) : LoopEnd × State :=
  if s.params.pbufBytes < s.hdr.toNat then (.raised, s.raise .bufferExceeded)
  else if s.hdr = 0 then (.leave, { s with state := .decDone })
  else (.goOn, { s with state := .decPayload })

/-- A byte that arrives in DEC_HEADER (43_decoder R122, R123). -/
def takeHeaderByte (b : Byte) (s : State) : LoopEnd × State :=
  let s := { s with hdr := shiftIntoHdr s.hdr b, bidx := s.bidx + 1 }
  if s.bidx = 4 then completeHeader s else (.goOn, s)

/-- A byte that arrives in DEC_PAYLOAD (43_decoder R122, R124). -/
def takePayloadByte (b : Byte) (s : State) : Except Fault (LoopEnd × State) :=
  match corePayWrite s.bidx.toNat b s with
  | .error f => .error f
  | .ok s =>
    let s := { s with bidx := s.bidx + 1 }
    if s.bidx.toNat = s.total then .ok (.leave, { s with state := .decDone }) else .ok (.goOn, s)

/-- One pass of the slot loop: the state test uses the current STATE (43_decoder R122). -/
def decSlot (slot : Nat) (s : State) : Except Fault (LoopEnd × State) :=
  match extractByte slot s with
  | .error f => .error f
  | .ok (b, s) => if s.state = .decHeader then .ok (takeHeaderByte b s) else takePayloadByte b s

/-- The slot loop over the slots given, in canonical order (43_decoder R122). -/
def decSlots : List Nat → State → Except Fault (LoopEnd × State)
  | [], s => .ok (.goOn, s)
  | slot :: rest, s =>
    match decSlot slot s with
    | .error f => .error f
    | .ok (.goOn, s) => decSlots rest s
    | .ok (.leave, s) => .ok (.leave, s)
    | .ok (.raised, s) => .ok (.raised, s)

/-- The 16 slots in canonical order (30_encoding R70). -/
def canonicalSlots : List Nat := [0, 1, 2, 3, 4, 5, 6, 7, 8, 9, 10, 11, 12, 13, 14, 15]

/-- The end of DEC_FRAME: FIDX counts the frame on every path that does not raise (43_decoder R122). -/
def endDecFrame : Except Fault (LoopEnd × State) → StepOutcome
  | .error f => .fault f
  | .ok (.raised, t) => .next t
  | .ok (.goOn, t) => .next { t with fidx := t.fidx + 1 }
  | .ok (.leave, t) => .next { t with fidx := t.fidx + 1 }

/-- DEC_FRAME (43_decoder R122). -/
def execDecFrame (s : State) : StepOutcome :=
  if s.state = .decDone then .next s
  else
    require (s.state = .decHeader || s.state = .decPayload) s <| endDecFrame (decSlots canonicalSlots s)

end Sys2Proof.Machine
end

