-- ==== Sys2Proof/Machine/Planner.lean ====
section
/-! DEFINITION. CapacityPlanner: CAP_QUERY (41_capacity_planner). -/

namespace Sys2Proof.Machine

/-- CAP_QUERY (41_capacity_planner R93). It checks no geometry and raises nothing of its own. -/
def execCapQuery (s : State) : StepOutcome :=
  require (s.state = .idle) s <|
    .next { s with capMax := capMaxOf s.frameCount, capFits := capFitsOf s.plenIn s.frameCount }

end Sys2Proof.Machine
end

