-- ==== Sys2Proof/Machine/Dispatch.lean ====
section
/-! DEFINITION. The dispatch of a decoded command to its meaning, one arm per constructor (44_control R145). -/

namespace Sys2Proof.Machine

def exec (i : Instr) (s : State) : Host.Outcome State Fault Refusal :=
  match i with
  | .nop => Sys2Proof.Machine.execNop s
  | .clear => Sys2Proof.Machine.execClear s
  | .slotQuery => Sys2Proof.Machine.execSlotQuery s
  | .capQuery => Sys2Proof.Machine.execCapQuery s
  | .encStart => Sys2Proof.Machine.execEncStart s
  | .encFrame => Sys2Proof.Machine.execEncFrame s
  | .decStart => Sys2Proof.Machine.execDecStart s
  | .decFrame => Sys2Proof.Machine.execDecFrame s
  | .eos => Sys2Proof.Machine.execEos s
  | .srcFail => Sys2Proof.Machine.execSrcFail s

end Sys2Proof.Machine
end

