-- ==== Sys2Proof/Machine/Ports.lean ====
section
/-! DEFINITION. The three ports and what one host access does: register map, refused accesses, access windows by
state, and the CMD write that executes a command (20_memory R40 to R53; 30_encoding R63, R64; 44_control R145). -/

namespace Sys2Proof.Machine

/-- The byte offset of a register (30_encoding R63). -/
def regOffset : Reg → Nat
  | .cmd => 0x00
  | .status => 0x04
  | .err => 0x08
  | .width => 0x0C
  | .height => 0x10
  | .channels => 0x14
  | .frameCount => 0x18
  | .plenIn => 0x1C
  | .qidxLo => 0x20
  | .qidxHi => 0x24
  | .qFrame => 0x28
  | .qSlot => 0x2C
  | .qRow => 0x30
  | .qCol => 0x34
  | .qChan => 0x38
  | .capMaxLo => 0x3C
  | .capMaxHi => 0x40
  | .capFits => 0x44
  | .bidxLo => 0x48
  | .bidxHi => 0x4C
  | .fidx => 0x50
  | .hdr => 0x54

/-- The register map (30_encoding R63). -/
def allRegs : List Reg :=
  [.cmd, .status, .err, .width, .height, .channels, .frameCount, .plenIn, .qidxLo, .qidxHi, .qFrame, .qSlot, .qRow,
   .qCol, .qChan, .capMaxLo, .capMaxHi, .capFits, .bidxLo, .bidxHi, .fidx, .hdr]

/-- The register at an offset. Every other offset, misaligned, reserved or above the map, has none (20_memory R46
item 1). -/
def regAt (offset : Nat) : Option Reg := allRegs.find? (fun r => regOffset r == offset)

/-- The word a register reads as (30_encoding R63, R64; 20_memory R41: unused high bits read as 0; 10_state R24: CMD
reads as 0). -/
def regRead (r : Reg) (s : State) : Word :=
  match r with
  | .cmd => 0
  | .status => (stateCode s.state).setWidth 32
  | .err => (errCode s.err).setWidth 32
  | .width => s.width.setWidth 32
  | .height => s.height.setWidth 32
  | .channels => s.channels.setWidth 32
  | .frameCount => s.frameCount
  | .plenIn => s.plenIn
  | .qidxLo => s.qidx.extractLsb' 0 32
  | .qidxHi => (s.qidx.extractLsb' 32 4).setWidth 32
  | .qFrame => s.qFrame
  | .qSlot => s.qSlot.setWidth 32
  | .qRow => s.qRow.setWidth 32
  | .qCol => s.qCol.setWidth 32
  | .qChan => s.qChan.setWidth 32
  | .capMaxLo => s.capMax.extractLsb' 0 32
  | .capMaxHi => s.capMax.extractLsb' 32 32
  | .capFits => s.capFits.setWidth 32
  | .bidxLo => s.bidx.extractLsb' 0 32
  | .bidxHi => (s.bidx.extractLsb' 32 1).setWidth 32
  | .fidx => s.fidx
  | .hdr => s.hdr

/-- FB after a geometry register has been stored: unspecified where the stored value is a new one, else as it was
(10_state R26, 93_implementation_defined U2; log 6). -/
def fbAfterStore (changed : Bool) (fb : Memory Nat) : Memory Nat := if changed then fb.forget else fb

/-- The state after an accepted write of a configuration register, or none where the register is not writable
(30_encoding R63; 20_memory R41: high bits ignored). CMD is not among them: a write to it executes a command. -/
def regStore (r : Reg) (v : Word) (s : State) : Option State :=
  match r with
  | .width => some { s with width := v.setWidth 16, fb := fbAfterStore (s.width != v.setWidth 16) s.fb }
  | .height => some { s with height := v.setWidth 16, fb := fbAfterStore (s.height != v.setWidth 16) s.fb }
  | .channels => some { s with channels := v.setWidth 8, fb := fbAfterStore (s.channels != v.setWidth 8) s.fb }
  | .frameCount => some { s with frameCount := v }
  | .plenIn => some { s with plenIn := v }
  | .qidxLo => some { s with qidx := s.qidx.extractLsb' 32 4 ++ v }
  | .qidxHi => some { s with qidx := v.setWidth 4 ++ s.qidx.extractLsb' 0 32 }
  | .cmd => none
  | .status => none
  | .err => none
  | .qFrame => none
  | .qSlot => none
  | .qRow => none
  | .qCol => none
  | .qChan => none
  | .capMaxLo => none
  | .capMaxHi => none
  | .capFits => none
  | .bidxLo => none
  | .bidxHi => none
  | .fidx => none
  | .hdr => none

/-- The port's answer to the last access (log 2). -/
def State.answered (s : State) (a : PortAnswer) : State := { s with answer := some a }

/-- A refused access: an error response and no state changed (20_memory R46). -/
def refuse (s : State) : State := s.answered .errorResponse

/-- What a write of a word to CMD does (44_control R145): the decoded command's meaning, or the illegal word's. -/
def commandWrite (w : Word) (s : State) : StepOutcome :=
  match decode w with
  | .ok i => exec i s
  | .error _ => illegalWord s

/-- A host write of a register other than CMD: only in IDLE, only a configuration register (10_state R29, 20_memory
R46 item 1). -/
def hostRegWrite (r : Reg) (v : Word) (s : State) : State :=
  if s.state = .idle then
    match regStore r v s with
    | some t => t.answered .done
    | none => refuse s
  else refuse s

/-- A host write of a payload byte: only in IDLE, only below PBUF_BYTES (20_memory R46 item 2, R53). -/
def hostPayWrite (i : Nat) (b : Byte) (s : State) : State :=
  if s.state = .idle && s.payExists i then (s.setPayload i b).answered .done else refuse s

/-- A host read of a payload byte: only in DEC_DONE, only below HDR (20_memory R46 item 2, R53). -/
def hostPayRead (i : Nat) (s : State) : State :=
  if s.state = .decDone && s.payExists i && decide (i < s.hdr.toNat) then s.answered (.byte (s.payloadAt i))
  else refuse s

/-- A host write of a sample, in any state, at a location that exists (20_memory R46 item 3, R53). A value that is no
SAMPLE_BITS-bit sample is not an access the port has (log 8). -/
def hostPixWrite (row col ch v : Nat) (s : State) : State :=
  if s.pixExists row col ch && decide (v < 2 ^ s.params.sampleBits) then (s.setSample row col ch v).answered .done
  else refuse s

/-- A host read of a sample, in any state, at a location that exists (20_memory R46 item 3, R53). -/
def hostPixRead (row col ch : Nat) (s : State) : State :=
  if s.pixExists row col ch then s.answered (.sample (s.sampleAt row col ch)) else refuse s

/-- What one host access, or the reset input, does (20_memory R40 to R53; 70_reset_and_hazards R180). Only the write
to CMD has an effect beyond its own location (20_memory R49). -/
def access (a : HostAccess) (s : State) : StepOutcome :=
  match a with
  | .regWrite offset bits v =>
    if bits = 32 then
      match regAt offset with
      | some .cmd => commandWrite v (s.answered .done)
      | some r => .next (hostRegWrite r v s)
      | none => .next (refuse s)
    else .next (refuse s)
  | .regRead offset bits =>
    if bits = 32 then
      match regAt offset with
      | some r => .next (s.answered (.word (regRead r s)))
      | none => .next (refuse s)
    else .next (refuse s)
  | .payWrite i b => .next (hostPayWrite i b s)
  | .payRead i => .next (hostPayRead i s)
  | .pixWrite row col ch v => .next (hostPixWrite row col ch v s)
  | .pixRead row col ch => .next (hostPixRead row col ch s)
  | .reset => .next s.hardwareReset

/-- The state in which an access takes effect: the access is no longer to come, and the record of the core's accesses
starts anew (logs 1, 3). -/
def State.begin (s : State) (rest : List HostAccess) : State := { s with pending := rest, accesses := [] }

end Sys2Proof.Machine
end

