-- ==== Sys2Proof/Machine/Step.lean ====
section
/-! DEFINITION. One step: the oldest host access that is still to come takes effect, whole (00_scope R7). -/

namespace Sys2Proof.Machine

/-- One step. "A model may therefore make each command one step" (00_scope R7); so is every other host access. With
no access to come nothing happens: "the block never changes state on its own" (44_control R144; log 1). -/
def step (s : State) : Host.Outcome State Fault Refusal :=
  match s.pending with
  | [] => .next s
  | a :: rest => access a (s.begin rest)

/-- `s` with the host's write of the command word `w` to CMD as the next access. The block fetches nothing: a command
is the data of a host write (20_memory R56), so this is where the next instruction comes from. Bits above `nbits` are
0. -/
def State.withFetchWord (s : State) (nbits w : Nat) : State :=
  { s with pending := .regWrite 0x00 32 (BitVec.ofNat 32 (w % 2 ^ nbits)) :: s.pending }

end Sys2Proof.Machine
end

