-- ==== Sys2Proof/Machine/Reference.lean ====
section
/-! DEFINITION. The reference functions of the protocol over whole frames: the embedded stream (30_encoding R67),
`Encode` (42_encoder R106) and `Decode` (43_decoder R127). They know nothing of the machine. -/

namespace Sys2Proof.Machine

/-- The shape that every frame of one operation has (10_state R13 to R15, 70_reset_and_hazards R188). -/
structure Geometry where
  height : Nat
  width : Nat
  channels : Nat
deriving DecidableEq, Repr

/-- A frame outside the block: its samples by linear index (20_memory R43; log 14). -/
abbrev Frame := List Nat

/-- The number of samples of a frame. -/
def Geometry.samples (g : Geometry) : Nat := g.height * g.width * g.channels

/-- The linear index of a location (20_memory R43). -/
def Geometry.index (g : Geometry) (row col ch : Nat) : Nat := (row * g.width + col) * g.channels + ch

/-- The row of the location at a linear index. -/
def Geometry.rowOf (g : Geometry) (idx : Nat) : Nat := idx / g.channels / g.width

/-- The column of the location at a linear index. -/
def Geometry.colOf (g : Geometry) (idx : Nat) : Nat := idx / g.channels % g.width

/-- The channel of the location at a linear index. -/
def Geometry.chOf (g : Geometry) (idx : Nat) : Nat := idx % g.channels

/-- The geometry is eligible and fits the registers (10_state R13 to R15, 60_exceptions R152;
93_implementation_defined U8). -/
def Geometry.ok (g : Geometry) : Bool :=
  decide (Config.minWidth ≤ g.width) && decide (g.width < 2 ^ 16) && decide (Config.minHeight ≤ g.height) &&
    decide (g.height < 2 ^ 16) && decide (1 ≤ g.channels) && decide (g.channels < 2 ^ 8)

/-- The sample of a frame at a location. -/
def Geometry.sample (g : Geometry) (frame : Frame) (row col ch : Nat) : Nat := frame.getD (g.index row col ch) 0

/-- `header(N)`: four bytes, big-endian (30_encoding R67, R68). -/
def headerOf (len : Nat) : List Byte := [0, 1, 2, 3].map (headerByte (BitVec.ofNat 32 len))

/-- The embedded stream `E = header(L) ∥ P` (30_encoding R67). -/
def streamOf (payload : List Byte) : List Byte := headerOf payload.length ++ payload

/-- What `Encode` does to one sample of frame `f`: bit 0 of a location that holds bit `bit` of stream byte `k < T`
becomes that bit (42_encoder R106, by the inverse of 40_slot_addresser R84). -/
def embedSample (g : Geometry) (stream : List Byte) (f row col ch v : Nat) : Nat :=
  match slotInverse f g.height row col ch with
  | some (k, bit) => if k < stream.length then withLsb v ((stream.getD k 0).getLsbD bit).toNat else v
  | none => v

/-- `S'_f` of `Encode` (42_encoder R106). -/
def embedInto (g : Geometry) (stream : List Byte) (f : Nat) (frame : Frame) : Frame :=
  frame.mapIdx fun idx v => embedSample g stream f (g.rowOf idx) (g.colOf idx) (g.chOf idx) v

/-- `Encode(S, P)` (42_encoder R106). -/
def encodeRef (g : Geometry) (source : List Frame) (payload : List Byte) : List Frame :=
  source.mapIdx fun f frame => embedInto g (streamOf payload) f frame

/-- Bit `b` of the stream that the LSBs of a list of frames spell (43_decoder R127, 40_slot_addresser R83). -/
def streamBit (g : Geometry) (source : List Frame) (b : Nat) : Nat :=
  g.sample (source.getD (b / 128) []) ((g.height - 2) + b % 128 / 64) (b % 64) 0 % 2

/-- Byte `k` of that stream, `Σ bit(8k + i) × 2^(7−i)` (43_decoder R127). -/
def carrierByte (g : Geometry) (source : List Frame) (k : Nat) : Byte :=
  BitVec.ofNat 8 ((List.range 8).map fun i => streamBit g source (8 * k + i) * 2 ^ (7 - i)).sum

/-- The length `N` that the first four bytes declare, big-endian (43_decoder R127, 30_encoding R68). -/
def declaredLength (g : Geometry) (source : List Frame) : Nat :=
  (carrierByte g source 0).toNat * 2 ^ 24 + (carrierByte g source 1).toNat * 2 ^ 16 +
    (carrierByte g source 2).toNat * 2 ^ 8 + (carrierByte g source 3).toNat

/-- `Decode(S)`, its cases in the order given (43_decoder R127). -/
def decodeRef (g : Geometry) (pbufBytes : Nat) (source : List Frame) : Except ErrCode (List Byte) :=
  if source.length = 0 then .error .incompleteData
  else if pbufBytes < declaredLength g source then .error .bufferExceeded
  else if capacity source.length < Config.headerBytes + declaredLength g source then .error .incompleteData
  else .ok ((List.range (declaredLength g source)).map fun j => carrierByte g source (4 + j))

end Sys2Proof.Machine
end

