-- ==== Sys2Proof/Machine/Procedures.lean ====
section
/-! DEFINITION. The host procedures ENCODE and DECODE, the block's two pseudo-instructions (30_encoding R72, R73;
44_control R146, R147): host accesses issued one by one to the machine's step, with what they answer read back. -/

namespace Sys2Proof.Machine

/-- The outcome of a run of host actions that yields a value. -/
abbrev Run (α : Type) := Host.Outcome (α × State) Fault Refusal

/-- One host access, carried out by one step of the machine. -/
def tell (a : HostAccess) (s : State) : StepOutcome := step { s with pending := a :: s.pending }

/-- Host accesses in order (30_encoding R72: "One host action per line, executed in order"). -/
def tellAll : List HostAccess → State → StepOutcome
  | [], s => .next s
  | a :: rest, s =>
    match tell a s with
    | .next t => tellAll rest t
    | .fault f => .fault f
    | .refused r => .refused r

/-- What follows a run of host actions. -/
def after {β : Type} (r : StepOutcome) (k : State → Run β) : Run β :=
  match r with
  | .next t => k t
  | .fault f => .fault f
  | .refused r => .refused r

/-- `WR <REG>, <value>` (30_encoding R72). -/
def wr (r : Reg) (v : Word) : HostAccess := .regWrite (regOffset r) 32 v

/-- `<MNEMONIC>`: the host's write of the command's word to CMD (30_encoding R72). -/
def cmd (i : Instr) : HostAccess := wr .cmd (encode i)

/-- `PAYW 0.., b0 b1 ...` (30_encoding R72). -/
def payw (payload : List Byte) : List HostAccess := payload.mapIdx fun i b => .payWrite i b

/-- `LOADFRAME`: every sample of a frame, written into FB (30_encoding R72). -/
def loadFrame (g : Geometry) (frame : Frame) : List HostAccess :=
  frame.mapIdx fun idx v => .pixWrite (g.rowOf idx) (g.colOf idx) (g.chOf idx) v

/-- The word a register read answered with. -/
def answeredWord (s : State) : Word :=
  match s.answer with
  | some (.word w) => w
  | _ => 0

/-- `RD <REG>` (30_encoding R72). -/
def rd {β : Type} (r : Reg) (s : State) (k : Word → State → Run β) : Run β :=
  after (tell (.regRead (regOffset r) 32) s) fun t => k (answeredWord t) t

/-- Reads of single samples or bytes, and the list of what they answered; `pick` takes the datum out of an answer. -/
def collect {α : Type} (pick : Option PortAnswer → α) : List HostAccess → State → Run (List α)
  | [], s => .next ([], s)
  | a :: rest, s =>
    match tell a s with
    | .next t =>
      match collect pick rest t with
      | .next (vs, u) => .next (pick t.answer :: vs, u)
      | .fault f => .fault f
      | .refused r => .refused r
    | .fault f => .fault f
    | .refused r => .refused r

/-- The sample an access answered with. -/
def answeredSample : Option PortAnswer → Nat
  | some (.sample v) => v
  | _ => 0

/-- The byte an access answered with. -/
def answeredByte : Option PortAnswer → Byte
  | some (.byte b) => b
  | _ => 0

/-- `TAKEFRAME`: every sample of FB, read (30_encoding R72). -/
def takeFrame (g : Geometry) (s : State) : Run Frame :=
  collect answeredSample
    ((List.range g.samples).map fun idx => .pixRead (g.rowOf idx) (g.colOf idx) (g.chOf idx)) s

/-- The bytes `PAYR 0` to `PAYR n-1` (44_control R147). -/
def payr (n : Nat) (s : State) : Run (List Byte) :=
  collect answeredByte ((List.range n).map fun i => .payRead i) s

/-- A frame source as the host sees it (10_state R30; log 14): whether it can be opened, its geometry, and its
frames, `none` where reading that frame fails. -/
structure Source where
  canOpen : Bool
  geometry : Geometry
  frames : List (Option Frame)
deriving DecidableEq, Repr

/-- What ENCODE returns: the error, if any, and the frames handed to the sink (44_control R146), those before an error
among them (DESIGN CHOICE, log 18; unsafe). -/
structure EncodeResult where
  error : ErrCode
  sink : List Frame
deriving DecidableEq, Repr

/-- The error that an ERR code read back stands for (30_encoding R66). -/
def errOfCode (w : Word) : ErrCode :=
  match w.toNat with
  | 1 => .capacityExceeded
  | 2 => .dimensionError
  | 3 => .sourceUnavailable
  | 4 => .incompleteData
  | 5 => .illegalCommand
  | 6 => .bufferExceeded
  | _ => .none

/-- `if RD STATUS = 7 then e <- RD ERR ; CLEAR ; return error(e)`, else what follows (44_control R146, R147;
60_exceptions R166). -/
def unlessError {β : Type} (s : State) (failed : ErrCode → β) (k : State → Run β) : Run β :=
  rd .status s fun status s =>
    if status = 7 then
      rd .err s fun e s => after (tell (cmd .clear) s) fun s => .next (failed (errOfCode e), s)
    else k s

/-- The register writes that set the geometry (44_control R146, R147). -/
def wrGeometry (g : Geometry) : List HostAccess :=
  [wr .width (BitVec.ofNat 32 g.width), wr .height (BitVec.ofNat 32 g.height),
   wr .channels (BitVec.ofNat 32 g.channels)]

/-- The frame loop of ENCODE and what follows it (44_control R146); `sink` holds the frames handed over so far. DESIGN
CHOICE (log 18): an error part-way returns the sink with those frames, which the spec leaves to the host; unsafe. -/
def encodeFrames (g : Geometry) : List (Option Frame) → List Frame → State → Run EncodeResult
  | [], sink, s =>
    after (tell (cmd .eos) s) fun s =>
      unlessError s (fun e => { error := e, sink := sink }) fun s =>
        after (tell (cmd .clear) s) fun s => .next ({ error := .none, sink := sink }, s)
  | none :: _, sink, s =>
    after (tellAll [cmd .srcFail, cmd .clear] s) fun s => .next ({ error := .sourceUnavailable, sink := sink }, s)
  | some frame :: rest, sink, s =>
    after (tellAll (loadFrame g frame ++ [cmd .encFrame]) s) fun s =>
      match takeFrame g s with
      | .next (out, s) => encodeFrames g rest (sink ++ [out]) s
      | .fault f => .fault f
      | .refused r => .refused r

/-- `ENCODE(S, P)` (44_control R146). -/
def encodeProc (source : Source) (payload : List Byte) (s : State) : Run EncodeResult :=
  if source.canOpen = false then .next ({ error := .sourceUnavailable, sink := [] }, s)
  else
    after
      (tellAll
        (wrGeometry source.geometry ++
          [wr .frameCount (BitVec.ofNat 32 source.frames.length), wr .plenIn (BitVec.ofNat 32 payload.length)] ++
          payw payload ++ [cmd .encStart]) s) fun s =>
      unlessError s (fun e => { error := e, sink := [] }) fun s => encodeFrames source.geometry source.frames [] s

/-- The frame loop of DECODE and what follows it (44_control R147). -/
def decodeFrames (g : Geometry) : List (Option Frame) → State → Run (Except ErrCode (List Byte))
  | [], s => after (tellAll [cmd .eos, cmd .clear] s) fun s => .next (.error .incompleteData, s)
  | none :: _, s =>
    after (tellAll [cmd .srcFail, cmd .clear] s) fun s => .next (.error .sourceUnavailable, s)
  | some frame :: rest, s =>
    after (tellAll (loadFrame g frame ++ [cmd .decFrame]) s) fun s =>
      rd .status s fun status s =>
        if status = 5 then
          rd .hdr s fun n s =>
            match payr n.toNat s with
            | .next (bytes, s) => after (tell (cmd .clear) s) fun s => .next (.ok bytes, s)
            | .fault f => .fault f
            | .refused r => .refused r
        else if status = 7 then
          rd .err s fun e s => after (tell (cmd .clear) s) fun s => .next (.error (errOfCode e), s)
        else decodeFrames g rest s

/-- `DECODE(S)` (44_control R147). -/
def decodeProc (source : Source) (s : State) : Run (Except ErrCode (List Byte)) :=
  if source.canOpen = false then .next (.error .sourceUnavailable, s)
  else
    after (tellAll (wrGeometry source.geometry ++ [cmd .decStart]) s) fun s =>
      unlessError s (fun e => .error e) fun s => decodeFrames source.geometry source.frames s

end Sys2Proof.Machine
end

