-- ==== Sys2Proof/Machine/Progress.lean ====
section
/-! DEFINITION. Progress and termination (44_control R148, which the spec derives from its R144, 42_encoder R103 and
43_decoder R122): what an operation can still run, how many frame commands a run executes, and the five facts, each over
the machine's step, so that whatever the host does between two commands is covered. -/

namespace Sys2Proof.Machine

/-- The command that the host's next access gives to the block: a write of its word to CMD (10_state R24, 30_encoding
R60). -/
def State.nextCommand (s : State) : Option Instr :=
  match s.pending with
  | .regWrite offset bits w :: _ =>
    if bits = 32 ∧ regAt offset = some .cmd then
      match decode w with
      | .ok i => some i
      | .error _ => none
    else none
  | _ => none

/-- `ceil(T/16)`, the frames that a stream of `T` bytes takes (42_encoder R104, 43_decoder R125). -/
def framesOf (total : Nat) : Nat := (total + (Config.slotsPerFrame - 1)) / Config.slotsPerFrame

/-- `2^28 + 1`, the most effective DEC_FRAMEs of one decode (44_control R148 (b)): the frames of the longest stream that
a 32-bit header can declare, of `4 + (2^32 - 1)` bytes. -/
def decFrameBound : Nat := framesOf (Config.headerBytes + (2 ^ 32 - 1))

/-- The frame commands that the operation in progress can still run with an effect on its stream (44_control R148 (b),
(c)): the frames of the rest of the stream, and at most `decFrameBound` where a decode has no header yet. -/
def State.framesLeft (s : State) : Nat :=
  match s.state with
  | .idle => 0
  | .encActive => framesOf (s.total - s.bidx.toNat)
  | .encDone => 0
  | .decHeader => decFrameBound
  | .decPayload => framesOf (s.total - s.bidx.toNat)
  | .decDone => 0
  | .error => 0

/-- An encode is in progress (10_state R11). -/
def isEncoding (st : Ctl) : Bool := st == .encActive

/-- A decode is in progress: the states in which a DEC_FRAME is effective (10_state R11; 43_decoder R122: in DEC_DONE it
is a no-op). -/
def isDecoding (st : Ctl) : Bool := st == .decHeader || st == .decPayload

/-- The states to which commands lead from IDLE (44_control R148 (e)). -/
def startedStates : List Ctl := [.idle, .encActive, .decHeader, .error]

/-- `steps` steps from `s`, as long as STATE is one of `active`: how many of them executed the command `i`, and the
state at the end. The steps between are whatever accesses the host makes. -/
def countWhile (active : Ctl → Bool) (i : Instr) : (steps : Nat) → State → Nat × State
  | 0, s => (0, s)
  | steps + 1, s =>
    if active s.state then
      match step s with
      | .next t =>
        ((if s.nextCommand = some i then 1 else 0) + (countWhile active i steps t).1, (countWhile active i steps t).2)
      | .fault _ => (0, s)
      | .refused _ => (0, s)
    else (0, s)

/-- "From any state, CLEAR reaches IDLE in one command" (44_control R148 (a)). -/
def ClearReachesIdle : Prop :=
  ∀ s : State, s.nextCommand = some .clear → ∃ t, step s = .next t ∧ t.state = .idle

/-- "From DEC_START, at most `2^28 + 1` effective DEC_FRAME commands can execute before DEC_DONE or ERROR" (44_control
R148 (b)). -/
def DecodeIsBounded : Prop :=
  ∀ (s t : State) (steps : Nat), s.nextCommand = some .decStart → step s = .next t →
    (countWhile isDecoding .decFrame steps t).1 ≤ decFrameBound

/-- "From ENC_START, after `ceil((4 + HDR)/16)` ENC_FRAME commands every further ENC_FRAME is a pass-through and EOS
yields ENC_DONE" (44_control R148 (c)). A pass-through changes FIDX and nothing else (42_encoder R103). -/
def EncodeReachesItsEnd : Prop :=
  ∀ (s t : State) (steps n : Nat) (u : State), s.nextCommand = some .encStart → step s = .next t →
    countWhile isEncoding .encFrame steps t = (n, u) → u.state = .encActive → framesOf t.total ≤ n →
    exec .encFrame u = .next { u with fidx := u.fidx + 1 } ∧ exec .eos u = .next { u with state := .encDone }

/-- "ERROR is absorbing for every command but CLEAR" (44_control R148 (d)), and for every other access of the host but
the reset input: STATE stays ERROR and ERR keeps its code. -/
def ErrorIsAbsorbing : Prop :=
  ∀ s : State, s.state = .error → s.nextCommand ≠ some .clear → (∀ rest, s.pending ≠ .reset :: rest) →
    ∃ t, step s = .next t ∧ t.state = .error ∧ t.err = s.err

/-- "No command other than a hardware reset leads from IDLE to any state except IDLE, ENC_ACTIVE, DEC_HEADER and ERROR"
(44_control R148 (e)); nor does an illegal word or any other access. -/
def IdleLeadsToStartedStates : Prop :=
  ∀ s t : State, s.state = .idle → step s = .next t → t.state ∈ startedStates

end Sys2Proof.Machine
end

