-- ==== Sys2Proof/Safety.lean ====
section
/-! DEFINITION. What the claims speak of: the set of locations the core may touch, the end of a run, the invariant of
10_state R31, and the record of accesses that each frame command makes. -/

namespace Sys2Proof.Machine

/-- SLOTSET, the 128 locations that the core may access (20_memory R54). -/
def State.inSlotSet (s : State) (row col ch : Nat) : Prop :=
  s.height.toNat - 2 ≤ row ∧ row < s.height.toNat ∧ col ≤ 63 ∧ ch = 0

/-- "A model's 'end of run' predicate" (70_reset_and_hazards R193). -/
def State.ended (s : State) : Prop := s.state = .encDone ∨ s.state = .decDone ∨ s.state = .error

/-- The states in which an operation holds a checked geometry (10_state R31 item 8). -/
def State.operating (s : State) : Prop :=
  s.state = .encActive ∨ s.state = .encDone ∨ s.state = .decHeader ∨ s.state = .decPayload ∨ s.state = .decDone

/-- The invariant of 10_state R31, item by item, with what the model's own data adds: memories in canonical form that
list only existing locations and values of the right width, parameters in range, and the buffer bound that ENC_START
and the header completion check (42_encoder R102, 43_decoder R123). In item 2 the number of ENC_FRAME commands is FIDX:
below 4 + HDR it cannot have wrapped (log 17). What items 4 and 5 say of PBUF speaks of the past, of the bytes a decode
has read from frames that FB no longer holds: `State.HoldsRead` says it, over the history `State.readAfter`. -/
structure State.Inv (s : State) : Prop where
  /-- Item 1. -/
  errorIff : s.state = .error ↔ s.err ≠ .none
  /-- Item 2. -/
  encActive : s.state = .encActive →
    s.bidx.toNat ≤ s.total ∧ s.hdr = s.plenIn ∧ (s.bidx.toNat = s.total ∨ s.bidx.toNat = 16 * s.fidx.toNat)
  /-- Item 3. -/
  decHeader : s.state = .decHeader → s.bidx = 0 ∧ s.fidx = 0 ∧ s.hdr = 0
  /-- Item 4, but for PBUF: see `State.HoldsRead`. -/
  decPayload : s.state = .decPayload →
    16 ≤ s.bidx.toNat ∧ s.bidx.toNat < s.total ∧ s.bidx.toNat = 16 * s.fidx.toNat
  /-- Item 5, but for PBUF: see `State.HoldsRead`. -/
  decDone : s.state = .decDone →
    s.bidx.toNat = s.total ∧ s.fidx.toNat = (s.total + 15) / 16 ∧ s.hdr.toNat ≤ s.params.pbufBytes
  /-- Item 6. -/
  encDone : s.state = .encDone → s.bidx.toNat = s.total
  /-- Item 7. -/
  idle : s.state = .idle → s.bidx = 0 ∧ s.fidx = 0 ∧ s.hdr = 0 ∧ s.err = .none
  /-- Item 8. -/
  geometry : s.operating → s.eligible = true
  /-- The length in force fits the buffer. -/
  buffer : s.operating → s.hdr.toNat ≤ s.params.pbufBytes
  /-- The parameters are in their range (00_scope R6). -/
  paramsOk : paramsWellFormed s.params = true
  /-- PBUF is in canonical form. -/
  pbufWf : s.pbuf.wf = true
  /-- FB is in canonical form. -/
  fbWf : s.fb.wf = true
  /-- PBUF lists only bytes that exist. -/
  pbufIn : ∀ c ∈ s.pbuf.cells, c.1 < s.params.pbufBytes
  /-- FB lists only samples that exist, each of SAMPLE_BITS bits. -/
  fbIn : ∀ c ∈ s.fb.cells,
    c.1 < s.height.toNat * s.width.toNat * s.channels.toNat ∧ c.2 < 2 ^ s.params.sampleBits

/-- The bytes that the first `n` slots of FB spell, in canonical order (43_decoder R120, R122). -/
def State.slotBytes (s : State) (n : Nat) : List Byte := (List.range n).map s.slotByte

/-- The history of a decode after a step from `s` to `t`: every stream byte that the decode has read so far, in order,
where `read` was that list before the step. In IDLE no decode is in progress; in DEC_HEADER and DEC_PAYLOAD every byte
by which BIDX moves has been read from the slot of FB whose turn it was (43_decoder R122); elsewhere none is read
(log 17). -/
def State.readAfter (s t : State) (read : List Byte) : List Byte :=
  match s.state with
  | .idle => []
  | .encActive => read
  | .encDone => read
  | .decHeader => read ++ s.slotBytes (t.bidx.toNat - s.bidx.toNat)
  | .decPayload => read ++ s.slotBytes (t.bidx.toNat - s.bidx.toNat)
  | .decDone => read
  | .error => read

/-- HDR is the big-endian value of the first four bytes read, and PBUF begins with the bytes read after them
(43_decoder R123, R124). -/
def State.holdsStream (s : State) (read : List Byte) : Prop :=
  s.hdr.toNat = (read.getD 0 0).toNat * 2 ^ 24 + (read.getD 1 0).toNat * 2 ^ 16 + (read.getD 2 0).toNat * 2 ^ 8 +
      (read.getD 3 0).toNat ∧
    ∀ i, 4 + i < read.length → s.payloadAt i = read.getD (4 + i) 0

/-- What 10_state R31 items 4 and 5 say of PBUF, for the history `read` of the decode in progress: in DEC_PAYLOAD
`PBUF[0 .. BIDX − 5]` holds the payload bytes read so far, in DEC_DONE `PBUF[0 .. HDR − 1]` is the decoded payload. The
list has BIDX bytes, so that its bytes from index 4 on are those of PBUF named. -/
structure State.HoldsRead (s : State) (read : List Byte) : Prop where
  /-- A decode starts with nothing read. -/
  decHeader : s.state = .decHeader → read = []
  /-- Item 4. -/
  decPayload : s.state = .decPayload → read.length = s.bidx.toNat ∧ s.holdsStream read
  /-- Item 5. -/
  decDone : s.state = .decDone → read.length = s.total ∧ s.holdsStream read

/-- The refused host accesses as 20_memory R46 lists them, by offsets and ranges and without the register map; a
sample value of more than SAMPLE_BITS bits is refused too (log 8). -/
def refusedAccess (a : HostAccess) (s : State) : Bool :=
  match a with
  | .regWrite offset bits _ =>
    bits != 32 || offset % 4 != 0 || decide (0x58 ≤ offset) ||
      offset == 0x04 || offset == 0x08 || (decide (0x28 ≤ offset) && decide (offset ≤ 0x54)) ||
      (decide (0x0C ≤ offset) && decide (offset ≤ 0x24) && s.state != .idle)
  | .regRead offset bits => bits != 32 || offset % 4 != 0 || decide (0x58 ≤ offset)
  | .payWrite i _ => decide (s.params.pbufBytes ≤ i) || s.state != .idle
  | .payRead i => decide (s.params.pbufBytes ≤ i) || s.state != .decDone || decide (s.hdr.toNat ≤ i)
  | .pixWrite row col ch v =>
    decide (s.height.toNat ≤ row) || decide (s.width.toNat ≤ col) || decide (s.channels.toNat ≤ ch) ||
      decide (2 ^ s.params.sampleBits ≤ v)
  | .pixRead row col ch =>
    decide (s.height.toNat ≤ row) || decide (s.width.toNat ≤ col) || decide (s.channels.toNat ≤ ch)
  | .reset => false

/-- An access is a write of a command to CMD (20_memory R49: the only location with a side effect). -/
def isCommand : HostAccess → Bool
  | .regWrite offset bits _ => offset == 0x00 && bits == 32
  | .regRead _ _ => false
  | .payWrite _ _ => false
  | .payRead _ => false
  | .pixWrite _ _ _ _ => false
  | .pixRead _ _ _ => false
  | .reset => false

/-- The same frame command executed once for every frame of a list, the host having replaced the contents of FB with
that frame before each (44_control R146 to R148, 70_reset_and_hazards R185). -/
def overFrames (i : Instr) : List (Memory Nat) → State → StepOutcome
  | [], s => .next s
  | m :: rest, s =>
    match exec i (s.withFb m) with
    | .next t => overFrames i rest t
    | .fault f => .fault f
    | .refused r => .refused r

/-- Every sample of the slot of stream byte `k` is a location of FB, at a height for which `slot_for` is defined
(40_slot_addresser R80, 20_memory R43). -/
def State.slotExists (s : State) (k : Nat) : Prop :=
  2 ≤ s.height.toNat ∧
    ∀ i < 8, s.pixExists ((s.height.toNat - 2) + k % 16 / 8) (8 * (k % 8) + i) 0 = true

/-- Stream byte `k` has a source: a header byte, or a payload byte that exists (42_encoder R100, 20_memory R42). -/
def State.byteExists (s : State) (k : Nat) : Prop := k ≤ 3 ∨ k - 4 < s.params.pbufBytes

/-- A core access lies in SLOTSET, or is a payload access (20_memory R54). -/
def State.mayTouch (s : State) : CoreAccess → Prop
  | .pixRead row col ch => s.inSlotSet row col ch
  | .pixWrite row col ch => s.inSlotSet row col ch
  | .payRead i => i < s.params.pbufBytes
  | .payWrite i => i < s.params.pbufBytes

/-- The access reads a sample. -/
def isPixRead : CoreAccess → Bool
  | .pixRead _ _ _ => true
  | .pixWrite _ _ _ => false
  | .payRead _ => false
  | .payWrite _ => false

/-- The access writes a sample. -/
def isPixWrite : CoreAccess → Bool
  | .pixRead _ _ _ => false
  | .pixWrite _ _ _ => true
  | .payRead _ => false
  | .payWrite _ => false

/-- The access reads a payload byte. -/
def isPayRead : CoreAccess → Bool
  | .pixRead _ _ _ => false
  | .pixWrite _ _ _ => false
  | .payRead _ => true
  | .payWrite _ => false

/-- The access writes a payload byte. -/
def isPayWrite : CoreAccess → Bool
  | .pixRead _ _ _ => false
  | .pixWrite _ _ _ => false
  | .payRead _ => false
  | .payWrite _ => true

/-- The accesses of EmbedByte on a slot, lane by lane: read, then write (42_encoder R101, 20_memory R48). -/
def embedTrace (l : SlotLoc) : List CoreAccess :=
  lanes.flatMap fun i => [.pixRead l.row (l.col i) l.channel, .pixWrite l.row (l.col i) l.channel]

/-- The accesses of ENC_FRAME for the stream bytes `k` to `k + count - 1` (42_encoder R103, 20_memory R51). -/
def encTrace (H k count : Nat) : List CoreAccess :=
  (List.range count).flatMap fun j =>
    (if k + j ≤ 3 then [] else [.payRead (k + j - 4)]) ++ embedTrace (slotFor ((k + j) % 16) H)

/-- The accesses of ExtractByte on a slot (43_decoder R120). -/
def extractTrace (l : SlotLoc) : List CoreAccess := lanes.map fun i => .pixRead l.row (l.col i) l.channel

/-- The accesses of DEC_FRAME for `count` slots whose first holds stream byte `k` (43_decoder R122). -/
def decTrace (H k count : Nat) : List CoreAccess :=
  (List.range count).flatMap fun j =>
    extractTrace (slotFor j H) ++ (if k + j ≤ 3 then [] else [.payWrite (k + j - 4)])

end Sys2Proof.Machine
end

