-- ==== Sys2Proof/Certificates/Slice0/Obligations.lean ====
section
/-! DEFINITION. The statements for the provers. Each docstring names the rules of spec/ that it formalises; a clause that
rests on a choice of the model names the log entry. -/

open Sys2Proof
open Sys2Proof.Machine

-- Encoding.

/-- 30_encoding R60, R61: every command's word decodes to the command. -/
def Obligations.EncodedCommandDecodesToItself : Prop :=
  ∀ i : Instr, i.wellFormed = true → decode (encode i) = .ok i

/-- 30_encoding R61, R62: a word decodes to a command exactly when it is that command's word, and a word that is none
of the ten is rejected, by name for its reserved bits or for its opcode. -/
def Obligations.OnlyTheTenWordsDecode : Prop :=
  ∀ w : Word,
    (∀ i : Instr, decode w = .ok i ↔ w = encode i) ∧
    ((∀ i : Instr, w ≠ encode i) →
      decode w = .error (if rsvField w ≠ 0 then .reservedBits else .unknownOpcode (opField w)))

/-- 30_encoding R61: the ten words, written out, and two illegal ones of 95_test_vectors V74 and V75. -/
def Obligations.WordsOfTheOpcodeMap : Prop :=
  decode 0x00000000 = .ok .nop ∧ decode 0x00000001 = .ok .clear ∧ decode 0x00000002 = .ok .slotQuery ∧
  decode 0x00000003 = .ok .capQuery ∧ decode 0x00000010 = .ok .encStart ∧ decode 0x00000011 = .ok .encFrame ∧
  decode 0x00000018 = .ok .decStart ∧ decode 0x00000019 = .ok .decFrame ∧ decode 0x00000020 = .ok .eos ∧
  decode 0x00000021 = .ok .srcFail ∧
  decode 0x0000007F = .error (.unknownOpcode 0x7F) ∧ decode 0x00000111 = .error .reservedBits

-- The step and the dispatch.

/-- 30_encoding R60, 10_state R24: the host's next access writes a command's word to CMD; the step is that command at
that state, with the access no longer to come, its answer recorded, and the record of core accesses begun anew (logs 1
to 3). -/
def Obligations.StepRunsTheDecodedCommand : Prop :=
  ∀ (s : State) (rest : List HostAccess) (w : Word) (i : Instr),
    s.pending = .regWrite 0x00 32 w :: rest → decode w = .ok i →
    step s = exec i ((s.begin rest).answered .done)

/-- The same through `withFetchWord`, for every command and every state (log 1). -/
def Obligations.FetchedWordIsTheNextCommand : Prop :=
  ∀ (s : State) (i : Instr),
    step (s.withFetchWord 32 (encode i).toNat) = exec i ((s.begin s.pending).answered .done)

/-- 44_control R145, 30_encoding R62: an illegal word is ignored in ERROR and raises IllegalCommand elsewhere. -/
def Obligations.IllegalWordRaisesOrIsIgnored : Prop :=
  ∀ (s : State) (rest : List HostAccess) (w : Word) (e : DecodeReject),
    s.pending = .regWrite 0x00 32 w :: rest → decode w = .error e →
    (s.state = .error → step s = .next ((s.begin rest).answered .done)) ∧
    (s.state ≠ .error → step s = .next (((s.begin rest).answered .done).raise .illegalCommand))

/-- 44_control R145, 60_exceptions R161: in ERROR every command but CLEAR is ignored, no state changes at all. 44_control
R148 (d) and (a), inferences of the spec from R144, over every step: ERROR is absorbing for whatever the host does but
CLEAR and a hardware reset, and from any state CLEAR reaches IDLE in one command. -/
def Obligations.ErrorIgnoresAllButClear : Prop :=
  (∀ (s : State) (i : Instr), s.state = .error → i ≠ .clear → exec i s = .next s) ∧ ErrorIsAbsorbing ∧ ClearReachesIdle

/-- 44_control R144, R145, 60_exceptions R155: a command whose cell is "ILL" raises IllegalCommand with no effect of its
own. -/
def Obligations.IllegalCellsRaiseIllegalCommand : Prop :=
  ∀ (s : State) (i : Instr),
    transition i s.state = .ill → exec i s = .next (s.raise .illegalCommand)

/-- 44_control R144: in every state that meets the invariant, every command completes and ends as its cell of the
transition table says, in STATE and in ERR. -/
def Obligations.EveryCommandFollowsTheTransitionTable : Prop :=
  ∀ (s : State) (i : Instr), s.Inv →
    ∃ t, exec i s = .next t ∧ (transition i s.state).allows s t = true

/-- 44_control R148 (e), an inference of the spec from R144: no command leads from IDLE to any state except IDLE,
ENC_ACTIVE, DEC_HEADER and ERROR, and no step does, whatever the host's access. -/
def Obligations.IdleLeadsOnlyToStartedStates : Prop :=
  (∀ (s t : State) (i : Instr), s.state = .idle → exec i s = .next t →
    t.state = .idle ∨ t.state = .encActive ∨ t.state = .decHeader ∨ t.state = .error) ∧
  IdleLeadsToStartedStates

/-- 10_state R11, R12: STATE and ERR are written only by commands. Whatever else the host accesses, both stay; with no
access to come nothing changes at all (log 1). -/
def Obligations.OnlyCommandsChangeState : Prop :=
  (∀ s : State, s.pending = [] → step s = .next s) ∧
  ∀ (s t : State) (a : HostAccess) (rest : List HostAccess),
    s.pending = a :: rest → isCommand a = false → a ≠ .reset → step s = .next t →
    t.state = s.state ∧ t.err = s.err ∧ t.hdr = s.hdr ∧ t.bidx = s.bidx ∧ t.fidx = s.fidx ∧ t.pending = rest

-- The commands: what each does, and where it completes.

/-- 44_control R140: the word 0 is NOP, and NOP changes no register, no memory, not STATE, in every state. -/
def Obligations.NopHasNoEffect : Prop :=
  decode 0x00000000 = .ok .nop ∧ ∀ s : State, exec .nop s = .next s

/-- 44_control R141: the word 1 is CLEAR. CLEAR completes in every state, sets STATE, ERR, BIDX, FIDX and HDR to their
reset values and leaves everything else; in IDLE, where the five registers are at those values, it changes nothing. It
is the only command that leaves ERROR, and after it no payload byte is readable. -/
def Obligations.ClearReturnsToIdle : Prop :=
  decode 0x00000001 = .ok .clear ∧
  (∀ s : State,
    exec .clear s = .next { s with state := .idle, err := .none, bidx := 0, fidx := 0, hdr := 0 }) ∧
  (∀ s : State, s.Inv → s.state = .idle → exec .clear s = .next s) ∧
  (∀ (s : State) (i : Instr), s.state = .error → i ≠ .clear → exec i s = .next s) ∧
  ∀ (s t : State) (j : Nat), exec .clear s = .next t →
    access (.payRead j) t = .next (t.answered .errorResponse)

/-- 40_slot_addresser R86: the word 2 is SLOT_QUERY. In IDLE on an eligible geometry it writes the five Q registers,
no bit of any result is lost, and nothing else changes; on an ineligible geometry it raises DimensionError and changes
nothing but ERR and STATE; it raises IllegalCommand outside IDLE and is ignored in ERROR. -/
def Obligations.SlotQueryWritesTheLocation : Prop :=
  decode 0x00000002 = .ok .slotQuery ∧
  (∀ s : State, s.state = .idle → 64 ≤ s.width.toNat → 2 ≤ s.height.toNat → 1 ≤ s.channels.toNat →
    ∃ t, exec .slotQuery s = .next t ∧
      t = { s with qFrame := t.qFrame, qSlot := t.qSlot, qRow := t.qRow, qCol := t.qCol, qChan := t.qChan } ∧
      t.qFrame.toNat = s.qidx.toNat / 16 ∧
      t.qSlot.toNat = s.qidx.toNat % 16 ∧
      t.qRow.toNat = (s.height.toNat - 2) + s.qidx.toNat % 16 / 8 ∧
      t.qCol.toNat = 8 * (s.qidx.toNat % 8) ∧
      t.qChan = 0) ∧
  (∀ s : State, s.state = .idle → s.width.toNat < 64 ∨ s.height.toNat < 2 ∨ s.channels.toNat = 0 →
    exec .slotQuery s = .next (s.raise .dimensionError)) ∧
  (∀ s : State, s.state ≠ .idle → s.state ≠ .error → exec .slotQuery s = .next (s.raise .illegalCommand)) ∧
  (∀ s : State, s.state = .error → exec .slotQuery s = .next s)

/-- 41_capacity_planner R93: the word 3 is CAP_QUERY. In IDLE, whatever the geometry, it writes CAP_MAX, `16 ×
FRAME_COUNT − 4` as a signed number, and CAP_FITS, 1 exactly when `4 + PLEN_IN ≤ 16 × FRAME_COUNT` without
wrap-around, and nothing else; it raises IllegalCommand outside IDLE and is ignored in ERROR. -/
def Obligations.CapQueryComputesCapacity : Prop :=
  decode 0x00000003 = .ok .capQuery ∧
  (∀ s : State, s.state = .idle →
    ∃ t, exec .capQuery s = .next t ∧
      t = { s with capMax := t.capMax, capFits := t.capFits } ∧
      t.capMax.toInt = 16 * (s.frameCount.toNat : Int) - 4 ∧
      (4 + s.plenIn.toNat ≤ 16 * s.frameCount.toNat → t.capFits = 1) ∧
      (16 * s.frameCount.toNat < 4 + s.plenIn.toNat → t.capFits = 0)) ∧
  (∀ s : State, s.state ≠ .idle → s.state ≠ .error → exec .capQuery s = .next (s.raise .illegalCommand)) ∧
  (∀ s : State, s.state = .error → exec .capQuery s = .next s)

/-- 42_encoder R102: in IDLE, with a payload that fits the capacity and PBUF and an eligible geometry, ENC_START loads
HDR, zeroes BIDX and FIDX and enters ENC_ACTIVE; it touches no memory. -/
def Obligations.EncStartBeginsAnEncode : Prop :=
  ∀ s : State, s.state = .idle → 4 + s.plenIn.toNat ≤ 16 * s.frameCount.toNat →
    64 ≤ s.width.toNat → 2 ≤ s.height.toNat → 1 ≤ s.channels.toNat → s.plenIn.toNat ≤ s.params.pbufBytes →
    exec .encStart s = .next { s with hdr := s.plenIn, bidx := 0, fidx := 0, state := .encActive }

/-- 42_encoder R102: the word 0x10 is ENC_START. In IDLE its checks come in the order capacity, geometry, buffer; the
first that fails is reported, with nothing changed but ERR and STATE; where none fails the encode begins. It raises
IllegalCommand outside IDLE and is ignored in ERROR. -/
def Obligations.EncStartReportsTheFirstFailingCheck : Prop :=
  decode 0x00000010 = .ok .encStart ∧
  (∀ s : State, s.state = .idle →
    exec .encStart s =
      if 16 * s.frameCount.toNat < 4 + s.plenIn.toNat then .next (s.raise .capacityExceeded)
      else if s.width.toNat < 64 ∨ s.height.toNat < 2 ∨ s.channels.toNat = 0 then .next (s.raise .dimensionError)
      else if s.params.pbufBytes < s.plenIn.toNat then .next (s.raise .bufferExceeded)
      else .next { s with hdr := s.plenIn, bidx := 0, fidx := 0, state := .encActive }) ∧
  (∀ s : State, s.state ≠ .idle → s.state ≠ .error → exec .encStart s = .next (s.raise .illegalCommand)) ∧
  (∀ s : State, s.state = .error → exec .encStart s = .next s)

/-- 60_exceptions R152: on an ineligible geometry SLOT_QUERY, DEC_START and, where the payload fits the capacity,
ENC_START raise DimensionError in IDLE and change nothing but ERR and STATE, and in no state that meets the invariant
can a frame command run on one. -/
def Obligations.IneligibleGeometryRaisesDimensionError : Prop :=
  (∀ s : State, s.state = .idle → s.width.toNat < 64 ∨ s.height.toNat < 2 ∨ s.channels.toNat = 0 →
    exec .slotQuery s = .next (s.raise .dimensionError) ∧ exec .decStart s = .next (s.raise .dimensionError) ∧
    (4 + s.plenIn.toNat ≤ 16 * s.frameCount.toNat → exec .encStart s = .next (s.raise .dimensionError))) ∧
  (∀ s : State, s.Inv → s.width.toNat < 64 ∨ s.height.toNat < 2 ∨ s.channels.toNat = 0 →
    s.state = .idle ∨ s.state = .error)

/-- 41_capacity_planner R95, an inference of the spec from R93 and R102: ENC_START raises CapacityExceeded exactly
when a CAP_QUERY just before it sets CAP_FITS to 0. -/
def Obligations.EncStartAgreesWithCapQuery : Prop :=
  ∀ s t : State, s.state = .idle → exec .capQuery s = .next t →
    (t.capFits = 0 ↔ exec .encStart t = .next (t.raise .capacityExceeded))

/-- 42_encoder R103: ENC_FRAME in ENC_ACTIVE, with the geometry and the lengths that ENC_START checked and a stream
position within the stream. It embeds `n = min(16, 4 + HDR − BIDX)` bytes: lane `i` of slot `k mod 16` gets bit `7 −
i` of stream byte `k`, for `k` from BIDX on; every other sample of the frame keeps its value; BIDX grows by `n`, FIDX
by 1; nothing else of the block changes; the accesses are those of the pseudocode, in its order. -/
def Obligations.EncFrameEmbedsTheNextBytes : Prop :=
  ∀ s : State, s.state = .encActive → s.eligible = true → 1 ≤ s.params.sampleBits →
    s.hdr.toNat ≤ s.params.pbufBytes → s.bidx.toNat ≤ 4 + s.hdr.toNat →
    ∃ t, exec .encFrame s = .next t ∧
      t = { s with
        fb := t.fb
        bidx := t.bidx
        fidx := s.fidx + 1
        accesses := s.accesses ++ encTrace s.height.toNat s.bidx.toNat (min 16 (4 + s.hdr.toNat - s.bidx.toNat)) } ∧
      t.bidx.toNat = s.bidx.toNat + min 16 (4 + s.hdr.toNat - s.bidx.toNat) ∧
      (∀ k i, s.bidx.toNat ≤ k → k < s.bidx.toNat + min 16 (4 + s.hdr.toNat - s.bidx.toNat) → i < 8 →
        t.sampleAt ((s.height.toNat - 2) + k % 16 / 8) (8 * (k % 8) + i) 0 =
          2 * (s.sampleAt ((s.height.toNat - 2) + k % 16 / 8) (8 * (k % 8) + i) 0 / 2) +
            ((s.streamByte k).getLsbD (7 - i)).toNat) ∧
      (∀ row col ch, s.pixExists row col ch = true →
        (∀ k i, s.bidx.toNat ≤ k → k < s.bidx.toNat + min 16 (4 + s.hdr.toNat - s.bidx.toNat) → i < 8 →
          ¬ (row = (s.height.toNat - 2) + k % 16 / 8 ∧ col = 8 * (k % 8) + i ∧ ch = 0)) →
        t.sampleAt row col ch = s.sampleAt row col ch)

/-- 42_encoder R103: once the stream is exhausted ENC_FRAME makes no access and still adds 1 to FIDX. -/
def Obligations.EncFrameAfterTheStreamOnlyCounts : Prop :=
  ∀ s : State, s.state = .encActive → s.bidx.toNat = 4 + s.hdr.toNat →
    exec .encFrame s = .next { s with fidx := s.fidx + 1 }

/-- 42_encoder R105 (an inference of the spec), 20_memory R54: whatever the state, ENC_FRAME leaves every existing
sample outside SLOTSET alone, keeps every bit of every existing sample but bit 0, and leaves every payload byte alone. -/
def Obligations.EncFrameIsLocal : Prop :=
  ∀ s t : State, exec .encFrame s = .next t →
    (∀ row col ch, s.pixExists row col ch = true →
      (¬ s.inSlotSet row col ch → t.sampleAt row col ch = s.sampleAt row col ch) ∧
      t.sampleAt row col ch / 2 = s.sampleAt row col ch / 2) ∧
    (∀ i, t.payloadAt i = s.payloadAt i)

/-- 20_memory R55 (an inference of the spec), R44: the first ENC_FRAME of an encode puts bit `b` of the length into
the LSB of the channel-0 sample at row `HEIGHT − 2`, column `31 − b`. -/
def Obligations.HeaderBitsLieMsbFirst : Prop :=
  ∀ s t : State, s.state = .encActive → s.eligible = true → 1 ≤ s.params.sampleBits →
    s.hdr.toNat ≤ s.params.pbufBytes → s.bidx = 0 → exec .encFrame s = .next t →
    ∀ b < 32, t.sampleAt (s.height.toNat - 2) (31 - b) 0 % 2 = (s.hdr.getLsbD b).toNat

/-- 43_decoder R121: the word 0x18 is DEC_START. In IDLE on an eligible geometry it empties the accumulator and enters
DEC_HEADER; on an ineligible geometry it raises DimensionError and changes nothing but ERR and STATE; it raises
IllegalCommand outside IDLE and is ignored in ERROR. -/
def Obligations.DecStartBeginsADecode : Prop :=
  decode 0x00000018 = .ok .decStart ∧
  (∀ s : State, s.state = .idle → 64 ≤ s.width.toNat → 2 ≤ s.height.toNat → 1 ≤ s.channels.toNat →
    exec .decStart s = .next { s with hdr := 0, bidx := 0, fidx := 0, state := .decHeader }) ∧
  (∀ s : State, s.state = .idle → s.width.toNat < 64 ∨ s.height.toNat < 2 ∨ s.channels.toNat = 0 →
    exec .decStart s = .next (s.raise .dimensionError)) ∧
  (∀ s : State, s.state ≠ .idle → s.state ≠ .error → exec .decStart s = .next (s.raise .illegalCommand)) ∧
  (∀ s : State, s.state = .error → exec .decStart s = .next s)

/-- 43_decoder R122, R123: the DEC_FRAME that reads the header, with `N` the big-endian value of the bytes of slots 0
to 3. If `N` exceeds PBUF_BYTES it raises BufferExceeded with `HDR = N`, `BIDX = 4` and nothing else changed.
Otherwise it reads `n = min(16, 4 + N)` slots, PBUF gets the bytes of slots 4 to `n − 1` and keeps every other byte,
and the state is DEC_DONE when `4 + N ≤ 16`, else DEC_PAYLOAD. -/
def Obligations.DecFrameReadsTheHeader : Prop :=
  ∀ (s : State) (N : Nat), s.state = .decHeader → s.eligible = true → s.bidx = 0 → s.hdr = 0 →
    N = (s.slotByte 0).toNat * 2 ^ 24 + (s.slotByte 1).toNat * 2 ^ 16 + (s.slotByte 2).toNat * 2 ^ 8 +
      (s.slotByte 3).toNat →
    (s.params.pbufBytes < N →
      exec .decFrame s = .next { s with
        hdr := BitVec.ofNat 32 N
        bidx := 4
        err := .bufferExceeded
        state := .error
        accesses := s.accesses ++ decTrace s.height.toNat 0 4 }) ∧
    (N ≤ s.params.pbufBytes →
      ∃ t, exec .decFrame s = .next t ∧
        t = { s with
          hdr := BitVec.ofNat 32 N
          bidx := BitVec.ofNat 33 (min 16 (4 + N))
          fidx := s.fidx + 1
          state := if 4 + N ≤ 16 then .decDone else .decPayload
          pbuf := t.pbuf
          accesses := s.accesses ++ decTrace s.height.toNat 0 (min 16 (4 + N)) } ∧
        (∀ i, i < min 16 (4 + N) - 4 → t.payloadAt i = s.slotByte (4 + i)) ∧
        (∀ i, min 16 (4 + N) - 4 ≤ i → t.payloadAt i = s.payloadAt i))

/-- 43_decoder R122, R124: a DEC_FRAME in DEC_PAYLOAD reads `n = min(16, 4 + HDR − BIDX)` slots, stores their bytes at
payload indices `BIDX − 4` on, keeps every other payload byte, and enters DEC_DONE exactly when BIDX reaches the end of
the stream, `4 + HDR`. -/
def Obligations.DecFrameReadsThePayload : Prop :=
  ∀ s : State, s.state = .decPayload → s.eligible = true → 4 ≤ s.bidx.toNat →
    s.bidx.toNat < 4 + s.hdr.toNat → s.hdr.toNat ≤ s.params.pbufBytes →
    ∃ t, exec .decFrame s = .next t ∧
      t = { s with
        bidx := t.bidx
        fidx := s.fidx + 1
        state := if t.bidx.toNat = 4 + s.hdr.toNat then .decDone else .decPayload
        pbuf := t.pbuf
        accesses := s.accesses ++ decTrace s.height.toNat s.bidx.toNat (min 16 (4 + s.hdr.toNat - s.bidx.toNat)) } ∧
      t.bidx.toNat = s.bidx.toNat + min 16 (4 + s.hdr.toNat - s.bidx.toNat) ∧
      (∀ j, j < min 16 (4 + s.hdr.toNat - s.bidx.toNat) → t.payloadAt (s.bidx.toNat - 4 + j) = s.slotByte j) ∧
      (∀ i, i < s.bidx.toNat - 4 ∨ s.bidx.toNat - 4 + min 16 (4 + s.hdr.toNat - s.bidx.toNat) ≤ i →
        t.payloadAt i = s.payloadAt i)

/-- 43_decoder R120, 20_memory R45, 30_encoding R69: lane `i` of a slot supplies bit `7 − i` of the byte extracted from
it. -/
def Obligations.SlotByteIsMsbFirst : Prop :=
  ∀ (s : State) (slot i : Nat), slot < 16 → i < 8 →
    (s.slotByte slot).getLsbD (7 - i) =
      decide (s.sampleAt ((s.height.toNat - 2) + slot / 8) (8 * (slot % 8) + i) 0 % 2 = 1)

/-- 43_decoder R122: DEC_FRAME in DEC_DONE is accepted and does nothing at all. -/
def Obligations.DecFrameWhenDoneHasNoEffect : Prop :=
  ∀ s : State, s.state = .decDone → exec .decFrame s = .next s

/-- 43_decoder R120, 20_memory R54: on an eligible geometry DEC_FRAME depends on FB only through the LSBs of the
channel-0 samples of SLOTSET, and never writes FB. -/
def Obligations.DecFrameReadsOnlySlotLsbs : Prop :=
  ∀ (s t : State) (m : Memory Nat), s.eligible = true →
    (∀ row col ch, s.inSlotSet row col ch → (s.withFb m).sampleAt row col ch % 2 = s.sampleAt row col ch % 2) →
    exec .decFrame s = .next t →
    t.fb = s.fb ∧ exec .decFrame (s.withFb m) = .next (t.withFb m)

/-- 60_exceptions R167 (a), 43_decoder R121: the decoder reads neither FRAME_COUNT nor PLEN_IN. -/
def Obligations.DecoderIgnoresFrameCount : Prop :=
  ∀ (s t : State) (i : Instr) (f l : BitVec 32), i = .decStart ∨ i = .decFrame → exec i s = .next t →
    exec i { s with frameCount := f, plenIn := l } = .next { t with frameCount := f, plenIn := l }

/-- 44_control R142: the word 0x20 is EOS. In ENC_ACTIVE the encode has succeeded exactly when the whole stream is
embedded; in DEC_HEADER and DEC_PAYLOAD the data is incomplete; in the two done states nothing happens; it raises
IllegalCommand in IDLE and is ignored in ERROR. -/
def Obligations.EosEndsTheSource : Prop :=
  decode 0x00000020 = .ok .eos ∧
  ∀ s : State,
    (s.state = .encActive → s.bidx.toNat = 4 + s.hdr.toNat → exec .eos s = .next { s with state := .encDone }) ∧
    (s.state = .encActive → s.bidx.toNat ≠ 4 + s.hdr.toNat → exec .eos s = .next (s.raise .sourceUnavailable)) ∧
    (s.state = .decHeader ∨ s.state = .decPayload → exec .eos s = .next (s.raise .incompleteData)) ∧
    (s.state = .encDone ∨ s.state = .decDone → exec .eos s = .next s) ∧
    (s.state = .idle → exec .eos s = .next (s.raise .illegalCommand)) ∧
    (s.state = .error → exec .eos s = .next s)

/-- 44_control R143: the word 0x21 is SRC_FAIL. It raises SourceUnavailable in the three active states and does
nothing in the two done states; it raises IllegalCommand in IDLE and is ignored in ERROR. -/
def Obligations.SrcFailReportsTheSource : Prop :=
  decode 0x00000021 = .ok .srcFail ∧
  ∀ s : State,
    (s.state = .encActive ∨ s.state = .decHeader ∨ s.state = .decPayload →
      exec .srcFail s = .next (s.raise .sourceUnavailable)) ∧
    (s.state = .encDone ∨ s.state = .decDone → exec .srcFail s = .next s) ∧
    (s.state = .idle → exec .srcFail s = .next (s.raise .illegalCommand)) ∧
    (s.state = .error → exec .srcFail s = .next s)

-- Errors.

/-- 60_exceptions R158, R160: `raise E` writes ERR and STATE and nothing else, and CLEAR leads from any raised error
to IDLE with BIDX, FIDX and HDR zero and everything else kept. -/
def Obligations.RaiseAndReturn : Prop :=
  ∀ (s : State) (e : ErrCode),
    s.raise e = { s with err := e, state := .error } ∧
    exec .clear (s.raise e) = .next { s with state := .idle, err := .none, bidx := 0, fidx := 0, hdr := 0 }

/-- 60_exceptions R159, an inference of the spec from the command rules: every error is precise. A command that leads
to ERROR has altered no memory and not FIDX; every command but DEC_FRAME has altered nothing but ERR and STATE, and so
has a DEC_FRAME that is not permitted; the DEC_FRAME that raises BufferExceeded has altered HDR and left BIDX at 4. -/
def Obligations.ErrorsArePrecise : Prop :=
  ∀ (s t : State) (i : Instr), s.Inv → s.state ≠ .error → exec i s = .next t → t.state = .error →
    t.fb = s.fb ∧ t.pbuf = s.pbuf ∧ t.fidx = s.fidx ∧
    (t.err = .bufferExceeded ∧ i = .decFrame →
      s.state = .decHeader ∧ t.bidx = 4 ∧ s.params.pbufBytes < t.hdr.toNat ∧
      t = { s with
        hdr := t.hdr
        bidx := 4
        err := .bufferExceeded
        state := .error
        accesses := s.accesses ++ decTrace s.height.toNat 0 4 }) ∧
    (t.err ≠ .bufferExceeded ∨ i ≠ .decFrame → t = s.raise t.err)

-- Ports.

/-- 20_memory R46: a host access is answered with an error response exactly when it is one of those that R46 lists
(and a sample value of more than SAMPLE_BITS bits, log 8); then nothing of the block changes. -/
def Obligations.RefusedAccessesChangeNothing : Prop :=
  ∀ (s : State) (a : HostAccess), isCommand a = false → a ≠ .reset →
    ∃ t, access a s = .next t ∧
      (t.answer = some .errorResponse ↔ refusedAccess a s = true) ∧
      (refusedAccess a s = true → t = { s with answer := some .errorResponse })

/-- 30_encoding R63 to R66, 10_state R24, 20_memory R41: the register map written out. Each register is at its offset
and at no other, every further offset is empty, and in every state a word read at an offset answers the value in the
table: 0 for CMD, the STATE and ERR codes, each register with its unused high bits 0, the wider registers as two
words. -/
def Obligations.RegisterMapIsOneToOne : Prop :=
  (∀ (offset : Nat) (r : Reg), regAt offset = some r → regOffset r = offset) ∧
  (∀ offset : Nat, offset % 4 ≠ 0 ∨ 0x58 ≤ offset → regAt offset = none) ∧
  ∀ (s : State) (r : Reg) (offset value : Nat),
    (r, offset, value) ∈ [
      (Reg.cmd, 0x00, 0),
      (.status, 0x04,
        match s.state with
        | .idle => 0
        | .encActive => 1
        | .encDone => 2
        | .decHeader => 3
        | .decPayload => 4
        | .decDone => 5
        | .error => 7),
      (.err, 0x08,
        match s.err with
        | .none => 0
        | .capacityExceeded => 1
        | .dimensionError => 2
        | .sourceUnavailable => 3
        | .incompleteData => 4
        | .illegalCommand => 5
        | .bufferExceeded => 6),
      (.width, 0x0C, s.width.toNat), (.height, 0x10, s.height.toNat), (.channels, 0x14, s.channels.toNat),
      (.frameCount, 0x18, s.frameCount.toNat), (.plenIn, 0x1C, s.plenIn.toNat),
      (.qidxLo, 0x20, s.qidx.toNat % 2 ^ 32), (.qidxHi, 0x24, s.qidx.toNat / 2 ^ 32),
      (.qFrame, 0x28, s.qFrame.toNat), (.qSlot, 0x2C, s.qSlot.toNat), (.qRow, 0x30, s.qRow.toNat),
      (.qCol, 0x34, s.qCol.toNat), (.qChan, 0x38, s.qChan.toNat),
      (.capMaxLo, 0x3C, s.capMax.toNat % 2 ^ 32), (.capMaxHi, 0x40, s.capMax.toNat / 2 ^ 32),
      (.capFits, 0x44, s.capFits.toNat),
      (.bidxLo, 0x48, s.bidx.toNat % 2 ^ 32), (.bidxHi, 0x4C, s.bidx.toNat / 2 ^ 32),
      (.fidx, 0x50, s.fidx.toNat), (.hdr, 0x54, s.hdr.toNat)] →
    regOffset r = offset ∧ regAt offset = some r ∧ value < 2 ^ 32 ∧
      access (.regRead offset 32) s = .next (s.answered (.word (BitVec.ofNat 32 value)))

/-- 20_memory R41, 30_encoding R63: in IDLE a word written to a configuration register reads back with the bits that
the register has, and no other register of the map reads differently. -/
def Obligations.ConfigurationWordsReadBack : Prop :=
  ∀ (s : State) (r : Reg) (v mask : Word), s.state = .idle →
    (r, mask) ∈ [(Reg.width, 0xFFFF), (.height, 0xFFFF), (.channels, 0xFF), (.frameCount, 0xFFFFFFFF),
      (.plenIn, 0xFFFFFFFF), (.qidxLo, 0xFFFFFFFF), (.qidxHi, 0xF)] →
    ∃ t, access (.regWrite (regOffset r) 32 v) s = .next t ∧ t.answer = some .done ∧
      regRead r t = v &&& mask ∧ ∀ r', r' ≠ r → regRead r' t = regRead r' s

/-- 20_memory R49: every read, of any space, is free of side effects. -/
def Obligations.ReadsChangeNothing : Prop :=
  ∀ (s : State) (a : HostAccess),
    (∃ offset bits, a = .regRead offset bits) ∨ (∃ i, a = .payRead i) ∨ (∃ row col ch, a = .pixRead row col ch) →
    ∃ t, access a s = .next t ∧ t = { s with answer := t.answer }

/-- 20_memory R43, R49: a sample that exists, written with a value of SAMPLE_BITS bits, reads back, and every other
sample that exists, every payload byte and every register keeps its value. -/
def Obligations.SampleWriteThenRead : Prop :=
  ∀ (s : State) (row col ch v : Nat), s.pixExists row col ch = true → v < 2 ^ s.params.sampleBits →
    ∃ t, access (.pixWrite row col ch v) s = .next t ∧
      t = { s with fb := t.fb, answer := some .done } ∧
      access (.pixRead row col ch) t = .next (t.answered (.sample v)) ∧
      ∀ row' col' ch', s.pixExists row' col' ch' = true → (row', col', ch') ≠ (row, col, ch) →
        t.sampleAt row' col' ch' = s.sampleAt row' col' ch'

/-- 20_memory R42, R53, 10_state R25: in IDLE a payload byte below PBUF_BYTES is written and every other byte keeps
its value, but the host cannot read it: the window opens in DEC_DONE only. -/
def Obligations.PayloadWriteInIdleIsNotReadable : Prop :=
  ∀ (s : State) (i : Nat) (b : Byte), s.state = .idle → i < s.params.pbufBytes →
    ∃ t, access (.payWrite i b) s = .next t ∧
      t = { s with pbuf := t.pbuf, answer := some .done } ∧ t.payloadAt i = b ∧
      (∀ j, j ≠ i → t.payloadAt j = s.payloadAt j) ∧
      ∀ j, access (.payRead j) t = .next (t.answered .errorResponse)

/-- 20_memory R53, 43_decoder R126: in DEC_DONE the host reads payload byte `i` exactly when `i < HDR` (the buffer
bound is the decode's own); in every other state every payload read is refused. -/
def Obligations.PayloadReadWindow : Prop :=
  ∀ (s : State) (i : Nat),
    (s.state = .decDone → s.hdr.toNat ≤ s.params.pbufBytes → i < s.hdr.toNat →
      access (.payRead i) s = .next (s.answered (.byte (s.payloadAt i)))) ∧
    (s.state ≠ .decDone ∨ s.hdr.toNat ≤ i → access (.payRead i) s = .next (s.answered .errorResponse))

/-- 10_state R29: outside IDLE no step but a hardware reset changes a configuration register, whatever the host does. -/
def Obligations.ConfigurationIsLockedOutsideIdle : Prop :=
  ∀ s t : State, s.state ≠ .idle → (∀ rest, s.pending ≠ .reset :: rest) → step s = .next t →
    t.width = s.width ∧ t.height = s.height ∧ t.channels = s.channels ∧ t.frameCount = s.frameCount ∧
    t.plenIn = s.plenIn ∧ t.qidx = s.qidx

-- Memories and addresses.

/-- Two memories in canonical form with the same epoch that list the same units are the same data, whatever the unit:
bytes for PBUF, samples for FB (logs 5, 6). -/
def Obligations.CanonicalMemoriesAreEqualData : Prop :=
  ∀ (α : Type) (m m' : Memory α), m.wf = true → m'.wf = true → m.epoch = m'.epoch →
    (∀ a, m.lookup a = m'.lookup a) → m = m'

/-- 40_slot_addresser R81, an inference of the spec from R80: the ranges of `slot_for`. On an eligible frame every
location exists, and the frame index of a 36-bit byte index fits 32 bits. -/
def Obligations.SlotForStaysInTheFrame : Prop :=
  ∀ k H W C : Nat, 2 ≤ H → H ≤ 65535 → 64 ≤ W → 1 ≤ C →
    (slotFor k H).slot ≤ 15 ∧ ((slotFor k H).row = H - 2 ∨ (slotFor k H).row = H - 1) ∧
    (slotFor k H).row ≤ H - 1 ∧ H - 1 ≤ 65534 ∧ (∀ i < 8, (slotFor k H).col i ≤ 63 ∧ (slotFor k H).col i < W) ∧
    (slotFor k H).channel = 0 ∧ (slotFor k H).channel < C ∧ (k < 2 ^ 36 → (slotFor k H).frame < 2 ^ 32)

/-- 40_slot_addresser R83, an inference of the spec from R80: the coordinates of lane `i` of stream byte `k`, from `k`
and from the bit number `g = 8k + i`. -/
def Obligations.SlotForAtBitLevel : Prop :=
  ∀ k H i : Nat, i < 8 →
    (slotFor k H).frame = k / 16 ∧ (slotFor k H).row = (H - 2) + k % 16 / 8 ∧
    (slotFor k H).col i = 8 * (k % 8) + i ∧ (slotFor k H).channel = 0 ∧
    (slotFor k H).frame = (8 * k + i) / 128 ∧ (slotFor k H).row = (H - 2) + (8 * k + i) % 128 / 64 ∧
    (slotFor k H).col i = (8 * k + i) % 64

/-- 40_slot_addresser R84, an inference of the spec from R83: a location of frame `f` holds a stream bit exactly when
it lies in the two bottom rows, columns 0 to 63, channel 0; the bit is then the one that the formulas name, and it is
the lane of `slot_for` whose location this is; two different pairs of byte and lane never share a sample. -/
def Obligations.SlotInverseInvertsSlotFor : Prop :=
  (∀ f H row col ch : Nat, 2 ≤ H →
    ((slotInverse f H row col ch).isSome = true ↔ ch = 0 ∧ (row = H - 2 ∨ row = H - 1) ∧ col ≤ 63)) ∧
  (∀ f H row col ch k b : Nat, 2 ≤ H → slotInverse f H row col ch = some (k, b) →
    b = 7 - col % 8 ∧ k = 16 * f + 8 * (row - (H - 2)) + col / 8) ∧
  (∀ f H row col ch k b : Nat, 2 ≤ H →
    (slotInverse f H row col ch = some (k, b) ↔
      b < 8 ∧ (slotFor k H).frame = f ∧ (slotFor k H).row = row ∧ (slotFor k H).col (7 - b) = col ∧
      (slotFor k H).channel = ch)) ∧
  (∀ H k k' i i' : Nat, 2 ≤ H → i < 8 → i' < 8 → (slotFor k H).frame = (slotFor k' H).frame →
    (slotFor k H).row = (slotFor k' H).row → (slotFor k H).col i = (slotFor k' H).col i' → k = k' ∧ i = i')

/-- 43_decoder R120, its inverse property, an inference of the spec: after `EmbedByte(s, b)` on an eligible frame,
`ExtractByte(s)` returns `b`, whatever the frame held before. -/
def Obligations.ExtractAfterEmbedReturnsTheByte : Prop :=
  ∀ (s : State) (slot : Nat) (b : Byte), s.eligible = true → slot < 16 → 1 ≤ s.params.sampleBits →
    ∃ t u, embedByte slot b s = .ok t ∧ extractByte slot t = .ok (b, u)

/-- 42_encoder R103, 43_decoder R122, R125, 70_reset_and_hazards R192, on the record of accesses (log 3): from a state
that meets the invariant, an ENC_FRAME that moves BIDX by `n` makes `8n` sample reads, `8n` sample writes and one
payload read for each of those stream bytes from index 4 on, and no payload write; a DEC_FRAME that moves BIDX by `n`
makes `8n` sample reads and one payload write for each of those bytes from index 4 on, no sample write and no payload
read. -/
def Obligations.FrameAccessesAreCounted : Prop :=
  ∀ s t : State, s.Inv →
    (exec .encFrame s = .next t →
      ∃ tr, t.accesses = s.accesses ++ tr ∧ s.bidx.toNat ≤ t.bidx.toNat ∧
        tr.countP isPixRead = 8 * (t.bidx.toNat - s.bidx.toNat) ∧
        tr.countP isPixWrite = 8 * (t.bidx.toNat - s.bidx.toNat) ∧
        tr.countP isPayRead = (t.bidx.toNat - 4) - (s.bidx.toNat - 4) ∧ tr.countP isPayWrite = 0) ∧
    (exec .decFrame s = .next t →
      ∃ tr, t.accesses = s.accesses ++ tr ∧ s.bidx.toNat ≤ t.bidx.toNat ∧
        tr.countP isPixRead = 8 * (t.bidx.toNat - s.bidx.toNat) ∧ tr.countP isPixWrite = 0 ∧
        tr.countP isPayRead = 0 ∧ tr.countP isPayWrite = (t.bidx.toNat - 4) - (s.bidx.toNat - 4))

/-- 20_memory R54, R47: from a state that meets the invariant, every location that a command touches is in SLOTSET or
in PBUF, and only ENC_FRAME and DEC_FRAME touch any. -/
def Obligations.CoreTouchesOnlySlotSet : Prop :=
  ∀ (s t : State) (i : Instr), s.Inv → exec i s = .next t →
    ∃ tr, t.accesses = s.accesses ++ tr ∧ (∀ a ∈ tr, s.mayTouch a) ∧
      (i ≠ .encFrame → i ≠ .decFrame → tr = [])

-- Reset.

/-- 10_state R33, 70_reset_and_hazards R180: the state after reset, register by register; no location of FB exists, no
unit of either memory is listed (logs 5, 6), and with this configuration ENC_START raises CapacityExceeded and
DEC_START and SLOT_QUERY raise DimensionError. -/
def Obligations.ResetStateIsTheTable : Prop :=
  let s := State.reset
  s.state = .idle ∧ s.err = .none ∧ s.width = 0 ∧ s.height = 0 ∧ s.channels = 0 ∧ s.frameCount = 0 ∧ s.plenIn = 0 ∧
  s.hdr = 0 ∧ s.bidx = 0 ∧ s.fidx = 0 ∧ s.qidx = 0 ∧ s.qFrame = 0 ∧ s.qSlot = 0 ∧ s.qRow = 0 ∧ s.qCol = 0 ∧
  s.qChan = 0 ∧ s.capMax = 0 ∧ s.capFits = 0 ∧ (∀ row col ch, s.pixExists row col ch = false) ∧
  (∀ a, s.pbuf.lookup a = none) ∧ (∀ a, s.fb.lookup a = none) ∧
  exec .encStart s = .next (s.raise .capacityExceeded) ∧ exec .decStart s = .next (s.raise .dimensionError) ∧
  exec .slotQuery s = .next (s.raise .dimensionError)

/-- 70_reset_and_hazards R180, R182: the reset input in any state gives the registers of the reset table and leaves no
written unit in either memory; the parameters stay (log 11). -/
def Obligations.HardwareResetRestoresTheTable : Prop :=
  ∀ s : State, ∃ t, access .reset s = .next t ∧
    t = { State.reset with
      pbuf := t.pbuf
      fb := t.fb
      params := s.params
      pending := s.pending
      answer := s.answer
      accesses := s.accesses } ∧
    (∀ a, t.pbuf.lookup a = none) ∧ (∀ a, t.fb.lookup a = none)

/-- 10_state R31, an inference of the spec (the reading of its second item is log 17): the invariant holds after
reset, and so does what it says of PBUF, with no byte read. -/
def Obligations.ResetMeetsTheInvariant : Prop := State.reset.Inv ∧ State.reset.HoldsRead []

-- The machine as a whole.

/-- 10_state R31, an inference of the spec (the reading of its second item is log 17): the invariant holds at every
command boundary: every step, whatever the host does, keeps it. And so it is with what items 4 and 5 say of PBUF: with
the list of stream bytes that the decode in progress has read before the step, PBUF holds its payload bytes, and after
the step it holds those of the list that the step leaves. With the statement at reset, both hold in every reachable
state. -/
def Obligations.EveryStepKeepsTheInvariant : Prop :=
  ∀ s t : State, s.Inv → step s = .next t →
    t.Inv ∧ ∀ read : List Byte, s.HoldsRead read → t.HoldsRead (s.readAfter t read)

/-- 20_memory R47, 60_exceptions R161: from every state that meets the invariant every step answers a next state: the
core makes no access outside the frame or PBUF, and the block never gets stuck. -/
def Obligations.NoStepStopsUnderTheInvariant : Prop := ∀ s : State, s.Inv → ∃ t, step s = .next t

/-- 20_memory R47, R48, and the model's choice where a location is missing (log 9), in every state. ENC_FRAME in
ENC_ACTIVE completes exactly when every stream byte it has to embed has its slot and its source; else the first byte
that lacks one stops it, with noSuchPayloadByte for the source and noSuchPixel for the slot. DEC_FRAME in DEC_HEADER
or DEC_PAYLOAD stops with noSuchPixel where its first slot is missing. In DEC_PAYLOAD on an eligible frame it stops
with noSuchPayloadByte while BIDX is below 4, and with BIDX in the stream it completes exactly when the bytes it takes
fit PBUF, else it stops so too. -/
def Obligations.MissingLocationsStopTheCore : Prop :=
  (∀ s : State, s.state = .encActive →
    ((∃ t, exec .encFrame s = .next t) ↔
      ∀ k, s.bidx.toNat ≤ k → k < s.bidx.toNat + min 16 (4 + s.hdr.toNat - s.bidx.toNat) →
        s.slotExists k ∧ s.byteExists k)) ∧
  (∀ (s : State) (k : Nat), s.state = .encActive → s.bidx.toNat ≤ k →
    k < s.bidx.toNat + min 16 (4 + s.hdr.toNat - s.bidx.toNat) →
    (∀ k', s.bidx.toNat ≤ k' → k' < k → s.slotExists k' ∧ s.byteExists k') →
    (¬ s.byteExists k → exec .encFrame s = .fault .noSuchPayloadByte) ∧
    (s.byteExists k → ¬ s.slotExists k → exec .encFrame s = .fault .noSuchPixel)) ∧
  (∀ s : State, s.state = .decHeader ∨ s.state = .decPayload → ¬ s.slotExists 0 →
    exec .decFrame s = .fault .noSuchPixel) ∧
  (∀ s : State, s.state = .decPayload → s.eligible = true → s.bidx.toNat < 4 →
    exec .decFrame s = .fault .noSuchPayloadByte) ∧
  (∀ s : State, s.state = .decPayload → s.eligible = true → 4 ≤ s.bidx.toNat → s.bidx.toNat < 4 + s.hdr.toNat →
    ((∃ t, exec .decFrame s = .next t) ↔
      s.bidx.toNat - 4 + min 16 (4 + s.hdr.toNat - s.bidx.toNat) ≤ s.params.pbufBytes) ∧
    (s.params.pbufBytes < s.bidx.toNat - 4 + min 16 (4 + s.hdr.toNat - s.bidx.toNat) →
      exec .decFrame s = .fault .noSuchPayloadByte))

/-- 44_control R148 (c), 42_encoder R104, inferences of the spec from R103: in an encode, whatever frame the host
loads before each ENC_FRAME, the `m`-th further one brings BIDX to `min(4 + HDR, BIDX + 16m)`, so that after
`ceil((4 + HDR)/16)` of them every further ENC_FRAME is a pass-through and EOS yields ENC_DONE. The same from ENC_START
over the steps of the machine, whatever accesses the host makes between, as long as STATE stays ENC_ACTIVE. -/
def Obligations.EncodeReachesTheEndOfTheStream : Prop :=
  (∀ (s : State) (frames : List (Memory Nat)), s.Inv → s.state = .encActive →
    ∃ t, overFrames .encFrame frames s = .next t ∧ t.state = .encActive ∧ t.hdr = s.hdr ∧
      t.bidx.toNat = min (4 + s.hdr.toNat) (s.bidx.toNat + 16 * frames.length) ∧
      t.fidx = s.fidx + BitVec.ofNat 32 frames.length ∧
      ((4 + s.hdr.toNat + 15) / 16 ≤ frames.length →
        exec .encFrame t = .next { t with fidx := t.fidx + 1 } ∧ exec .eos t = .next { t with state := .encDone })) ∧
  EncodeReachesItsEnd

/-- 44_control R148 (b), 43_decoder R125, inferences of the spec from R122: a decode ends, whatever frame the host
loads before each DEC_FRAME: from DEC_HEADER or DEC_PAYLOAD at most `2^28 + 1` DEC_FRAMEs lead to DEC_DONE, with FIDX
the number `ceil((4 + HDR)/16)`, or to ERROR. And
from DEC_START, over the steps of the machine and whatever accesses the host makes between, at most that many DEC_FRAMEs
execute while the decode is in progress. -/
def Obligations.DecodeTerminates : Prop :=
  (∀ (s : State) (frames : List (Memory Nat)), s.Inv → s.state = .decHeader ∨ s.state = .decPayload →
    2 ^ 28 + 1 ≤ frames.length →
    ∃ m t, m ≤ 2 ^ 28 + 1 ∧ overFrames .decFrame (frames.take m) s = .next t ∧
      (t.state = .error ∨ (t.state = .decDone ∧ t.fidx.toNat = (4 + t.hdr.toNat + 15) / 16))) ∧
  decFrameBound = 2 ^ 28 + 1 ∧ DecodeIsBounded

/-- 43_decoder R128, an inference of the spec from R127 and R106: the round trip. For a source of frames of one
eligible geometry and a payload that fits it and the buffer, decoding the encoded frames gives the payload, byte for
byte. -/
def Obligations.DecodeOfEncodeIsThePayload : Prop :=
  ∀ (g : Geometry) (source : List Frame) (payload : List Byte) (pbufBytes : Nat),
    g.ok = true → (∀ f ∈ source, f.length = g.samples) → payload.length < 2 ^ 32 →
    4 + payload.length ≤ 16 * source.length → payload.length ≤ pbufBytes →
    decodeRef g pbufBytes (encodeRef g source payload) = .ok payload

/-- 44_control R146, 42_encoder R106 (its last sentence an inference of the spec), 60_exceptions R166: the host
procedure ENCODE, from IDLE. On a readable source of frames of one eligible geometry and a payload that fits, it hands
exactly `Encode(S, P)` to the sink and reports no error. A frame that cannot be read ends it with SourceUnavailable,
the sink holding the frames before it as `Encode` gives them (the model's choice, log 18). A request that ENC_START
turns down ends it with the first failing check's error and an empty sink. Each of these leaves the block in IDLE with
ERR NONE. On a source that cannot be opened it reports SourceUnavailable and the block is not involved. -/
def Obligations.EncodeProcedureComputesEncode : Prop :=
  (∀ (g : Geometry) (frames : List Frame) (payload : List Byte) (s : State),
    s.state = .idle → 1 ≤ s.params.sampleBits → g.ok = true →
    (∀ f ∈ frames, f.length = g.samples ∧ ∀ v ∈ f, v < 2 ^ s.params.sampleBits) → payload.length < 2 ^ 32 →
    payload.length ≤ s.params.pbufBytes →
    (frames.length < 2 ^ 32 → 4 + payload.length ≤ 16 * frames.length →
      ∃ t, encodeProc { canOpen := true, geometry := g, frames := frames.map some } payload s =
          .next ({ error := .none, sink := encodeRef g frames payload }, t) ∧
        t.state = .idle ∧ t.err = .none) ∧
    (∀ rest : List (Option Frame), frames.length + 1 + rest.length < 2 ^ 32 →
      4 + payload.length ≤ 16 * (frames.length + 1 + rest.length) →
      ∃ t, encodeProc { canOpen := true, geometry := g, frames := frames.map some ++ none :: rest } payload s =
          .next ({ error := .sourceUnavailable, sink := encodeRef g frames payload }, t) ∧
        t.state = .idle ∧ t.err = .none)) ∧
  (∀ (g : Geometry) (frames : List (Option Frame)) (payload : List Byte) (s : State) (e : ErrCode),
    s.state = .idle → g.width < 2 ^ 16 → g.height < 2 ^ 16 → g.channels < 2 ^ 8 → frames.length < 2 ^ 32 →
    payload.length < 2 ^ 32 →
    (e = .capacityExceeded ∧ 16 * frames.length < 4 + payload.length) ∨
      (e = .dimensionError ∧ 4 + payload.length ≤ 16 * frames.length ∧
        (g.width < 64 ∨ g.height < 2 ∨ g.channels = 0)) ∨
      (e = .bufferExceeded ∧ 4 + payload.length ≤ 16 * frames.length ∧ g.ok = true ∧
        s.params.pbufBytes < payload.length) →
    ∃ t, encodeProc { canOpen := true, geometry := g, frames := frames } payload s =
        .next ({ error := e, sink := [] }, t) ∧
      t.state = .idle ∧ t.err = .none) ∧
  (∀ (g : Geometry) (frames : List (Option Frame)) (payload : List Byte) (s : State),
    encodeProc { canOpen := false, geometry := g, frames := frames } payload s =
      .next ({ error := .sourceUnavailable, sink := [] }, s))

/-- 44_control R147, 43_decoder R127 (its last sentence an inference of the spec), 60_exceptions R166: the host
procedure DECODE, from IDLE. On a readable source of frames of one eligible geometry it returns exactly `Decode(S)`,
the payload or the error. A frame that cannot be read ends it with SourceUnavailable, unless the frames before it
already decide the result: that result is returned then. An ineligible geometry ends it with DimensionError. Each of
these leaves the block in IDLE with ERR NONE. On a source that cannot be opened it reports SourceUnavailable and the
block is not involved. -/
def Obligations.DecodeProcedureComputesDecode : Prop :=
  (∀ (g : Geometry) (frames : List Frame) (s : State),
    s.state = .idle → g.ok = true →
    (∀ f ∈ frames, f.length = g.samples ∧ ∀ v ∈ f, v < 2 ^ s.params.sampleBits) →
    (∃ t, decodeProc { canOpen := true, geometry := g, frames := frames.map some } s =
        .next (decodeRef g s.params.pbufBytes frames, t) ∧
      t.state = .idle ∧ t.err = .none) ∧
    (∀ rest : List (Option Frame),
      ∃ t, decodeProc { canOpen := true, geometry := g, frames := frames.map some ++ none :: rest } s =
          .next (if decodeRef g s.params.pbufBytes frames = .error .incompleteData then .error .sourceUnavailable
            else decodeRef g s.params.pbufBytes frames, t) ∧
        t.state = .idle ∧ t.err = .none)) ∧
  (∀ (g : Geometry) (frames : List (Option Frame)) (s : State),
    s.state = .idle → g.width < 2 ^ 16 → g.height < 2 ^ 16 → g.channels < 2 ^ 8 →
    g.width < 64 ∨ g.height < 2 ∨ g.channels = 0 →
    ∃ t, decodeProc { canOpen := true, geometry := g, frames := frames } s = .next (.error .dimensionError, t) ∧
      t.state = .idle ∧ t.err = .none) ∧
  (∀ (g : Geometry) (frames : List (Option Frame)) (s : State),
    decodeProc { canOpen := false, geometry := g, frames := frames } s = .next (.error .sourceUnavailable, s))
end

