-- ==== Sys2Proof/Laws/Memory.lean ====
section
/-! SUPPORT. The laws of the memories: read after write, and the canonical form is kept by every operation. -/

namespace Sys2Proof.Machine

variable {α : Type}

theorem lookupCell_insertCell (l : List (Nat × α)) (a a' : Nat) (v : α) :
    lookupCell (insertCell l a v) a' = if a' = a then some v else lookupCell l a' := by
  induction l with
  | nil => by_cases h : a' = a <;> simp [insertCell, lookupCell, h]
  | cons c rest ih =>
    obtain ⟨b, u⟩ := c
    simp only [insertCell]
    split
    · simp only [lookupCell]
      split_ifs <;> first | rfl | omega
    · split
      · simp only [lookupCell]
        split_ifs <;> first | rfl | omega
      · simp only [lookupCell, ih]
        split_ifs <;> first | rfl | omega

/-- Reading after a write: the value written at its address, what was there at every other. -/
@[simp] theorem Memory.lookup_insert (m : Memory α) (a a' : Nat) (v : α) :
    (m.insert a v).lookup a' = if a' = a then some v else m.lookup a' :=
  lookupCell_insertCell m.cells a a' v

@[simp] theorem Memory.insert_epoch (m : Memory α) (a : Nat) (v : α) : (m.insert a v).epoch = m.epoch := rfl
@[simp] theorem Memory.insert_cells (m : Memory α) (a : Nat) (v : α) :
    (m.insert a v).cells = insertCell m.cells a v := rfl
@[simp] theorem Memory.forget_epoch (m : Memory α) : m.forget.epoch = m.epoch + 1 := rfl
@[simp] theorem Memory.forget_cells (m : Memory α) : m.forget.cells = [] := rfl
@[simp] theorem Memory.lookup_forget (m : Memory α) (a : Nat) : m.forget.lookup a = none := rfl

theorem risingFrom_insertCell (l : List (Nat × α)) (lo : Option Nat) (a : Nat) (v : α)
    (hlo : ∀ b, lo = some b → b < a) (h : risingFrom lo l = true) : risingFrom lo (insertCell l a v) = true := by
  induction l generalizing lo with
  | nil => cases lo <;> simp_all [insertCell, risingFrom]
  | cons c rest ih =>
    obtain ⟨b, u⟩ := c
    simp only [insertCell]
    simp only [risingFrom, Bool.and_eq_true] at h
    split
    · rename_i hab
      cases lo <;> simp_all [risingFrom]
    · split
      · rename_i hab
        subst hab
        simp only [risingFrom, Bool.and_eq_true]
        exact h
      · simp only [risingFrom, Bool.and_eq_true]
        refine ⟨h.1, ih (some b) ?_ h.2⟩
        intro b' hb'
        cases hb'
        omega

/-- A write keeps the canonical form. -/
theorem Memory.wf_insert (m : Memory α) (a : Nat) (v : α) (h : m.wf = true) : (m.insert a v).wf = true :=
  risingFrom_insertCell m.cells none a v (fun _ h => nomatch h) h

/-- Forgetting the contents gives the canonical form. -/
@[simp] theorem Memory.wf_forget (m : Memory α) : m.forget.wf = true := rfl

/-- What a write lists: the unit written and nothing that was not there. -/
theorem mem_insertCell {l : List (Nat × α)} {a : Nat} {v : α} {c : Nat × α} (h : c ∈ insertCell l a v) :
    c = (a, v) ∨ c ∈ l := by
  induction l with
  | nil => simpa [insertCell] using h
  | cons d rest ih =>
    obtain ⟨b, u⟩ := d
    simp only [insertCell] at h
    split at h
    · simpa using h
    · split at h
      · rcases List.mem_cons.1 h with h | h
        · exact .inl h
        · exact .inr (List.mem_cons_of_mem _ h)
      · rcases List.mem_cons.1 h with h | h
        · exact .inr (by simp [h])
        · rcases ih h with h | h
          · exact .inl h
          · exact .inr (List.mem_cons_of_mem _ h)

/-- What a memory reads at an address is one of the units it lists. -/
theorem mem_of_lookupCell {l : List (Nat × α)} {a : Nat} {v : α} (h : lookupCell l a = some v) : (a, v) ∈ l := by
  induction l with
  | nil => simp [lookupCell] at h
  | cons d rest ih =>
    obtain ⟨b, u⟩ := d
    simp only [lookupCell] at h
    split_ifs at h with h1 h2
    · cases h
      subst h1
      exact List.mem_cons_self
    · exact List.mem_cons_of_mem _ (ih h)

/-- In the canonical form every address after an entry is above it. -/
theorem risingFrom_lt {l : List (Nat × α)} {a : Nat} (h : risingFrom (some a) l = true) :
    ∀ c ∈ l, a < c.1 := by
  induction l generalizing a with
  | nil => simp
  | cons d rest ih =>
    obtain ⟨b, u⟩ := d
    simp only [risingFrom, Bool.and_eq_true, decide_eq_true_eq] at h
    intro c hc
    rcases List.mem_cons.1 hc with rfl | hc
    · exact h.1
    · exact lt_trans h.1 (ih h.2 c hc)

end Sys2Proof.Machine
end

