-- ==== Sys2Proof/Laws/State.lean ====
section
/-! SUPPORT. One lemma per field per update of the state, each true by rfl. The updates that leave the whole block
alone have one lemma about `toBlock`, which covers the twenty block fields. -/

namespace Sys2Proof.Machine

variable (s : State)

-- withFb
@[simp] theorem State.withFb_state (m : Memory Nat) : (s.withFb m).state = s.state := rfl
@[simp] theorem State.withFb_err (m : Memory Nat) : (s.withFb m).err = s.err := rfl
@[simp] theorem State.withFb_width (m : Memory Nat) : (s.withFb m).width = s.width := rfl
@[simp] theorem State.withFb_height (m : Memory Nat) : (s.withFb m).height = s.height := rfl
@[simp] theorem State.withFb_channels (m : Memory Nat) : (s.withFb m).channels = s.channels := rfl
@[simp] theorem State.withFb_frameCount (m : Memory Nat) : (s.withFb m).frameCount = s.frameCount := rfl
@[simp] theorem State.withFb_plenIn (m : Memory Nat) : (s.withFb m).plenIn = s.plenIn := rfl
@[simp] theorem State.withFb_hdr (m : Memory Nat) : (s.withFb m).hdr = s.hdr := rfl
@[simp] theorem State.withFb_bidx (m : Memory Nat) : (s.withFb m).bidx = s.bidx := rfl
@[simp] theorem State.withFb_fidx (m : Memory Nat) : (s.withFb m).fidx = s.fidx := rfl
@[simp] theorem State.withFb_qidx (m : Memory Nat) : (s.withFb m).qidx = s.qidx := rfl
@[simp] theorem State.withFb_qFrame (m : Memory Nat) : (s.withFb m).qFrame = s.qFrame := rfl
@[simp] theorem State.withFb_qSlot (m : Memory Nat) : (s.withFb m).qSlot = s.qSlot := rfl
@[simp] theorem State.withFb_qRow (m : Memory Nat) : (s.withFb m).qRow = s.qRow := rfl
@[simp] theorem State.withFb_qCol (m : Memory Nat) : (s.withFb m).qCol = s.qCol := rfl
@[simp] theorem State.withFb_qChan (m : Memory Nat) : (s.withFb m).qChan = s.qChan := rfl
@[simp] theorem State.withFb_capMax (m : Memory Nat) : (s.withFb m).capMax = s.capMax := rfl
@[simp] theorem State.withFb_capFits (m : Memory Nat) : (s.withFb m).capFits = s.capFits := rfl
@[simp] theorem State.withFb_pbuf (m : Memory Nat) : (s.withFb m).pbuf = s.pbuf := rfl
@[simp] theorem State.withFb_fb (m : Memory Nat) : (s.withFb m).fb = m := rfl
@[simp] theorem State.withFb_params (m : Memory Nat) : (s.withFb m).params = s.params := rfl
@[simp] theorem State.withFb_pending (m : Memory Nat) : (s.withFb m).pending = s.pending := rfl
@[simp] theorem State.withFb_answer (m : Memory Nat) : (s.withFb m).answer = s.answer := rfl
@[simp] theorem State.withFb_accesses (m : Memory Nat) : (s.withFb m).accesses = s.accesses := rfl

-- withPbuf
@[simp] theorem State.withPbuf_state (m : Memory Byte) : (s.withPbuf m).state = s.state := rfl
@[simp] theorem State.withPbuf_err (m : Memory Byte) : (s.withPbuf m).err = s.err := rfl
@[simp] theorem State.withPbuf_width (m : Memory Byte) : (s.withPbuf m).width = s.width := rfl
@[simp] theorem State.withPbuf_height (m : Memory Byte) : (s.withPbuf m).height = s.height := rfl
@[simp] theorem State.withPbuf_channels (m : Memory Byte) : (s.withPbuf m).channels = s.channels := rfl
@[simp] theorem State.withPbuf_frameCount (m : Memory Byte) : (s.withPbuf m).frameCount = s.frameCount := rfl
@[simp] theorem State.withPbuf_plenIn (m : Memory Byte) : (s.withPbuf m).plenIn = s.plenIn := rfl
@[simp] theorem State.withPbuf_hdr (m : Memory Byte) : (s.withPbuf m).hdr = s.hdr := rfl
@[simp] theorem State.withPbuf_bidx (m : Memory Byte) : (s.withPbuf m).bidx = s.bidx := rfl
@[simp] theorem State.withPbuf_fidx (m : Memory Byte) : (s.withPbuf m).fidx = s.fidx := rfl
@[simp] theorem State.withPbuf_qidx (m : Memory Byte) : (s.withPbuf m).qidx = s.qidx := rfl
@[simp] theorem State.withPbuf_qFrame (m : Memory Byte) : (s.withPbuf m).qFrame = s.qFrame := rfl
@[simp] theorem State.withPbuf_qSlot (m : Memory Byte) : (s.withPbuf m).qSlot = s.qSlot := rfl
@[simp] theorem State.withPbuf_qRow (m : Memory Byte) : (s.withPbuf m).qRow = s.qRow := rfl
@[simp] theorem State.withPbuf_qCol (m : Memory Byte) : (s.withPbuf m).qCol = s.qCol := rfl
@[simp] theorem State.withPbuf_qChan (m : Memory Byte) : (s.withPbuf m).qChan = s.qChan := rfl
@[simp] theorem State.withPbuf_capMax (m : Memory Byte) : (s.withPbuf m).capMax = s.capMax := rfl
@[simp] theorem State.withPbuf_capFits (m : Memory Byte) : (s.withPbuf m).capFits = s.capFits := rfl
@[simp] theorem State.withPbuf_pbuf (m : Memory Byte) : (s.withPbuf m).pbuf = m := rfl
@[simp] theorem State.withPbuf_fb (m : Memory Byte) : (s.withPbuf m).fb = s.fb := rfl
@[simp] theorem State.withPbuf_params (m : Memory Byte) : (s.withPbuf m).params = s.params := rfl
@[simp] theorem State.withPbuf_pending (m : Memory Byte) : (s.withPbuf m).pending = s.pending := rfl
@[simp] theorem State.withPbuf_answer (m : Memory Byte) : (s.withPbuf m).answer = s.answer := rfl
@[simp] theorem State.withPbuf_accesses (m : Memory Byte) : (s.withPbuf m).accesses = s.accesses := rfl

-- raise
@[simp] theorem State.raise_state (e : ErrCode) : (s.raise e).state = .error := rfl
@[simp] theorem State.raise_err (e : ErrCode) : (s.raise e).err = e := rfl
@[simp] theorem State.raise_width (e : ErrCode) : (s.raise e).width = s.width := rfl
@[simp] theorem State.raise_height (e : ErrCode) : (s.raise e).height = s.height := rfl
@[simp] theorem State.raise_channels (e : ErrCode) : (s.raise e).channels = s.channels := rfl
@[simp] theorem State.raise_frameCount (e : ErrCode) : (s.raise e).frameCount = s.frameCount := rfl
@[simp] theorem State.raise_plenIn (e : ErrCode) : (s.raise e).plenIn = s.plenIn := rfl
@[simp] theorem State.raise_hdr (e : ErrCode) : (s.raise e).hdr = s.hdr := rfl
@[simp] theorem State.raise_bidx (e : ErrCode) : (s.raise e).bidx = s.bidx := rfl
@[simp] theorem State.raise_fidx (e : ErrCode) : (s.raise e).fidx = s.fidx := rfl
@[simp] theorem State.raise_qidx (e : ErrCode) : (s.raise e).qidx = s.qidx := rfl
@[simp] theorem State.raise_qFrame (e : ErrCode) : (s.raise e).qFrame = s.qFrame := rfl
@[simp] theorem State.raise_qSlot (e : ErrCode) : (s.raise e).qSlot = s.qSlot := rfl
@[simp] theorem State.raise_qRow (e : ErrCode) : (s.raise e).qRow = s.qRow := rfl
@[simp] theorem State.raise_qCol (e : ErrCode) : (s.raise e).qCol = s.qCol := rfl
@[simp] theorem State.raise_qChan (e : ErrCode) : (s.raise e).qChan = s.qChan := rfl
@[simp] theorem State.raise_capMax (e : ErrCode) : (s.raise e).capMax = s.capMax := rfl
@[simp] theorem State.raise_capFits (e : ErrCode) : (s.raise e).capFits = s.capFits := rfl
@[simp] theorem State.raise_pbuf (e : ErrCode) : (s.raise e).pbuf = s.pbuf := rfl
@[simp] theorem State.raise_fb (e : ErrCode) : (s.raise e).fb = s.fb := rfl
@[simp] theorem State.raise_params (e : ErrCode) : (s.raise e).params = s.params := rfl
@[simp] theorem State.raise_pending (e : ErrCode) : (s.raise e).pending = s.pending := rfl
@[simp] theorem State.raise_answer (e : ErrCode) : (s.raise e).answer = s.answer := rfl
@[simp] theorem State.raise_accesses (e : ErrCode) : (s.raise e).accesses = s.accesses := rfl

-- toIdle
@[simp] theorem State.toIdle_state : (s.toIdle).state = .idle := rfl
@[simp] theorem State.toIdle_err : (s.toIdle).err = .none := rfl
@[simp] theorem State.toIdle_width : (s.toIdle).width = s.width := rfl
@[simp] theorem State.toIdle_height : (s.toIdle).height = s.height := rfl
@[simp] theorem State.toIdle_channels : (s.toIdle).channels = s.channels := rfl
@[simp] theorem State.toIdle_frameCount : (s.toIdle).frameCount = s.frameCount := rfl
@[simp] theorem State.toIdle_plenIn : (s.toIdle).plenIn = s.plenIn := rfl
@[simp] theorem State.toIdle_hdr : (s.toIdle).hdr = 0 := rfl
@[simp] theorem State.toIdle_bidx : (s.toIdle).bidx = 0 := rfl
@[simp] theorem State.toIdle_fidx : (s.toIdle).fidx = 0 := rfl
@[simp] theorem State.toIdle_qidx : (s.toIdle).qidx = s.qidx := rfl
@[simp] theorem State.toIdle_qFrame : (s.toIdle).qFrame = s.qFrame := rfl
@[simp] theorem State.toIdle_qSlot : (s.toIdle).qSlot = s.qSlot := rfl
@[simp] theorem State.toIdle_qRow : (s.toIdle).qRow = s.qRow := rfl
@[simp] theorem State.toIdle_qCol : (s.toIdle).qCol = s.qCol := rfl
@[simp] theorem State.toIdle_qChan : (s.toIdle).qChan = s.qChan := rfl
@[simp] theorem State.toIdle_capMax : (s.toIdle).capMax = s.capMax := rfl
@[simp] theorem State.toIdle_capFits : (s.toIdle).capFits = s.capFits := rfl
@[simp] theorem State.toIdle_pbuf : (s.toIdle).pbuf = s.pbuf := rfl
@[simp] theorem State.toIdle_fb : (s.toIdle).fb = s.fb := rfl
@[simp] theorem State.toIdle_params : (s.toIdle).params = s.params := rfl
@[simp] theorem State.toIdle_pending : (s.toIdle).pending = s.pending := rfl
@[simp] theorem State.toIdle_answer : (s.toIdle).answer = s.answer := rfl
@[simp] theorem State.toIdle_accesses : (s.toIdle).accesses = s.accesses := rfl

-- setSample
@[simp] theorem State.setSample_state (row col ch v : Nat) : (s.setSample row col ch v).state = s.state := rfl
@[simp] theorem State.setSample_err (row col ch v : Nat) : (s.setSample row col ch v).err = s.err := rfl
@[simp] theorem State.setSample_width (row col ch v : Nat) : (s.setSample row col ch v).width = s.width := rfl
@[simp] theorem State.setSample_height (row col ch v : Nat) : (s.setSample row col ch v).height = s.height := rfl
@[simp] theorem State.setSample_channels (row col ch v : Nat) : (s.setSample row col ch v).channels = s.channels := rfl
@[simp] theorem State.setSample_frameCount (row col ch v : Nat) : (s.setSample row col ch v).frameCount = s.frameCount := rfl
@[simp] theorem State.setSample_plenIn (row col ch v : Nat) : (s.setSample row col ch v).plenIn = s.plenIn := rfl
@[simp] theorem State.setSample_hdr (row col ch v : Nat) : (s.setSample row col ch v).hdr = s.hdr := rfl
@[simp] theorem State.setSample_bidx (row col ch v : Nat) : (s.setSample row col ch v).bidx = s.bidx := rfl
@[simp] theorem State.setSample_fidx (row col ch v : Nat) : (s.setSample row col ch v).fidx = s.fidx := rfl
@[simp] theorem State.setSample_qidx (row col ch v : Nat) : (s.setSample row col ch v).qidx = s.qidx := rfl
@[simp] theorem State.setSample_qFrame (row col ch v : Nat) : (s.setSample row col ch v).qFrame = s.qFrame := rfl
@[simp] theorem State.setSample_qSlot (row col ch v : Nat) : (s.setSample row col ch v).qSlot = s.qSlot := rfl
@[simp] theorem State.setSample_qRow (row col ch v : Nat) : (s.setSample row col ch v).qRow = s.qRow := rfl
@[simp] theorem State.setSample_qCol (row col ch v : Nat) : (s.setSample row col ch v).qCol = s.qCol := rfl
@[simp] theorem State.setSample_qChan (row col ch v : Nat) : (s.setSample row col ch v).qChan = s.qChan := rfl
@[simp] theorem State.setSample_capMax (row col ch v : Nat) : (s.setSample row col ch v).capMax = s.capMax := rfl
@[simp] theorem State.setSample_capFits (row col ch v : Nat) : (s.setSample row col ch v).capFits = s.capFits := rfl
@[simp] theorem State.setSample_pbuf (row col ch v : Nat) : (s.setSample row col ch v).pbuf = s.pbuf := rfl
@[simp] theorem State.setSample_fb (row col ch v : Nat) : (s.setSample row col ch v).fb = s.fb.insert (s.pixIndex row col ch) v := rfl
@[simp] theorem State.setSample_params (row col ch v : Nat) : (s.setSample row col ch v).params = s.params := rfl
@[simp] theorem State.setSample_pending (row col ch v : Nat) : (s.setSample row col ch v).pending = s.pending := rfl
@[simp] theorem State.setSample_answer (row col ch v : Nat) : (s.setSample row col ch v).answer = s.answer := rfl
@[simp] theorem State.setSample_accesses (row col ch v : Nat) : (s.setSample row col ch v).accesses = s.accesses := rfl

-- setPayload
@[simp] theorem State.setPayload_state (i : Nat) (b : Byte) : (s.setPayload i b).state = s.state := rfl
@[simp] theorem State.setPayload_err (i : Nat) (b : Byte) : (s.setPayload i b).err = s.err := rfl
@[simp] theorem State.setPayload_width (i : Nat) (b : Byte) : (s.setPayload i b).width = s.width := rfl
@[simp] theorem State.setPayload_height (i : Nat) (b : Byte) : (s.setPayload i b).height = s.height := rfl
@[simp] theorem State.setPayload_channels (i : Nat) (b : Byte) : (s.setPayload i b).channels = s.channels := rfl
@[simp] theorem State.setPayload_frameCount (i : Nat) (b : Byte) : (s.setPayload i b).frameCount = s.frameCount := rfl
@[simp] theorem State.setPayload_plenIn (i : Nat) (b : Byte) : (s.setPayload i b).plenIn = s.plenIn := rfl
@[simp] theorem State.setPayload_hdr (i : Nat) (b : Byte) : (s.setPayload i b).hdr = s.hdr := rfl
@[simp] theorem State.setPayload_bidx (i : Nat) (b : Byte) : (s.setPayload i b).bidx = s.bidx := rfl
@[simp] theorem State.setPayload_fidx (i : Nat) (b : Byte) : (s.setPayload i b).fidx = s.fidx := rfl
@[simp] theorem State.setPayload_qidx (i : Nat) (b : Byte) : (s.setPayload i b).qidx = s.qidx := rfl
@[simp] theorem State.setPayload_qFrame (i : Nat) (b : Byte) : (s.setPayload i b).qFrame = s.qFrame := rfl
@[simp] theorem State.setPayload_qSlot (i : Nat) (b : Byte) : (s.setPayload i b).qSlot = s.qSlot := rfl
@[simp] theorem State.setPayload_qRow (i : Nat) (b : Byte) : (s.setPayload i b).qRow = s.qRow := rfl
@[simp] theorem State.setPayload_qCol (i : Nat) (b : Byte) : (s.setPayload i b).qCol = s.qCol := rfl
@[simp] theorem State.setPayload_qChan (i : Nat) (b : Byte) : (s.setPayload i b).qChan = s.qChan := rfl
@[simp] theorem State.setPayload_capMax (i : Nat) (b : Byte) : (s.setPayload i b).capMax = s.capMax := rfl
@[simp] theorem State.setPayload_capFits (i : Nat) (b : Byte) : (s.setPayload i b).capFits = s.capFits := rfl
@[simp] theorem State.setPayload_pbuf (i : Nat) (b : Byte) : (s.setPayload i b).pbuf = s.pbuf.insert i b := rfl
@[simp] theorem State.setPayload_fb (i : Nat) (b : Byte) : (s.setPayload i b).fb = s.fb := rfl
@[simp] theorem State.setPayload_params (i : Nat) (b : Byte) : (s.setPayload i b).params = s.params := rfl
@[simp] theorem State.setPayload_pending (i : Nat) (b : Byte) : (s.setPayload i b).pending = s.pending := rfl
@[simp] theorem State.setPayload_answer (i : Nat) (b : Byte) : (s.setPayload i b).answer = s.answer := rfl
@[simp] theorem State.setPayload_accesses (i : Nat) (b : Byte) : (s.setPayload i b).accesses = s.accesses := rfl

-- withQuery
@[simp] theorem State.withQuery_state (l : SlotLoc) : (s.withQuery l).state = s.state := rfl
@[simp] theorem State.withQuery_err (l : SlotLoc) : (s.withQuery l).err = s.err := rfl
@[simp] theorem State.withQuery_width (l : SlotLoc) : (s.withQuery l).width = s.width := rfl
@[simp] theorem State.withQuery_height (l : SlotLoc) : (s.withQuery l).height = s.height := rfl
@[simp] theorem State.withQuery_channels (l : SlotLoc) : (s.withQuery l).channels = s.channels := rfl
@[simp] theorem State.withQuery_frameCount (l : SlotLoc) : (s.withQuery l).frameCount = s.frameCount := rfl
@[simp] theorem State.withQuery_plenIn (l : SlotLoc) : (s.withQuery l).plenIn = s.plenIn := rfl
@[simp] theorem State.withQuery_hdr (l : SlotLoc) : (s.withQuery l).hdr = s.hdr := rfl
@[simp] theorem State.withQuery_bidx (l : SlotLoc) : (s.withQuery l).bidx = s.bidx := rfl
@[simp] theorem State.withQuery_fidx (l : SlotLoc) : (s.withQuery l).fidx = s.fidx := rfl
@[simp] theorem State.withQuery_qidx (l : SlotLoc) : (s.withQuery l).qidx = s.qidx := rfl
@[simp] theorem State.withQuery_qFrame (l : SlotLoc) : (s.withQuery l).qFrame = BitVec.ofNat 32 l.frame := rfl
@[simp] theorem State.withQuery_qSlot (l : SlotLoc) : (s.withQuery l).qSlot = BitVec.ofNat 4 l.slot := rfl
@[simp] theorem State.withQuery_qRow (l : SlotLoc) : (s.withQuery l).qRow = BitVec.ofNat 16 l.row := rfl
@[simp] theorem State.withQuery_qCol (l : SlotLoc) : (s.withQuery l).qCol = BitVec.ofNat 16 (l.col 0) := rfl
@[simp] theorem State.withQuery_qChan (l : SlotLoc) : (s.withQuery l).qChan = BitVec.ofNat 8 l.channel := rfl
@[simp] theorem State.withQuery_capMax (l : SlotLoc) : (s.withQuery l).capMax = s.capMax := rfl
@[simp] theorem State.withQuery_capFits (l : SlotLoc) : (s.withQuery l).capFits = s.capFits := rfl
@[simp] theorem State.withQuery_pbuf (l : SlotLoc) : (s.withQuery l).pbuf = s.pbuf := rfl
@[simp] theorem State.withQuery_fb (l : SlotLoc) : (s.withQuery l).fb = s.fb := rfl
@[simp] theorem State.withQuery_params (l : SlotLoc) : (s.withQuery l).params = s.params := rfl
@[simp] theorem State.withQuery_pending (l : SlotLoc) : (s.withQuery l).pending = s.pending := rfl
@[simp] theorem State.withQuery_answer (l : SlotLoc) : (s.withQuery l).answer = s.answer := rfl
@[simp] theorem State.withQuery_accesses (l : SlotLoc) : (s.withQuery l).accesses = s.accesses := rfl

-- hardwareReset
@[simp] theorem State.hardwareReset_state : (s.hardwareReset).state = .idle := rfl
@[simp] theorem State.hardwareReset_err : (s.hardwareReset).err = .none := rfl
@[simp] theorem State.hardwareReset_width : (s.hardwareReset).width = 0 := rfl
@[simp] theorem State.hardwareReset_height : (s.hardwareReset).height = 0 := rfl
@[simp] theorem State.hardwareReset_channels : (s.hardwareReset).channels = 0 := rfl
@[simp] theorem State.hardwareReset_frameCount : (s.hardwareReset).frameCount = 0 := rfl
@[simp] theorem State.hardwareReset_plenIn : (s.hardwareReset).plenIn = 0 := rfl
@[simp] theorem State.hardwareReset_hdr : (s.hardwareReset).hdr = 0 := rfl
@[simp] theorem State.hardwareReset_bidx : (s.hardwareReset).bidx = 0 := rfl
@[simp] theorem State.hardwareReset_fidx : (s.hardwareReset).fidx = 0 := rfl
@[simp] theorem State.hardwareReset_qidx : (s.hardwareReset).qidx = 0 := rfl
@[simp] theorem State.hardwareReset_qFrame : (s.hardwareReset).qFrame = 0 := rfl
@[simp] theorem State.hardwareReset_qSlot : (s.hardwareReset).qSlot = 0 := rfl
@[simp] theorem State.hardwareReset_qRow : (s.hardwareReset).qRow = 0 := rfl
@[simp] theorem State.hardwareReset_qCol : (s.hardwareReset).qCol = 0 := rfl
@[simp] theorem State.hardwareReset_qChan : (s.hardwareReset).qChan = 0 := rfl
@[simp] theorem State.hardwareReset_capMax : (s.hardwareReset).capMax = 0 := rfl
@[simp] theorem State.hardwareReset_capFits : (s.hardwareReset).capFits = 0 := rfl
@[simp] theorem State.hardwareReset_pbuf : (s.hardwareReset).pbuf = s.pbuf.forget := rfl
@[simp] theorem State.hardwareReset_fb : (s.hardwareReset).fb = s.fb.forget := rfl
@[simp] theorem State.hardwareReset_params : (s.hardwareReset).params = s.params := rfl
@[simp] theorem State.hardwareReset_pending : (s.hardwareReset).pending = s.pending := rfl
@[simp] theorem State.hardwareReset_answer : (s.hardwareReset).answer = s.answer := rfl
@[simp] theorem State.hardwareReset_accesses : (s.hardwareReset).accesses = s.accesses := rfl

-- note
@[simp] theorem State.note_toBlock (a : CoreAccess) : (s.note a).toBlock = s.toBlock := rfl
@[simp] theorem State.note_params (a : CoreAccess) : (s.note a).params = s.params := rfl
@[simp] theorem State.note_pending (a : CoreAccess) : (s.note a).pending = s.pending := rfl
@[simp] theorem State.note_answer (a : CoreAccess) : (s.note a).answer = s.answer := rfl
@[simp] theorem State.note_accesses (a : CoreAccess) : (s.note a).accesses = s.accesses ++ [a] := rfl

-- answered
@[simp] theorem State.answered_toBlock (a : PortAnswer) : (s.answered a).toBlock = s.toBlock := rfl
@[simp] theorem State.answered_params (a : PortAnswer) : (s.answered a).params = s.params := rfl
@[simp] theorem State.answered_pending (a : PortAnswer) : (s.answered a).pending = s.pending := rfl
@[simp] theorem State.answered_answer (a : PortAnswer) : (s.answered a).answer = some a := rfl
@[simp] theorem State.answered_accesses (a : PortAnswer) : (s.answered a).accesses = s.accesses := rfl

-- begin
@[simp] theorem State.begin_toBlock (rest : List HostAccess) : (s.begin rest).toBlock = s.toBlock := rfl
@[simp] theorem State.begin_params (rest : List HostAccess) : (s.begin rest).params = s.params := rfl
@[simp] theorem State.begin_pending (rest : List HostAccess) : (s.begin rest).pending = rest := rfl
@[simp] theorem State.begin_answer (rest : List HostAccess) : (s.begin rest).answer = s.answer := rfl
@[simp] theorem State.begin_accesses (rest : List HostAccess) : (s.begin rest).accesses = [] := rfl

-- withFetchWord
@[simp] theorem State.withFetchWord_toBlock (nbits w : Nat) : (s.withFetchWord nbits w).toBlock = s.toBlock := rfl
@[simp] theorem State.withFetchWord_params (nbits w : Nat) : (s.withFetchWord nbits w).params = s.params := rfl
@[simp] theorem State.withFetchWord_pending (nbits w : Nat) : (s.withFetchWord nbits w).pending = .regWrite 0x00 32 (BitVec.ofNat 32 (w % 2 ^ nbits)) :: s.pending := rfl
@[simp] theorem State.withFetchWord_answer (nbits w : Nat) : (s.withFetchWord nbits w).answer = s.answer := rfl
@[simp] theorem State.withFetchWord_accesses (nbits w : Nat) : (s.withFetchWord nbits w).accesses = s.accesses := rfl

end Sys2Proof.Machine
end

