-- ==== Sys2Proof/Laws/Ops.lean ====
section
/-! SUPPORT. What each shared operation can do, said once: pixel and payload locations, the core's accesses, `require`,
the geometry test. -/

namespace Sys2Proof.Machine

-- Locations.

theorem State.pixExists_iff (s : State) (row col ch : Nat) :
    s.pixExists row col ch = true ↔ row < s.height.toNat ∧ col < s.width.toNat ∧ ch < s.channels.toNat := by
  simp [State.pixExists, and_assoc]

theorem State.payExists_iff (s : State) (i : Nat) : s.payExists i = true ↔ i < s.params.pbufBytes := by
  simp [State.payExists]

theorem State.eligible_iff (s : State) :
    s.eligible = true ↔ 64 ≤ s.width.toNat ∧ 2 ≤ s.height.toNat ∧ 1 ≤ s.channels.toNat := by
  simp only [State.eligible, Bool.and_eq_true, decide_eq_true_eq, bne_iff_ne, ne_eq]
  simp only [Config.minWidth, Config.minHeight]
  constructor
  · rintro ⟨⟨h1, h2⟩, h3⟩
    refine ⟨h1, h2, Nat.one_le_iff_ne_zero.2 fun h => h3 ?_⟩
    exact BitVec.eq_of_toNat_eq (by simpa using h)
  · rintro ⟨h1, h2, h3⟩
    refine ⟨⟨h1, h2⟩, fun h => ?_⟩
    simp [h] at h3

/-- Different locations of a frame have different linear indices (20_memory R43). -/
theorem State.pixIndex_inj {s : State} {r c h r' c' h' : Nat} (hc : c < s.width.toNat) (hh : h < s.channels.toNat)
    (hc' : c' < s.width.toNat) (hh' : h' < s.channels.toNat) :
    s.pixIndex r c h = s.pixIndex r' c' h' ↔ r = r' ∧ c = c' ∧ h = h' := by
  constructor
  · intro e
    simp only [State.pixIndex] at e
    have e1 : h = h' := by
      have := congrArg (· % s.channels.toNat) e
      simpa [Nat.add_mod, Nat.mod_eq_of_lt hh, Nat.mod_eq_of_lt hh'] using this
    have e2 : r * s.width.toNat + c = r' * s.width.toNat + c' := by
      subst e1
      exact Nat.eq_of_mul_eq_mul_right (by omega) (Nat.add_right_cancel e)
    have e3 : c = c' := by
      have := congrArg (· % s.width.toNat) e2
      simpa [Nat.add_mod, Nat.mod_eq_of_lt hc, Nat.mod_eq_of_lt hc'] using this
    subst e3
    exact ⟨Nat.eq_of_mul_eq_mul_right (by omega) (Nat.add_right_cancel e2), rfl, e1⟩
  · rintro ⟨rfl, rfl, rfl⟩
    rfl

/-- The linear index of a location is below the number of samples (20_memory R40). -/
theorem State.pixIndex_lt {s : State} {r c h : Nat} (hx : s.pixExists r c h = true) :
    s.pixIndex r c h < s.height.toNat * s.width.toNat * s.channels.toNat := by
  obtain ⟨hr, hc, hh⟩ := (s.pixExists_iff r c h).1 hx
  have h1 : r * s.width.toNat + c < s.height.toNat * s.width.toNat := by
    calc r * s.width.toNat + c < r * s.width.toNat + s.width.toNat := by omega
      _ = (r + 1) * s.width.toNat := by ring
      _ ≤ s.height.toNat * s.width.toNat := Nat.mul_le_mul_right _ hr
  calc s.pixIndex r c h < (r * s.width.toNat + c) * s.channels.toNat + s.channels.toNat := by
        simp only [State.pixIndex]; omega
    _ = (r * s.width.toNat + c + 1) * s.channels.toNat := by ring
    _ ≤ s.height.toNat * s.width.toNat * s.channels.toNat := Nat.mul_le_mul_right _ h1

-- Reading samples and payload bytes.

/-- A sample depends on FB, on the geometry that places it and on SAMPLE_BITS only. -/
theorem State.sampleAt_congr {s t : State} (hf : t.fb = s.fb) (hw : t.width = s.width) (hc : t.channels = s.channels)
    (hp : t.params = s.params) (row col ch : Nat) : t.sampleAt row col ch = s.sampleAt row col ch := by
  simp [State.sampleAt, State.pixIndex, hf, hw, hc, hp]

/-- Eligibility depends on the geometry registers only (60_exceptions R152). -/
theorem State.eligible_congr {s t : State} (hw : t.width = s.width) (hh : t.height = s.height)
    (hc : t.channels = s.channels) : t.eligible = s.eligible := by
  simp only [State.eligible, hw, hh, hc]

/-- A payload byte depends on PBUF only. -/
theorem State.payloadAt_congr {s t : State} (h : t.pbuf = s.pbuf) (i : Nat) : t.payloadAt i = s.payloadAt i := by
  simp [State.payloadAt, h]

@[simp] theorem State.sampleAt_note (s : State) (a : CoreAccess) (r c h : Nat) :
    (s.note a).sampleAt r c h = s.sampleAt r c h := rfl
@[simp] theorem State.sampleAt_withPbuf (s : State) (m : Memory Byte) (r c h : Nat) :
    (s.withPbuf m).sampleAt r c h = s.sampleAt r c h := rfl
@[simp] theorem State.payloadAt_withFb (s : State) (m : Memory Nat) (i : Nat) :
    (s.withFb m).payloadAt i = s.payloadAt i := rfl
@[simp] theorem State.sampleAt_begin (s : State) (l : List HostAccess) (r c h : Nat) :
    (s.begin l).sampleAt r c h = s.sampleAt r c h := rfl
@[simp] theorem State.sampleAt_answered (s : State) (a : PortAnswer) (r c h : Nat) :
    (s.answered a).sampleAt r c h = s.sampleAt r c h := rfl
@[simp] theorem State.sampleAt_raise (s : State) (e : ErrCode) (r c h : Nat) :
    (s.raise e).sampleAt r c h = s.sampleAt r c h := rfl
@[simp] theorem State.sampleAt_toIdle (s : State) (r c h : Nat) : s.toIdle.sampleAt r c h = s.sampleAt r c h := rfl
@[simp] theorem State.sampleAt_setPayload (s : State) (i : Nat) (b : Byte) (r c h : Nat) :
    (s.setPayload i b).sampleAt r c h = s.sampleAt r c h := rfl
@[simp] theorem State.payloadAt_note (s : State) (a : CoreAccess) (i : Nat) :
    (s.note a).payloadAt i = s.payloadAt i := rfl
@[simp] theorem State.payloadAt_begin (s : State) (l : List HostAccess) (i : Nat) :
    (s.begin l).payloadAt i = s.payloadAt i := rfl
@[simp] theorem State.payloadAt_answered (s : State) (a : PortAnswer) (i : Nat) :
    (s.answered a).payloadAt i = s.payloadAt i := rfl
@[simp] theorem State.payloadAt_raise (s : State) (e : ErrCode) (i : Nat) :
    (s.raise e).payloadAt i = s.payloadAt i := rfl
@[simp] theorem State.payloadAt_toIdle (s : State) (i : Nat) : s.toIdle.payloadAt i = s.payloadAt i := rfl
@[simp] theorem State.payloadAt_setSample (s : State) (r c h v i : Nat) :
    (s.setSample r c h v).payloadAt i = s.payloadAt i := rfl
@[simp] theorem State.pixExists_note (s : State) (a : CoreAccess) (r c h : Nat) :
    (s.note a).pixExists r c h = s.pixExists r c h := rfl
@[simp] theorem State.pixExists_setSample (s : State) (r c h v r' c' h' : Nat) :
    (s.setSample r c h v).pixExists r' c' h' = s.pixExists r' c' h' := rfl
@[simp] theorem State.pixExists_setPayload (s : State) (i : Nat) (b : Byte) (r c h : Nat) :
    (s.setPayload i b).pixExists r c h = s.pixExists r c h := rfl
@[simp] theorem State.payExists_note (s : State) (a : CoreAccess) (i : Nat) :
    (s.note a).payExists i = s.payExists i := rfl
@[simp] theorem State.payExists_setSample (s : State) (r c h v i : Nat) :
    (s.setSample r c h v).payExists i = s.payExists i := rfl
@[simp] theorem State.payExists_setPayload (s : State) (j : Nat) (b : Byte) (i : Nat) :
    (s.setPayload j b).payExists i = s.payExists i := rfl

/-- Reading a sample after writing one, at locations of the frame. -/
theorem State.sampleAt_setSample {s : State} {r c h r' c' h' : Nat} (v : Nat) (hc : c < s.width.toNat)
    (hh : h < s.channels.toNat) (hc' : c' < s.width.toNat) (hh' : h' < s.channels.toNat) :
    (s.setSample r c h v).sampleAt r' c' h' = if r' = r ∧ c' = c ∧ h' = h then v else s.sampleAt r' c' h' := by
  have hi : (s.setSample r c h v).pixIndex r' c' h' = s.pixIndex r' c' h' := rfl
  simp only [State.sampleAt, hi, State.setSample_fb, Memory.lookup_insert, Memory.insert_epoch,
    State.setSample_params]
  by_cases e : r' = r ∧ c' = c ∧ h' = h
  · simp [e]
  · simp [mt (pixIndex_inj hc' hh' hc hh).1 e, e]

/-- Reading a payload byte after writing one. -/
theorem State.payloadAt_setPayload (s : State) (i j : Nat) (b : Byte) :
    (s.setPayload i b).payloadAt j = if j = i then b else s.payloadAt j := by
  simp only [State.payloadAt, State.setPayload_pbuf, Memory.lookup_insert, Memory.insert_epoch]
  split_ifs <;> rfl

-- The part of the invariant that speaks of one memory.

/-- FB is canonical, lists only existing samples, and each listed sample has SAMPLE_BITS bits. -/
def State.fbOk (s : State) : Prop :=
  s.fb.wf = true ∧ ∀ c ∈ s.fb.cells,
    c.1 < s.height.toNat * s.width.toNat * s.channels.toNat ∧ c.2 < 2 ^ s.params.sampleBits

/-- PBUF is canonical and lists only existing bytes. -/
def State.pbufOk (s : State) : Prop := s.pbuf.wf = true ∧ ∀ c ∈ s.pbuf.cells, c.1 < s.params.pbufBytes

theorem State.fbOk_setSample {s : State} {r c h v : Nat} (hs : s.fbOk) (hx : s.pixExists r c h = true)
    (hv : v < 2 ^ s.params.sampleBits) : (s.setSample r c h v).fbOk := by
  refine ⟨Memory.wf_insert _ _ _ hs.1, fun d hd => ?_⟩
  rcases mem_insertCell hd with rfl | hd
  · exact ⟨pixIndex_lt hx, hv⟩
  · exact hs.2 d hd

theorem State.pbufOk_setPayload {s : State} {i : Nat} (b : Byte) (hs : s.pbufOk) (hx : s.payExists i = true) :
    (s.setPayload i b).pbufOk := by
  refine ⟨Memory.wf_insert _ _ _ hs.1, fun d hd => ?_⟩
  rcases mem_insertCell hd with rfl | hd
  · exact (s.payExists_iff i).1 hx
  · exact hs.2 d hd

/-- A sample of a sound FB has SAMPLE_BITS bits, written or not. -/
theorem State.sampleAt_lt {s : State} (hs : s.fbOk) (r c h : Nat) : s.sampleAt r c h < 2 ^ s.params.sampleBits := by
  simp only [State.sampleAt]
  split
  · rename_i v e
    exact (hs.2 _ (mem_of_lookupCell e)).2
  · exact Nat.mod_lt _ (by positivity)

-- The core's accesses.

theorem corePixRead_eq {s : State} {r c h : Nat} (hx : s.pixExists r c h = true) :
    corePixRead r c h s = .ok (s.sampleAt r c h, s.note (.pixRead r c h)) := by
  simp [corePixRead, hx]

theorem corePixWrite_eq {s : State} {r c h : Nat} (v : Nat) (hx : s.pixExists r c h = true) :
    corePixWrite r c h v s = .ok ((s.setSample r c h v).note (.pixWrite r c h)) := by
  simp [corePixWrite, hx]

theorem corePayRead_eq {s : State} {k : Nat} (hk : 4 ≤ k) (hx : s.payExists (k - 4) = true) :
    corePayRead k s = .ok (s.payloadAt (k - 4), s.note (.payRead (k - 4))) := by
  simp [corePayRead, hk, hx]

theorem corePayWrite_eq {s : State} {k : Nat} (b : Byte) (hk : 4 ≤ k) (hx : s.payExists (k - 4) = true) :
    corePayWrite k b s = .ok ((s.setPayload (k - 4) b).note (.payWrite (k - 4))) := by
  simp [corePayWrite, hk, hx]

-- The state gate.

/-- All that `require` can do (44_control R145): nothing in ERROR, the body where it is permitted, IllegalCommand
elsewhere. -/
theorem require_cases (p : Bool) (s : State) (body : StepOutcome) :
    (s.state = .error ∧ require p s body = .next s) ∨
    (s.state ≠ .error ∧ p = true ∧ require p s body = body) ∨
    (s.state ≠ .error ∧ p = false ∧ require p s body = .next (s.raise .illegalCommand)) := by
  by_cases h : s.state = .error
  · exact .inl ⟨h, by simp [require, h]⟩
  · cases p
    · exact .inr (.inr ⟨h, rfl, by simp [require, h]⟩)
    · exact .inr (.inl ⟨h, rfl, by simp [require, h]⟩)

theorem require_error {p : Bool} {s : State} {body : StepOutcome} (h : s.state = .error) :
    require p s body = .next s := by simp [require, h]

theorem require_ok {p : Bool} {s : State} {body : StepOutcome} (h : s.state ≠ .error) (hp : p = true) :
    require p s body = body := by simp [require, h, hp]

theorem require_ill {p : Bool} {s : State} {body : StepOutcome} (h : s.state ≠ .error) (hp : p = false) :
    require p s body = .next (s.raise .illegalCommand) := by simp [require, h, hp]

end Sys2Proof.Machine
end

