-- ==== Sys2Proof/Laws/Operands.lean ====
section
/-! SUPPORT. The addressing function, the lanes of a slot, EmbedByte and ExtractByte: what each does, said once. -/

namespace Sys2Proof.Machine

-- slot_for.

/-- Within a frame the location of slot `j` does not name the frame (40_slot_addresser R80, R101). -/
theorem slotFor_mod_row (k H : Nat) : (slotFor (k % 16) H).row = (slotFor k H).row := by
  simp [slotFor, Config.slotsPerFrame]

theorem slotFor_row (k H : Nat) : (slotFor k H).row = (H - 2) + k % 16 / 8 := rfl
theorem slotFor_group (k H : Nat) : (slotFor k H).group = k % 8 := by
  simp only [slotFor, Config.slotsPerFrame, Config.groupsPerRow]
  omega
theorem slotFor_channel (k H : Nat) : (slotFor k H).channel = 0 := rfl
theorem slotFor_frame (k H : Nat) : (slotFor k H).frame = k / 16 := rfl
theorem slotFor_slot (k H : Nat) : (slotFor k H).slot = k % 16 := rfl
theorem SlotLoc.col_eq (l : SlotLoc) (i : Nat) : l.col i = 8 * l.group + i := rfl
theorem slotFor_col (k H i : Nat) : (slotFor k H).col i = 8 * (k % 8) + i := by
  rw [SlotLoc.col_eq, slotFor_group]

/-- Every lane of every slot is a location of an eligible frame (40_slot_addresser R81, 20_memory R47). -/
theorem pixExists_slot {s : State} (he : s.eligible = true) (k : Nat) {i : Nat} (hi : i < 8) :
    s.pixExists (slotFor k s.height.toNat).row ((slotFor k s.height.toNat).col i)
      (slotFor k s.height.toNat).channel = true := by
  obtain ⟨h1, h2, h3⟩ := s.eligible_iff.1 he
  rw [State.pixExists_iff, slotFor_row, slotFor_col, slotFor_channel]
  omega

-- Lanes and samples.

theorem mem_lanes {i : Nat} : i ∈ lanes ↔ i < 8 := by
  simp only [lanes, List.mem_cons, List.not_mem_nil, or_false]
  omega

theorem laneBit_lt (b : Byte) (i : Nat) : laneBit b i < 2 := Nat.mod_lt _ (by decide)

/-- Lane `i` carries bit `7 - i` (30_encoding R69). -/
theorem laneBit_eq (b : Byte) (i : Nat) : laneBit b i = (b.getLsbD (7 - i)).toNat := by
  simp only [laneBit, BitVec.toNat_ushiftRight, BitVec.getLsbD, Nat.testBit, Nat.one_and_eq_mod_two]
  rcases Nat.mod_two_eq_zero_or_one (b.toNat >>> (7 - i)) with h | h <;> simp [h]

@[simp] theorem withLsb_mod_two (v bit : Nat) : withLsb v bit % 2 = bit % 2 := by
  simp only [withLsb]; omega

/-- Every bit but bit 0 is kept (42_encoder R101). -/
@[simp] theorem withLsb_div_two (v bit : Nat) : withLsb v bit / 2 = v / 2 := by
  simp only [withLsb]; omega

@[simp] theorem withLsb_withLsb (v a b : Nat) : withLsb (withLsb v a) b = withLsb v b := by
  simp only [withLsb]; omega

/-- The new sample has as many bits as the old (41_capacity_planner R94). -/
theorem withLsb_lt {v bit n : Nat} (hn : 1 ≤ n) (hv : v < 2 ^ n) : withLsb v bit < 2 ^ n := by
  obtain ⟨m, rfl⟩ : ∃ m, n = m + 1 := ⟨n - 1, by omega⟩
  rw [pow_succ] at hv ⊢
  simp only [withLsb]
  omega

/-- `withLsb` is `(v & ~1) | bit` on a `n`-bit sample, `~1` being the mask with every bit set but bit 0 (00_scope R8).
-/
theorem withLsb_eq_mask {v bit n : Nat} (hn : 1 ≤ n) (hv : v < 2 ^ n) (hb : bit < 2) :
    withLsb v bit = (v &&& (2 ^ n - 2)) ||| bit := by
  obtain ⟨m, rfl⟩ : ∃ m, n = m + 1 := ⟨n - 1, by omega⟩
  have hmask : 2 ^ (m + 1) - 2 = 2 * (2 ^ m - 1) := by rw [pow_succ]; omega
  apply Nat.eq_of_testBit_eq
  intro i
  rw [Nat.testBit_or, Nat.testBit_and, hmask]
  cases i with
  | zero =>
    have h0 : (2 * (2 ^ m - 1)).testBit 0 = false := by simp [Nat.testBit_zero]
    rw [h0]
    simp [Nat.testBit_zero]
  | succ i =>
    rw [Nat.testBit_succ, Nat.testBit_succ, Nat.testBit_succ, Nat.testBit_succ, withLsb_div_two,
      Nat.mul_div_cancel_left _ (by decide : 0 < 2), Nat.div_eq_of_lt hb, Nat.zero_testBit, Bool.or_false,
      Nat.testBit_two_pow_sub_one]
    by_cases hi : i < m
    · simp [hi]
    · have : (v / 2).testBit i = false := by
        apply Nat.testBit_lt_two_pow
        calc v / 2 < 2 ^ m := by rw [pow_succ] at hv; omega
          _ ≤ 2 ^ i := Nat.pow_le_pow_right (by decide) (by omega)
      simp [hi, this]

-- EmbedByte.

/-- The lane loop of EmbedByte: it completes, appends its accesses, changes FB only, and puts the lane's bit into bit 0
of exactly the lanes' samples. -/
theorem embedLanes_spec (l : SlotLoc) (b : Byte) (is : List Nat) (s : State)
    (hx : ∀ i ∈ is, s.pixExists l.row (l.col i) l.channel = true) (hn : 1 ≤ s.params.sampleBits) :
    ∃ fb' : Memory Nat,
      embedLanes l b is s = .ok { s with
        fb := fb'
        accesses := s.accesses ++
          is.flatMap fun i => [.pixRead l.row (l.col i) l.channel, .pixWrite l.row (l.col i) l.channel] } ∧
      (∀ r c h, s.pixExists r c h = true →
        (s.withFb fb').sampleAt r c h =
          if r = l.row ∧ h = l.channel ∧ ∃ i ∈ is, c = l.col i then
            withLsb (s.sampleAt r c h) (laneBit b (c - l.col 0))
          else s.sampleAt r c h) ∧
      (s.fbOk → (s.withFb fb').fbOk) ∧ fb'.epoch = s.fb.epoch := by
  induction is generalizing s with
  | nil => exact ⟨s.fb, by simp [embedLanes], by simp [State.withFb], id, rfl⟩
  | cons i rest ih =>
    have hxi := hx i List.mem_cons_self
    have hxi' : (s.note (.pixRead l.row (l.col i) l.channel)).pixExists l.row (l.col i) l.channel = true := hxi
    simp only [embedLanes, corePixRead_eq hxi, corePixWrite_eq _ hxi']
    set v := withLsb (s.sampleAt l.row (l.col i) l.channel) (laneBit b i) with hv
    set t := ((s.note (.pixRead l.row (l.col i) l.channel)).setSample l.row (l.col i) l.channel v).note
      (.pixWrite l.row (l.col i) l.channel) with ht
    obtain ⟨fb', h1, h2, h3, h4⟩ := ih t (fun j hj => hx j (List.mem_cons_of_mem _ hj)) hn
    refine ⟨fb', ?_, ?_, ?_, ?_⟩
    · rw [h1]
      simp [ht, State.note, State.setSample, State.withFb]
    · intro r c h hrc
      obtain ⟨_, hc, hh⟩ := (s.pixExists_iff r c h).1 hrc
      obtain ⟨_, hci, hhi⟩ := (s.pixExists_iff _ _ _).1 hxi
      have hsame : (s.withFb fb').sampleAt r c h = (t.withFb fb').sampleAt r c h := rfl
      have htv : t.sampleAt r c h =
          if r = l.row ∧ c = l.col i ∧ h = l.channel then v else s.sampleAt r c h := by
        rw [ht, State.sampleAt_note]
        exact State.sampleAt_setSample (s := s.note _) v hci hhi hc hh
      rw [hsame, h2 r c h hrc, htv]
      have hcol : l.col i - l.col 0 = i := by simp only [SlotLoc.col_eq]; omega
      by_cases e1 : r = l.row ∧ h = l.channel
      · obtain ⟨rfl, rfl⟩ := e1
        by_cases e2 : c = l.col i
        · subst e2
          simp [hv, hcol]
        · simp [e2]
      · have e1' : ∀ p : Prop, ¬ (r = l.row ∧ h = l.channel ∧ p) := fun p hp => e1 ⟨hp.1, hp.2.1⟩
        have e1'' : ∀ p : Prop, ¬ (r = l.row ∧ p ∧ h = l.channel) := fun p hp => e1 ⟨hp.1, hp.2.2⟩
        simp only [if_neg (e1' _), if_neg (e1'' _)]
    · intro hs
      have hok : (s.note (.pixRead l.row (l.col i) l.channel)).fbOk := hs
      have : t.fbOk := State.fbOk_setSample hok hxi (withLsb_lt hn (State.sampleAt_lt hs _ _ _))
      exact h3 this
    · simpa [ht, State.note, State.setSample, State.withFb] using h4

/-- EmbedByte (42_encoder R101): on an eligible frame it completes, makes 16 accesses, and changes bit 0 of the
samples of its slot to the byte's bits, MSB first. -/
theorem embedByte_spec (slot : Nat) (b : Byte) (s : State) (he : s.eligible = true) (hn : 1 ≤ s.params.sampleBits) :
    ∃ fb' : Memory Nat,
      embedByte slot b s = .ok { s with
        fb := fb', accesses := s.accesses ++ embedTrace (slotFor slot s.height.toNat) } ∧
      (∀ r c h, s.pixExists r c h = true →
        (s.withFb fb').sampleAt r c h =
          if r = (s.height.toNat - 2) + slot % 16 / 8 ∧ h = 0 ∧ c / 8 = slot % 8 then
            withLsb (s.sampleAt r c h) (laneBit b (c % 8))
          else s.sampleAt r c h) ∧
      (s.fbOk → (s.withFb fb').fbOk) ∧ fb'.epoch = s.fb.epoch := by
  have hH : ¬ s.height.toNat < Config.minHeight := by
    have := (s.eligible_iff.1 he).2.1
    simp only [Config.minHeight]; omega
  obtain ⟨fb', h1, h2, h3, h4⟩ := embedLanes_spec (slotFor slot s.height.toNat) b lanes s
    (fun i hi => pixExists_slot he slot (mem_lanes.1 hi)) hn
  refine ⟨fb', ?_, ?_, h3, h4⟩
  · rw [embedByte, if_neg hH, h1]
    rfl
  · intro r c h hx
    rw [h2 r c h hx, slotFor_row, slotFor_channel]
    have hiff : (∃ i ∈ lanes, c = (slotFor slot s.height.toNat).col i) ↔ c / 8 = slot % 8 := by
      constructor
      · rintro ⟨i, hi, rfl⟩
        rw [slotFor_col]
        have := mem_lanes.1 hi
        omega
      · intro hc
        exact ⟨c % 8, mem_lanes.2 (Nat.mod_lt _ (by decide)), by rw [slotFor_col]; omega⟩
    simp only [hiff]
    by_cases hc : c / 8 = slot % 8
    · have : c - (slotFor slot s.height.toNat).col 0 = c % 8 := by rw [slotFor_col]; omega
      rw [this]
    · simp [hc]

-- ExtractByte.

/-- The bytes of a slot depend on FB, the geometry and SAMPLE_BITS only. -/
theorem State.slotByte_congr {s t : State} (hf : t.fb = s.fb) (hw : t.width = s.width) (hh : t.height = s.height)
    (hc : t.channels = s.channels) (hp : t.params = s.params) (slot : Nat) : t.slotByte slot = s.slotByte slot := by
  simp only [State.slotByte, State.sampleAt_congr hf hw hc hp, hh]

/-- The lane loop of ExtractByte: it completes, appends its reads and folds the LSBs into the byte. -/
theorem extractLanes_spec (l : SlotLoc) (is : List Nat) (b : Byte) (s : State)
    (hx : ∀ i ∈ is, s.pixExists l.row (l.col i) l.channel = true) :
    extractLanes l is b s = .ok
      (is.foldl (fun b i => (b <<< 1) ||| BitVec.ofNat 8 (s.sampleAt l.row (l.col i) l.channel % 2)) b,
       { s with accesses := s.accesses ++ is.map fun i => .pixRead l.row (l.col i) l.channel }) := by
  induction is generalizing b s with
  | nil => simp [extractLanes]
  | cons i rest ih =>
    simp only [extractLanes, corePixRead_eq (hx i List.mem_cons_self)]
    rw [ih _ (s.note _) (fun j hj => hx j (List.mem_cons_of_mem _ hj))]
    simp [State.note, State.sampleAt, State.pixIndex]

/-- ExtractByte (43_decoder R120): on an eligible frame it completes, makes eight reads, writes nothing and yields the
byte that the slot spells. -/
theorem extractByte_spec (slot : Nat) (s : State) (he : s.eligible = true) :
    extractByte slot s = .ok
      (s.slotByte slot, { s with accesses := s.accesses ++ extractTrace (slotFor slot s.height.toNat) }) := by
  have hH : ¬ s.height.toNat < Config.minHeight := by
    have := (s.eligible_iff.1 he).2.1
    simp only [Config.minHeight]; omega
  rw [extractByte, if_neg hH,
    extractLanes_spec _ _ _ _ (fun i hi => pixExists_slot he slot (mem_lanes.1 hi))]
  rfl

/-- Folding eight bits in, MSB first, gives the byte whose bit `7 - i` is the `i`-th of them. -/
theorem foldBits_getLsbD (f : Nat → Nat) (i : Nat) (hi : i < 8) :
    (lanes.foldl (fun (b : Byte) j => (b <<< 1) ||| BitVec.ofNat 8 (f j % 2)) 0).getLsbD (7 - i) =
      decide (f i % 2 = 1) := by
  have key : ∀ a0 a1 a2 a3 a4 a5 a6 a7 : Fin 2, ∀ i : Fin 8,
      ((((((((((0 : Byte) <<< 1 ||| BitVec.ofNat 8 a0) <<< 1 ||| BitVec.ofNat 8 a1) <<< 1 ||| BitVec.ofNat 8 a2) <<< 1
        ||| BitVec.ofNat 8 a3) <<< 1 ||| BitVec.ofNat 8 a4) <<< 1 ||| BitVec.ofNat 8 a5) <<< 1
        ||| BitVec.ofNat 8 a6) <<< 1 ||| BitVec.ofNat 8 a7).getLsbD (7 - i)) =
      decide (([a0, a1, a2, a3, a4, a5, a6, a7].getD i 0 : Fin 2) = 1) := by decide
  have h2 : ∀ n, n % 2 < 2 := fun n => Nat.mod_lt _ (by decide)
  have := key ⟨f 0 % 2, h2 _⟩ ⟨f 1 % 2, h2 _⟩ ⟨f 2 % 2, h2 _⟩ ⟨f 3 % 2, h2 _⟩ ⟨f 4 % 2, h2 _⟩ ⟨f 5 % 2, h2 _⟩
    ⟨f 6 % 2, h2 _⟩ ⟨f 7 % 2, h2 _⟩ ⟨i, hi⟩
  simp only [lanes, List.foldl_cons, List.foldl_nil]
  rw [this]
  interval_cases i <;> simp [Fin.ext_iff]

/-- Bit `7 - i` of a slot's byte is bit 0 of lane `i` (43_decoder R120, 30_encoding R69). -/
theorem State.slotByte_getLsbD (s : State) (slot : Nat) {i : Nat} (hi : i < 8) :
    (s.slotByte slot).getLsbD (7 - i) =
      decide (s.sampleAt ((s.height.toNat - 2) + slot % 16 / 8) (8 * (slot % 8) + i) 0 % 2 = 1) := by
  have := foldBits_getLsbD (fun j => s.sampleAt (slotFor slot s.height.toNat).row
    ((slotFor slot s.height.toNat).col j) (slotFor slot s.height.toNat).channel) i hi
  rw [slotFor_row, slotFor_col, slotFor_channel] at this
  exact this

/-- Two bytes with the same lane bits are equal. -/
theorem byte_ext {a b : Byte} (h : ∀ i < 8, a.getLsbD (7 - i) = b.getLsbD (7 - i)) : a = b := by
  apply BitVec.eq_of_getLsbD_eq
  intro j hj
  have := h (7 - j) (by omega)
  rwa [show 7 - (7 - j) = j by omega] at this

-- The stream byte.

/-- `stream_byte` with its access (42_encoder R100): no access for the header, one payload read after it. -/
theorem coreStreamByte_eq {s : State} {k : Nat} (hx : 4 ≤ k → s.payExists (k - 4) = true) :
    coreStreamByte k s = .ok (s.streamByte k,
      { s with accesses := s.accesses ++ if k ≤ 3 then [] else [.payRead (k - 4)] }) := by
  by_cases hk : k ≤ 3
  · simp [coreStreamByte, State.streamByte, hk]
  · have h4 : 4 ≤ k := by omega
    simp only [coreStreamByte, State.streamByte, hk, if_false, corePayRead_eq h4 (hx h4), State.note]

/-- A stream byte depends on HDR and PBUF only. -/
theorem State.streamByte_congr {s t : State} (hh : t.hdr = s.hdr) (hp : t.pbuf = s.pbuf) (k : Nat) :
    t.streamByte k = s.streamByte k := by
  simp only [State.streamByte, hh, State.payloadAt_congr hp]

end Sys2Proof.Machine
end

