-- ==== Sys2Proof/Laws/Encoder.lean ====
section
/-! SUPPORT. The loop of ENC_FRAME: what it does, said once. -/

namespace Sys2Proof.Machine

theorem State.total_eq (s : State) : s.total = 4 + s.hdr.toNat := rfl

theorem encTrace_succ (H k count : Nat) :
    encTrace H k (count + 1) =
      (if k ≤ 3 then [] else [.payRead (k - 4)]) ++ embedTrace (slotFor (k % 16) H) ++ encTrace H (k + 1) count := by
  simp only [encTrace, List.range_succ_eq_map, List.flatMap_cons, List.flatMap_map, Nat.add_zero, List.append_assoc]
  congr 2
  congr 1
  funext j
  simp only [Nat.succ_eq_add_one, show k + (j + 1) = k + 1 + j by omega]

/-- The number of bytes of a frame, where BIDX is at most the total: as many as are left, at most 16 (42_encoder R103).
-/
theorem State.frameBytes_eq {s : State} (h : s.bidx.toNat ≤ s.total) :
    s.frameBytes = ((min 16 (s.total - s.bidx.toNat) : Nat) : Int) := by
  simp only [State.frameBytes]
  omega

/-- The byte loop of ENC_FRAME on an eligible frame (42_encoder R103): it completes, makes the accesses of `encTrace`,
changes FB only, writes stream byte `k + j` MSB first into the LSBs of slot `(k + j) mod 16` and leaves every other
sample. -/
theorem embedBytes_spec (k count : Nat) (s : State) (he : s.eligible = true) (hn : 1 ≤ s.params.sampleBits)
    (hc : count ≤ 16) (hp : ∀ j < count, 4 ≤ k + j → k + j - 4 < s.params.pbufBytes) :
    ∃ fb' : Memory Nat,
      embedBytes k count s = .ok { s with
        fb := fb', accesses := s.accesses ++ encTrace s.height.toNat k count } ∧
      (∀ r c h, s.pixExists r c h = true →
        (∀ j < count, r = (s.height.toNat - 2) + (k + j) % 16 / 8 → h = 0 → c / 8 = (k + j) % 8 →
          (s.withFb fb').sampleAt r c h =
            withLsb (s.sampleAt r c h) (laneBit (s.streamByte (k + j)) (c % 8))) ∧
        ((∀ j < count, ¬ (r = (s.height.toNat - 2) + (k + j) % 16 / 8 ∧ h = 0 ∧ c / 8 = (k + j) % 8)) →
          (s.withFb fb').sampleAt r c h = s.sampleAt r c h)) ∧
      (s.fbOk → (s.withFb fb').fbOk) ∧ fb'.epoch = s.fb.epoch := by
  induction count generalizing k s with
  | zero => exact ⟨s.fb, by simp [embedBytes, encTrace], by simp [State.withFb], id, rfl⟩
  | succ count ih =>
    have h0 : coreStreamByte k s = _ :=
      coreStreamByte_eq (fun h4 => (s.payExists_iff _).2 (by simpa using hp 0 (by omega) h4))
    set s1 : State := { s with accesses := s.accesses ++ if k ≤ 3 then [] else [.payRead (k - 4)] } with hs1
    obtain ⟨fb2, e1, e2, e3, e4⟩ := embedByte_spec (k % 16) (s.streamByte k) s1 he hn
    set s2 : State :=
      { s1 with fb := fb2, accesses := s1.accesses ++ embedTrace (slotFor (k % 16) s1.height.toNat) } with hs2
    obtain ⟨fb', f1, f2, f3, f4⟩ := ih (k + 1) s2 he hn (by omega) (fun j hj h4 => by
      have := hp (j + 1) (by omega) (by omega)
      rwa [show k + (j + 1) = k + 1 + j by omega] at this)
    refine ⟨fb', ?_, ?_, fun hs => f3 (e3 hs), ?_⟩
    · simp only [embedBytes, h0, Config.slotsPerFrame, e1, f1]
      simp only [hs2, hs1, encTrace_succ, List.append_assoc]
    · intro r c h hx
      have hsame : (s.withFb fb').sampleAt r c h = (s2.withFb fb').sampleAt r c h := rfl
      have hfirst : s2.sampleAt r c h =
          if r = (s.height.toNat - 2) + k % 16 / 8 ∧ h = 0 ∧ c / 8 = k % 8 then
            withLsb (s.sampleAt r c h) (laneBit (s.streamByte k) (c % 8))
          else s.sampleAt r c h := by
        have := e2 r c h hx
        simp only [Nat.mod_mod, show k % 16 % 8 = k % 8 by omega] at this
        exact this
      have hstream : ∀ j, s2.streamByte j = s.streamByte j := fun j => rfl
      have hheight : s2.height = s.height := rfl
      obtain ⟨g1, g2⟩ := f2 r c h hx
      rw [hsame]
      simp only [hstream, hheight] at g1 g2
      constructor
      · intro j hj hr hh hcol
        obtain _ | j := j
        · rw [g2 (fun j' hj' hit => by omega), hfirst, if_pos ⟨hr, hh, hcol⟩]
          rfl
        · have hr' : r = s.height.toNat - 2 + (k + 1 + j) % 16 / 8 := by omega
          rw [g1 j (by omega) hr' hh (by omega), hfirst, if_neg (fun hit => by omega),
            show k + (j + 1) = k + 1 + j by omega]
      · intro hno
        rw [g2 (fun j hj hit => hno (j + 1) (by omega) (by
          rwa [show k + (j + 1) = k + 1 + j by omega])), hfirst, if_neg (fun hit => hno 0 (by omega) (by simpa using hit))]
    · rw [f4]
      exact e4

@[simp] theorem endEncFrame_error (s : State) (f : Fault) : endEncFrame s (.error f) = .fault f := rfl

@[simp] theorem endEncFrame_ok (s t : State) :
    endEncFrame s (.ok t) =
      .next { t with bidx := BitVec.ofInt 33 (s.bidx.toNat + s.frameBytes), fidx := s.fidx + 1 } := rfl

end Sys2Proof.Machine
end

