-- ==== Sys2Proof/Laws/Decoder.lean ====
section
/-! SUPPORT. The slot loop of DEC_FRAME: what it does in DEC_PAYLOAD and from DEC_HEADER, said once. -/

namespace Sys2Proof.Machine

/-- What a pass through DEC_PAYLOAD accesses: each slot's reads, then the payload write (43_decoder R122). -/
def payloadTrace (H slot k count : Nat) : List CoreAccess :=
  (List.range count).flatMap fun j => extractTrace (slotFor (slot + j) H) ++ [.payWrite (k + j - 4)]

theorem payloadTrace_succ (H slot k count : Nat) :
    payloadTrace H slot k (count + 1) =
      extractTrace (slotFor slot H) ++ [.payWrite (k - 4)] ++ payloadTrace H (slot + 1) (k + 1) count := by
  simp only [payloadTrace, List.range_succ_eq_map, List.flatMap_cons, List.flatMap_map, Nat.add_zero,
    List.append_assoc]
  congr 2
  congr 1
  funext j
  simp only [Nat.succ_eq_add_one, show k + (j + 1) = k + 1 + j by omega, show slot + (j + 1) = slot + 1 + j by omega]

theorem bidx_succ {b : BitVec 33} (h : b.toNat < 2 ^ 33 - 1) : (b + 1).toNat = b.toNat + 1 := by
  rw [BitVec.toNat_add, show (1 : BitVec 33).toNat = 1 from rfl]
  exact Nat.mod_eq_of_lt (by omega)

theorem State.total_lt (s : State) : s.total < 2 ^ 32 + 4 := by
  have := s.hdr.isLt
  rw [State.total_eq]; omega

/-- One slot in DEC_PAYLOAD below the total (43_decoder R122, R124). -/
theorem decSlot_payload (slot : Nat) (s : State) (he : s.eligible = true) (hst : s.state = .decPayload)
    (hlo : 4 ≤ s.bidx.toNat) (hhi : s.bidx.toNat < s.total) (hb : s.hdr.toNat ≤ s.params.pbufBytes) :
    decSlot slot s = .ok (if s.bidx.toNat + 1 = s.total then .leave else .goOn,
      { s with
        pbuf := s.pbuf.insert (s.bidx.toNat - 4) (s.slotByte slot)
        bidx := s.bidx + 1
        state := if s.bidx.toNat + 1 = s.total then .decDone else .decPayload
        accesses := s.accesses ++
          (extractTrace (slotFor slot s.height.toNat) ++ [.payWrite (s.bidx.toNat - 4)]) }) := by
  have ht := s.total_lt
  have hsucc : (s.bidx + 1).toNat = s.bidx.toNat + 1 := bidx_succ (by omega)
  have hex : s.payExists (s.bidx.toNat - 4) = true := by
    rw [State.payExists_iff]; rw [State.total_eq] at hhi; omega
  have hw : corePayWrite s.bidx.toNat (s.slotByte slot)
      { s with accesses := s.accesses ++ extractTrace (slotFor slot s.height.toNat) } = _ :=
    corePayWrite_eq _ hlo hex
  simp only [decSlot, extractByte_spec slot s he, hst, reduceCtorEq, if_false, takePayloadByte, hw]
  simp only [State.note, State.setPayload, State.withPbuf]
  have htot : ∀ (p : Memory Byte) (a : List CoreAccess) (b : BitVec 33),
      State.total { s with pbuf := p, bidx := b, accesses := a } = s.total := fun _ _ _ => rfl
  simp only [htot, hsucc]
  split_ifs with h <;> simp [hst]

/-- The slot loop in DEC_PAYLOAD (43_decoder R122, R124): from stream byte `k` on, the bytes of the slots `slot`,
`slot + 1`, … go to PBUF until the slots or the payload end, whichever is first. -/
theorem decSlots_payload (m slot : Nat) (s : State) (he : s.eligible = true) (hst : s.state = .decPayload)
    (hlo : 4 ≤ s.bidx.toNat) (hhi : s.bidx.toNat < s.total) (hb : s.hdr.toNat ≤ s.params.pbufBytes) :
    ∃ pb' : Memory Byte,
      decSlots (List.range' slot m) s =
        .ok (if s.bidx.toNat + min m (s.total - s.bidx.toNat) = s.total then .leave else .goOn,
          { s with
            pbuf := pb'
            bidx := BitVec.ofNat 33 (s.bidx.toNat + min m (s.total - s.bidx.toNat))
            state := if s.bidx.toNat + min m (s.total - s.bidx.toNat) = s.total then .decDone else .decPayload
            accesses := s.accesses ++
              payloadTrace s.height.toNat slot s.bidx.toNat (min m (s.total - s.bidx.toNat)) }) ∧
      (∀ i, (s.withPbuf pb').payloadAt i =
        if s.bidx.toNat - 4 ≤ i ∧ i < s.bidx.toNat - 4 + min m (s.total - s.bidx.toNat) then
          s.slotByte (slot + (i - (s.bidx.toNat - 4)))
        else s.payloadAt i) ∧
      (s.pbufOk → (s.withPbuf pb').pbufOk) ∧ pb'.epoch = s.pbuf.epoch := by
  induction m generalizing slot s with
  | zero =>
    refine ⟨s.pbuf, ?_, ?_, id, rfl⟩
    · have : ¬ s.bidx.toNat = s.total := by omega
      simp [decSlots, payloadTrace, this]
      rw [← hst]
    · intro i
      simp only [Nat.zero_min, Nat.add_zero]
      rw [if_neg (by omega)]
      rfl
  | succ m ih =>
    have ht := s.total_lt
    have hsucc : (s.bidx + 1).toNat = s.bidx.toNat + 1 := bidx_succ (by omega)
    have hex : s.payExists (s.bidx.toNat - 4) = true := by
      rw [State.payExists_iff]; rw [State.total_eq] at hhi; omega
    simp only [List.range'_succ, decSlots, decSlot_payload slot s he hst hlo hhi hb]
    by_cases hend : s.bidx.toNat + 1 = s.total
    · have hmin : min (m + 1) (s.total - s.bidx.toNat) = 1 := by omega
      refine ⟨s.pbuf.insert (s.bidx.toNat - 4) (s.slotByte slot), ?_, ?_, ?_, rfl⟩
      · simp only [hend, hmin, if_true]
        rw [show BitVec.ofNat 33 s.total = s.bidx + 1 by
          apply BitVec.eq_of_toNat_eq
          rw [hsucc, BitVec.toNat_ofNat, Nat.mod_eq_of_lt (by omega), hend]]
        simp [payloadTrace]
      · intro i
        rw [hmin]
        have := State.payloadAt_setPayload s (s.bidx.toNat - 4) i (s.slotByte slot)
        rw [State.setPayload] at this
        rw [this]
        by_cases hi : i = s.bidx.toNat - 4
        · simp [hi]
        · rw [if_neg hi, if_neg (by omega)]
      · intro hs
        exact State.pbufOk_setPayload _ hs hex
    · set t : State := { s with
        pbuf := s.pbuf.insert (s.bidx.toNat - 4) (s.slotByte slot)
        bidx := s.bidx + 1
        state := .decPayload
        accesses := s.accesses ++
          (extractTrace (slotFor slot s.height.toNat) ++ [.payWrite (s.bidx.toNat - 4)]) } with htdef
      have htb : t.bidx.toNat = s.bidx.toNat + 1 := hsucc
      have htt : t.total = s.total := rfl
      obtain ⟨pb', g1, g2, g3, g4⟩ := ih (slot + 1) t he rfl (by omega) (by rw [htb, htt]; omega) hb
      refine ⟨pb', ?_, ?_, ?_, ?_⟩
      · simp only [hend, if_false]
        rw [g1]
        have hm : t.bidx.toNat + min m (t.total - t.bidx.toNat) =
            s.bidx.toNat + min (m + 1) (s.total - s.bidx.toNat) := by omega
        have hm' : min (m + 1) (s.total - s.bidx.toNat) = min m (t.total - t.bidx.toNat) + 1 := by omega
        have htr : t.accesses ++ payloadTrace t.height.toNat (slot + 1) t.bidx.toNat (min m (t.total - t.bidx.toNat)) =
            s.accesses ++
              payloadTrace s.height.toNat slot s.bidx.toNat (min (m + 1) (s.total - s.bidx.toNat)) := by
          rw [hm', payloadTrace_succ, htb]
          simp [htdef]
        rw [hm, htr, htt]
      · intro i
        have e := g2 i
        have hsb : ∀ j, t.slotByte j = s.slotByte j := fun j => rfl
        have hpay : t.payloadAt i = if i = s.bidx.toNat - 4 then s.slotByte slot else s.payloadAt i :=
          State.payloadAt_setPayload s (s.bidx.toNat - 4) i (s.slotByte slot)
        have hsame : (s.withPbuf pb').payloadAt i = (t.withPbuf pb').payloadAt i := rfl
        rw [hsame, e, hpay, hsb, htb, htt]
        by_cases h1 : i = s.bidx.toNat - 4
        · rw [if_neg (by omega), if_pos h1, if_pos (by omega), h1, Nat.sub_self, Nat.add_zero]
        · by_cases h2 : s.bidx.toNat + 1 - 4 ≤ i ∧ i < s.bidx.toNat + 1 - 4 + min m (s.total - (s.bidx.toNat + 1))
          · rw [if_pos h2, if_pos (by omega)]
            congr 1
            omega
          · rw [if_neg h2, if_neg h1, if_neg (by omega)]
      · intro hs
        exact g3 (State.pbufOk_setPayload _ hs hex)
      · rw [g4]
        rfl

/-- The big-endian value of four bytes (30_encoding R68). -/
def headerValue (b0 b1 b2 b3 : Byte) : Word := shiftIntoHdr (shiftIntoHdr (shiftIntoHdr (shiftIntoHdr 0 b0) b1) b2) b3

/-- The big-endian value of four bytes as a number: no bit is shifted out (30_encoding R68, 41_capacity_planner R94).
-/
theorem headerValue_toNat (b0 b1 b2 b3 : Byte) :
    (headerValue b0 b1 b2 b3).toNat = b0.toNat * 2 ^ 24 + b1.toNat * 2 ^ 16 + b2.toNat * 2 ^ 8 + b3.toNat := by
  have step : ∀ (w : Word) (b : Byte), w.toNat < 2 ^ 24 → (shiftIntoHdr w b).toNat = w.toNat * 2 ^ 8 + b.toNat := by
    intro w b hw
    have hb := b.isLt
    have h1 : (w <<< 8).toNat = w.toNat * 2 ^ 8 := by
      rw [BitVec.toNat_shiftLeft, Nat.shiftLeft_eq]
      exact Nat.mod_eq_of_lt (by omega)
    have h2 : (b.setWidth 32).toNat = b.toNat := by
      rw [BitVec.toNat_setWidth]
      exact Nat.mod_eq_of_lt (by omega)
    rw [shiftIntoHdr, BitVec.toNat_or, h1, h2, Nat.mul_comm, ← Nat.two_pow_add_eq_or_of_lt hb]
  have hb0 := b0.isLt
  have hb1 := b1.isLt
  have hb2 := b2.isLt
  have hb3 := b3.isLt
  have e0 := step 0 b0 (by simp)
  have e1 := step _ b1 (by rw [e0]; simp; omega)
  have e2 := step _ b2 (by rw [e1, e0]; simp; omega)
  have e3 := step _ b3 (by rw [e2, e1, e0]; simp; omega)
  rw [headerValue, e3, e2, e1, e0]
  simp
  omega

/-- One slot in DEC_HEADER before the fourth byte (43_decoder R122, R123). -/
theorem decSlot_header (slot : Nat) (s : State) (he : s.eligible = true) (hst : s.state = .decHeader)
    (hhi : s.bidx.toNat < 3) :
    decSlot slot s = .ok (.goOn,
      { s with
        hdr := shiftIntoHdr s.hdr (s.slotByte slot)
        bidx := s.bidx + 1
        accesses := s.accesses ++ extractTrace (slotFor slot s.height.toNat) }) := by
  have hsucc : (s.bidx + 1).toNat = s.bidx.toNat + 1 := bidx_succ (by omega)
  have h4 : ¬ s.bidx + 1 = 4 := by
    intro h
    rw [h] at hsucc
    have : (4 : BitVec 33).toNat = 4 := rfl
    omega
  simp only [decSlot, extractByte_spec slot s he, hst, if_true, takeHeaderByte, h4, if_false]

/-- The first four slots of a decode (43_decoder R123): HDR is the declared length, then it is compared with the
buffer and with 0. -/
theorem decSlots_header (rest : List Nat) (s : State) (he : s.eligible = true) (hst : s.state = .decHeader)
    (hb : s.bidx = 0) (hh : s.hdr = 0) :
    decSlots (0 :: 1 :: 2 :: 3 :: rest) s =
      match completeHeader { s with
        hdr := headerValue (s.slotByte 0) (s.slotByte 1) (s.slotByte 2) (s.slotByte 3)
        bidx := 4
        accesses := s.accesses ++ decTrace s.height.toNat 0 4 } with
      | (.goOn, t) => decSlots rest t
      | (.leave, t) => .ok (.leave, t)
      | (.raised, t) => .ok (.raised, t) := by
  have hn : s.bidx.toNat = 0 := by simp [hb]
  set a0 := s.accesses ++ extractTrace (slotFor 0 s.height.toNat)
  set a1 := a0 ++ extractTrace (slotFor 1 s.height.toNat)
  set a2 := a1 ++ extractTrace (slotFor 2 s.height.toNat)
  set s1 : State := { s with hdr := shiftIntoHdr s.hdr (s.slotByte 0), bidx := s.bidx + 1, accesses := a0 } with hs1
  set s2 : State := { s with
    hdr := shiftIntoHdr (shiftIntoHdr s.hdr (s.slotByte 0)) (s.slotByte 1), bidx := s.bidx + 1 + 1, accesses := a1 }
    with hs2
  set s3 : State := { s with
    hdr := shiftIntoHdr (shiftIntoHdr (shiftIntoHdr s.hdr (s.slotByte 0)) (s.slotByte 1)) (s.slotByte 2)
    bidx := s.bidx + 1 + 1 + 1, accesses := a2 } with hs3
  have d0 : decSlot 0 s = .ok (.goOn, s1) := decSlot_header 0 s he hst (by omega)
  have d1 : decSlot 1 s1 = .ok (.goOn, s2) := decSlot_header 1 s1 he hst (by simp [hs1, hb])
  have d2 : decSlot 2 s2 = .ok (.goOn, s3) := decSlot_header 2 s2 he hst (by simp [hs2, hb])
  have d3 : decSlot 3 s3 = .ok (completeHeader { s with
        hdr := headerValue (s.slotByte 0) (s.slotByte 1) (s.slotByte 2) (s.slotByte 3)
        bidx := 4
        accesses := s.accesses ++ decTrace s.height.toNat 0 4 }) := by
    have hx := extractByte_spec 3 s3 he
    have hsb : s3.slotByte 3 = s.slotByte 3 := rfl
    have hst3 : s3.state = .decHeader := hst
    have htr : a2 ++ extractTrace (slotFor 3 s.height.toNat) = s.accesses ++ decTrace s.height.toNat 0 4 := by
      simp [a2, a1, a0, decTrace, List.range_succ_eq_map]
    have hval : shiftIntoHdr (shiftIntoHdr (shiftIntoHdr (shiftIntoHdr s.hdr (s.slotByte 0)) (s.slotByte 1))
        (s.slotByte 2)) (s.slotByte 3) =
        headerValue (s.slotByte 0) (s.slotByte 1) (s.slotByte 2) (s.slotByte 3) := by rw [hh]; rfl
    have hbb : s.bidx + 1 + 1 + 1 + 1 = 4 := by rw [hb]; rfl
    simp only [decSlot, hx, hst3, if_true, takeHeaderByte, hsb]
    simp only [hs3, hval, hbb, if_true, htr, hst]
  simp only [decSlots, d0, d1, d2, d3]
  rcases completeHeader _ with ⟨e, t⟩
  cases e <;> rfl

theorem decTrace_payload (H n : Nat) {k : Nat} (hk : 4 ≤ k) : decTrace H k n = payloadTrace H 0 k n := by
  simp only [decTrace, payloadTrace]
  congr 1
  funext j
  rw [if_neg (by omega), Nat.zero_add]

theorem decTrace_header (H : Nat) {n : Nat} (hn : 4 ≤ n) :
    decTrace H 0 n = decTrace H 0 4 ++ payloadTrace H 4 4 (n - 4) := by
  obtain ⟨m, rfl⟩ : ∃ m, n = 4 + m := ⟨n - 4, by omega⟩
  simp only [decTrace, payloadTrace, List.range_add, List.flatMap_append, List.flatMap_map, Nat.add_sub_cancel_left]
  congr 2
  funext j
  rw [if_neg (by omega), Nat.zero_add, Nat.add_sub_cancel_left]

-- The end of the command.

@[simp] theorem endDecFrame_error (f : Fault) : endDecFrame (.error f) = .fault f := rfl

@[simp] theorem endDecFrame_raised (t : State) : endDecFrame (.ok (.raised, t)) = .next t := rfl

@[simp] theorem endDecFrame_goOn (t : State) :
    endDecFrame (.ok (.goOn, t)) = .next { t with fidx := t.fidx + 1 } := rfl

@[simp] theorem endDecFrame_leave (t : State) :
    endDecFrame (.ok (.leave, t)) = .next { t with fidx := t.fidx + 1 } := rfl

theorem canonicalSlots_eq : canonicalSlots = 0 :: 1 :: 2 :: 3 :: List.range' 4 12 := rfl
theorem canonicalSlots_eq_range : canonicalSlots = List.range' 0 16 := rfl

end Sys2Proof.Machine
end

