-- ==== Sys2Proof/Laws/Frames.lean ====
section
/-! SUPPORT. What the frame commands rest on in every state, reached or not: a slot or a stream byte that exists or is
missing; how many accesses of each kind the records of a frame hold; the bytes a decode reads from the slots; one frame
of a run over frames. -/

namespace Sys2Proof.Machine

-- Slots and bytes that exist, and missing ones (log 9).

theorem State.slotExists_iff (s : State) (k : Nat) :
    s.slotExists k ↔ 2 ≤ s.height.toNat ∧ ∀ i ∈ lanes,
      s.pixExists (slotFor k s.height.toNat).row ((slotFor k s.height.toNat).col i)
        (slotFor k s.height.toNat).channel = true := by
  simp only [State.slotExists, mem_lanes, slotFor_row, slotFor_col, slotFor_channel]

/-- On an eligible frame every slot exists (40_slot_addresser R81). -/
theorem State.slotExists_of_eligible {s : State} (he : s.eligible = true) (k : Nat) : s.slotExists k :=
  (s.slotExists_iff k).2 ⟨(s.eligible_iff.1 he).2.1, fun _ hi => pixExists_slot he k (mem_lanes.1 hi)⟩

/-- A slot of FB depends on the slot index within the frame only. -/
theorem State.slotExists_mod (s : State) (k : Nat) : s.slotExists (k % 16) ↔ s.slotExists k := by
  simp only [State.slotExists, Nat.mod_mod, show k % 16 % 8 = k % 8 by omega]

/-- EmbedByte's lanes complete where each exists, and change FB and the record only; else they stop. -/
theorem embedLanes_cases (l : SlotLoc) (b : Byte) (is : List Nat) (s : State) :
    ((∀ i ∈ is, s.pixExists l.row (l.col i) l.channel = true) →
      ∃ (fb' : Memory Nat) (acc : List CoreAccess),
        embedLanes l b is s = .ok { s with fb := fb', accesses := acc }) ∧
    (¬ (∀ i ∈ is, s.pixExists l.row (l.col i) l.channel = true) → embedLanes l b is s = .error .noSuchPixel) := by
  induction is generalizing s with
  | nil => exact ⟨fun _ => ⟨s.fb, s.accesses, rfl⟩, fun h => absurd (fun _ hi => absurd hi List.not_mem_nil) h⟩
  | cons i rest ih =>
    simp only [List.forall_mem_cons, embedLanes]
    by_cases hx : s.pixExists l.row (l.col i) l.channel = true
    · have hx' : (s.note (.pixRead l.row (l.col i) l.channel)).pixExists l.row (l.col i) l.channel = true := hx
      simp only [corePixRead_eq hx, corePixWrite_eq _ hx', hx, true_and]
      obtain ⟨h1, h2⟩ := ih (((s.note (.pixRead l.row (l.col i) l.channel)).setSample l.row (l.col i) l.channel
        (withLsb (s.sampleAt l.row (l.col i) l.channel) (laneBit b i))).note (.pixWrite l.row (l.col i) l.channel))
      exact ⟨fun h => h1 h, fun h => h2 h⟩
    · refine ⟨fun h => absurd h.1 hx, fun _ => ?_⟩
      simp [corePixRead, hx]

/-- EmbedByte completes where its slot exists, and changes FB and the record only; else it stops (log 9). -/
theorem embedByte_cases (slot : Nat) (b : Byte) (s : State) :
    (s.slotExists slot → ∃ (fb' : Memory Nat) (acc : List CoreAccess),
      embedByte slot b s = .ok { s with fb := fb', accesses := acc }) ∧
    (¬ s.slotExists slot → embedByte slot b s = .error .noSuchPixel) := by
  rw [s.slotExists_iff]
  obtain ⟨h1, h2⟩ := embedLanes_cases (slotFor slot s.height.toNat) b lanes s
  by_cases hH : s.height.toNat < Config.minHeight
  · have : ¬ 2 ≤ s.height.toNat := Nat.not_le.2 hH
    simp only [embedByte, if_pos hH, this, false_and, false_imp_iff, not_false_eq_true, imp_self, and_self]
  · have : 2 ≤ s.height.toNat := Nat.not_lt.1 hH
    simp only [embedByte, if_neg hH, this, true_and]
    exact ⟨h1, h2⟩

/-- ExtractByte stops where its slot is missing (log 9). -/
theorem extractByte_missing {slot : Nat} {s : State} (h : ¬ s.slotExists slot) :
    extractByte slot s = .error .noSuchPixel := by
  have key : ∀ (l : SlotLoc) (is : List Nat) (b : Byte) (s : State),
      ¬ (∀ i ∈ is, s.pixExists l.row (l.col i) l.channel = true) → extractLanes l is b s = .error .noSuchPixel := by
    intro l is
    induction is with
    | nil => exact fun _ _ h => absurd (fun _ hi => absurd hi List.not_mem_nil) h
    | cons i rest ih =>
      intro b s h
      by_cases hx : s.pixExists l.row (l.col i) l.channel = true
      · simp only [extractLanes, corePixRead_eq hx]
        refine ih _ _ fun h' => h fun j hj => ?_
        rcases List.mem_cons.1 hj with rfl | hj
        · exact hx
        · exact h' j hj
      · simp [extractLanes, corePixRead, hx]
  by_cases hH : s.height.toNat < Config.minHeight
  · rw [extractByte, if_pos hH]
  · rw [extractByte, if_neg hH]
    exact key _ _ _ _ fun h' => h ((s.slotExists_iff slot).2 ⟨Nat.not_lt.1 hH, h'⟩)

/-- `stream_byte(k)` answers its value where the byte exists, and grows the record only; else it stops (log 9). -/
theorem coreStreamByte_cases (k : Nat) (s : State) :
    (s.byteExists k → ∃ acc : List CoreAccess, coreStreamByte k s = .ok (s.streamByte k, { s with accesses := acc })) ∧
    (¬ s.byteExists k → coreStreamByte k s = .error .noSuchPayloadByte) := by
  simp only [State.byteExists, coreStreamByte, State.streamByte]
  by_cases hk : k ≤ 3
  · simp only [hk, if_true, true_or, not_true_eq_false, false_imp_iff, and_true, forall_const]
    exact ⟨s.accesses, rfl⟩
  · simp only [hk, if_false, false_or]
    refine ⟨fun h => ⟨_, corePayRead_eq (by omega) ((s.payExists_iff _).2 h)⟩, fun h => ?_⟩
    have : s.payExists (k - 4) = false := by simpa [State.payExists] using h
    simp [corePayRead, this]

-- Counting accesses (42_encoder R103, 43_decoder R122, R125).

/-- A record made of pieces that each hold `m` accesses of a kind. -/
theorem countP_pieces (f : Nat → List CoreAccess) (p : CoreAccess → Bool) (m n : Nat) (h : ∀ j, (f j).countP p = m) :
    ((List.range n).flatMap f).countP p = m * n := by
  induction n with
  | zero => rfl
  | succ n ih =>
    rw [List.range_succ, List.flatMap_append, List.countP_append, ih, List.flatMap_singleton, h]
    ring

/-- A record with one access of a kind for each stream byte from index 4 on. -/
theorem countP_payload (f : Nat → List CoreAccess) (p : CoreAccess → Bool) (k n : Nat)
    (h : ∀ j, (f j).countP p = if k + j ≤ 3 then 0 else 1) :
    ((List.range n).flatMap f).countP p = (k + n - 4) - (k - 4) := by
  induction n with
  | zero => simp
  | succ n ih =>
    rw [List.range_succ, List.flatMap_append, List.countP_append, ih, List.flatMap_singleton, h]
    split_ifs <;> omega

/-- The record of `n` embedded bytes, counted by kind (42_encoder R103). -/
theorem encTrace_counts (H k n : Nat) :
    (encTrace H k n).countP isPixRead = 8 * n ∧ (encTrace H k n).countP isPixWrite = 8 * n ∧
      (encTrace H k n).countP isPayRead = (k + n - 4) - (k - 4) ∧ (encTrace H k n).countP isPayWrite = 0 := by
  refine ⟨countP_pieces _ _ _ _ fun j => ?_, countP_pieces _ _ _ _ fun j => ?_, countP_payload _ _ _ _ fun j => ?_,
    (countP_pieces _ _ 0 _ fun j => ?_).trans (Nat.zero_mul _)⟩ <;> split_ifs <;> rfl

/-- The record of `n` extracted bytes, counted by kind (43_decoder R122). -/
theorem decTrace_counts (H k n : Nat) :
    (decTrace H k n).countP isPixRead = 8 * n ∧ (decTrace H k n).countP isPixWrite = 0 ∧
      (decTrace H k n).countP isPayRead = 0 ∧ (decTrace H k n).countP isPayWrite = (k + n - 4) - (k - 4) := by
  refine ⟨countP_pieces _ _ _ _ fun j => ?_, (countP_pieces _ _ 0 _ fun j => ?_).trans (Nat.zero_mul _),
    (countP_pieces _ _ 0 _ fun j => ?_).trans (Nat.zero_mul _), countP_payload _ _ _ _ fun j => ?_⟩ <;>
    split_ifs <;> rfl

-- The history of a decode (10_state R31, log 17).

@[simp] theorem State.slotBytes_length (s : State) (n : Nat) : (s.slotBytes n).length = n := by
  simp [State.slotBytes]

theorem State.slotBytes_getD (s : State) {n i : Nat} (h : i < n) : (s.slotBytes n).getD i 0 = s.slotByte i := by
  simp [State.slotBytes, h]

/-- A step that leaves BIDX as it was, during an operation or after one, reads no stream byte. -/
theorem State.readAfter_of_bidx {s t : State} (hs : s.state ≠ .idle) (hb : t.bidx = s.bidx) (read : List Byte) :
    s.readAfter t read = read := by
  cases h : s.state <;> simp_all [State.readAfter, State.slotBytes]

-- Runs over frames.

@[simp] theorem overFrames_nil (i : Instr) (s : State) : overFrames i [] s = .next s := rfl

theorem overFrames_cons {i : Instr} {m : Memory Nat} {s t : State} (rest : List (Memory Nat))
    (h : exec i (s.withFb m) = .next t) : overFrames i (m :: rest) s = overFrames i rest t := by
  rw [overFrames, h]

end Sys2Proof.Machine
end

