-- ==== Sys2Proof/Laws/PerInstr.lean ====
section
/-! SUPPORT. Statements about every instruction as syntax, one lemma per constructor. -/

namespace Sys2Proof.Laws

open Sys2Proof

/-- The word of a command is legal, its reserved field is clear, its opcode field is the command's opcode, and the
opcode map has exactly one row for it (30_encoding R60, R61). -/
def Encoding.Statement (i : Instr) : Prop :=
  wordWellFormed (encode i) = true ∧ rsvField (encode i) = 0 ∧ opField (encode i) = opcodeOf i ∧
    (opcodeMap.filter (·.instr = i)).map (·.value) = [encode i]

theorem Encoding.nop : Encoding.Statement .nop := by unfold Encoding.Statement; decide
theorem Encoding.clear : Encoding.Statement .clear := by unfold Encoding.Statement; decide
theorem Encoding.slotQuery : Encoding.Statement .slotQuery := by unfold Encoding.Statement; decide
theorem Encoding.capQuery : Encoding.Statement .capQuery := by unfold Encoding.Statement; decide
theorem Encoding.encStart : Encoding.Statement .encStart := by unfold Encoding.Statement; decide
theorem Encoding.encFrame : Encoding.Statement .encFrame := by unfold Encoding.Statement; decide
theorem Encoding.decStart : Encoding.Statement .decStart := by unfold Encoding.Statement; decide
theorem Encoding.decFrame : Encoding.Statement .decFrame := by unfold Encoding.Statement; decide
theorem Encoding.eos : Encoding.Statement .eos := by unfold Encoding.Statement; decide
theorem Encoding.srcFail : Encoding.Statement .srcFail := by unfold Encoding.Statement; decide

end Sys2Proof.Laws
end

