-- ==== Sys2Proof/Laws/Reference.lean ====
section
/-! SUPPORT. The reference functions over frames: linear indices, one sample of an encoded frame, one bit and one byte
of the stream that a list of frames spells. -/

namespace Sys2Proof.Machine

-- Linear indices (20_memory R43).

theorem Geometry.index_lt {g : Geometry} {row col ch : Nat} (hr : row < g.height) (hc : col < g.width)
    (hh : ch < g.channels) : g.index row col ch < g.samples := by
  have h1 : row * g.width + col < g.height * g.width := by
    calc row * g.width + col < (row + 1) * g.width := by rw [Nat.add_mul]; omega
      _ ≤ g.height * g.width := Nat.mul_le_mul_right _ hr
  calc g.index row col ch < (row * g.width + col + 1) * g.channels := by
        simp only [Geometry.index]; rw [Nat.add_mul _ 1]; omega
    _ ≤ g.samples := Nat.mul_le_mul_right _ h1

theorem Geometry.index_div {g : Geometry} {row col ch : Nat} (hh : ch < g.channels) :
    g.index row col ch / g.channels = row * g.width + col := by
  rw [Geometry.index, Nat.mul_comm, Nat.mul_add_div (by omega), Nat.div_eq_of_lt hh, Nat.add_zero]

theorem Geometry.rowOf_index {g : Geometry} {row col ch : Nat} (hc : col < g.width) (hh : ch < g.channels) :
    g.rowOf (g.index row col ch) = row := by
  rw [Geometry.rowOf, index_div hh, Nat.mul_comm, Nat.mul_add_div (by omega), Nat.div_eq_of_lt hc, Nat.add_zero]

theorem Geometry.colOf_index {g : Geometry} {row col ch : Nat} (hc : col < g.width) (hh : ch < g.channels) :
    g.colOf (g.index row col ch) = col := by
  rw [Geometry.colOf, index_div hh, Nat.mul_comm, Nat.mul_add_mod, Nat.mod_eq_of_lt hc]

theorem Geometry.chOf_index {g : Geometry} {row col ch : Nat} (hh : ch < g.channels) :
    g.chOf (g.index row col ch) = ch := by
  rw [Geometry.chOf, Geometry.index, Nat.mul_comm, Nat.mul_add_mod, Nat.mod_eq_of_lt hh]

/-- Every linear index below the number of samples is that of a location of the frame. -/
theorem Geometry.location_of_index {g : Geometry} {idx : Nat} (h : idx < g.samples) :
    g.rowOf idx < g.height ∧ g.colOf idx < g.width ∧ g.chOf idx < g.channels ∧
      g.index (g.rowOf idx) (g.colOf idx) (g.chOf idx) = idx := by
  have hC : 0 < g.channels := Nat.pos_of_ne_zero fun e => by simp [Geometry.samples, e] at h
  have hW : 0 < g.width := Nat.pos_of_ne_zero fun e => by simp [Geometry.samples, e] at h
  refine ⟨?_, Nat.mod_lt _ hW, Nat.mod_lt _ hC, ?_⟩
  · rw [Geometry.rowOf, Nat.div_lt_iff_lt_mul hW, Nat.div_lt_iff_lt_mul hC]
    exact h
  · simp only [Geometry.index, Geometry.rowOf, Geometry.colOf, Geometry.chOf]
    rw [Nat.div_add_mod' (idx / g.channels) g.width, Nat.div_add_mod' idx g.channels]

-- Encode, sample by sample.

@[simp] theorem embedInto_length (g : Geometry) (stream : List Byte) (f : Nat) (frame : Frame) :
    (embedInto g stream f frame).length = frame.length := by
  simp [embedInto]

@[simp] theorem encodeRef_length (g : Geometry) (source : List Frame) (payload : List Byte) :
    (encodeRef g source payload).length = source.length := by
  simp [encodeRef]

/-- One sample of an encoded frame (42_encoder R106). -/
theorem sample_embedInto {g : Geometry} (stream : List Byte) (f : Nat) {frame : Frame} {row col ch : Nat}
    (hf : frame.length = g.samples) (hr : row < g.height) (hc : col < g.width) (hh : ch < g.channels) :
    g.sample (embedInto g stream f frame) row col ch =
      embedSample g stream f row col ch (g.sample frame row col ch) := by
  have hi : g.index row col ch < frame.length := hf ▸ Geometry.index_lt hr hc hh
  simp only [Geometry.sample, embedInto, List.getD_eq_getElem?_getD, List.getElem?_mapIdx,
    List.getElem?_eq_getElem hi, Option.map_some, Option.getD_some, Geometry.rowOf_index hc hh,
    Geometry.colOf_index hc hh, Geometry.chOf_index hh]

/-- The frames of an encode (42_encoder R106). -/
theorem encodeRef_getD {g : Geometry} {source : List Frame} (payload : List Byte) {f : Nat} (hf : f < source.length) :
    (encodeRef g source payload).getD f [] = embedInto g (streamOf payload) f (source.getD f []) := by
  simp [encodeRef, List.getD_eq_getElem?_getD, hf]

theorem Geometry.ok_iff (g : Geometry) :
    g.ok = true ↔ (64 ≤ g.width ∧ g.width < 2 ^ 16) ∧ (2 ≤ g.height ∧ g.height < 2 ^ 16) ∧
      (1 ≤ g.channels ∧ g.channels < 2 ^ 8) := by
  simp only [Geometry.ok, Bool.and_eq_true, decide_eq_true_eq, and_assoc]
  rfl

-- The stream.

@[simp] theorem headerOf_length (n : Nat) : (headerOf n).length = 4 := rfl

@[simp] theorem streamOf_length (payload : List Byte) : (streamOf payload).length = 4 + payload.length := by
  simp [streamOf]

/-- Byte `k` of the embedded stream (30_encoding R67). -/
theorem streamOf_getD (payload : List Byte) (k : Nat) :
    (streamOf payload).getD k 0 =
      if k < 4 then headerByte (BitVec.ofNat 32 payload.length) k else payload.getD (k - 4) 0 := by
  by_cases h : k < 4
  · rw [if_pos h, streamOf, List.getD_append _ _ _ _ h]
    interval_cases k <;> rfl
  · rw [if_neg h, streamOf, List.getD_append_right _ _ _ _ (by simpa using h), headerOf_length]

-- The stream that the LSBs of a list of frames spell (43_decoder R127).

theorem streamBit_lt (g : Geometry) (source : List Frame) (b : Nat) : streamBit g source b < 2 :=
  Nat.mod_lt _ (by decide)

/-- Bit `7 - i` of byte `k` is bit `8k + i` of the stream. -/
theorem carrierByte_getLsbD (g : Geometry) (source : List Frame) (k : Nat) {i : Nat} (hi : i < 8) :
    (carrierByte g source k).getLsbD (7 - i) = decide (streamBit g source (8 * k + i) = 1) := by
  have key : ∀ a0 a1 a2 a3 a4 a5 a6 a7 : Fin 2, ∀ i : Fin 8,
      (BitVec.ofNat 8 (a0.val * 2 ^ 7 + (a1.val * 2 ^ 6 + (a2.val * 2 ^ 5 + (a3.val * 2 ^ 4 + (a4.val * 2 ^ 3 +
        (a5.val * 2 ^ 2 + (a6.val * 2 ^ 1 + (a7.val * 2 ^ 0 + 0))))))))).getLsbD (7 - i) =
      decide (([a0, a1, a2, a3, a4, a5, a6, a7].getD i 0 : Fin 2).val = 1) := by decide
  have := key ⟨_, streamBit_lt g source (8 * k + 0)⟩ ⟨_, streamBit_lt g source (8 * k + 1)⟩
    ⟨_, streamBit_lt g source (8 * k + 2)⟩ ⟨_, streamBit_lt g source (8 * k + 3)⟩
    ⟨_, streamBit_lt g source (8 * k + 4)⟩ ⟨_, streamBit_lt g source (8 * k + 5)⟩
    ⟨_, streamBit_lt g source (8 * k + 6)⟩ ⟨_, streamBit_lt g source (8 * k + 7)⟩ ⟨i, hi⟩
  refine Eq.trans ?_ (this.trans ?_)
  · rfl
  · interval_cases i <;> rfl

/-- The four header bytes of a length spell the length (30_encoding R68). -/
theorem headerByte_sum (w : Word) :
    (headerByte w 0).toNat * 2 ^ 24 + (headerByte w 1).toNat * 2 ^ 16 + (headerByte w 2).toNat * 2 ^ 8 +
      (headerByte w 3).toNat = w.toNat := by
  have := w.isLt
  simp only [headerByte, BitVec.toNat_setWidth, BitVec.toNat_ushiftRight, Nat.shiftRight_eq_div_pow]
  omega

end Sys2Proof.Machine
end

