-- ==== Sys2Proof/Laws/Procedures.lean ====
section
/-! SUPPORT. The ports, and the pieces of the host procedures: one access, a run of accesses, the load and the read-out
of a frame and of a payload. -/

namespace Sys2Proof.Machine

-- Registers in two halves.

/-- The low word of QIDX after a write of it (20_memory R41). -/
@[simp] theorem qidx_low (hi : BitVec 4) (lo : Word) : (hi ++ lo : BitVec 36).extractLsb' 0 32 = lo := by
  ext i h
  have e := BitVec.getLsbD_append (x := hi) (y := lo) (i := i)
  rw [BitVec.getElem_extractLsb', Nat.zero_add]
  exact e.trans (by simp [h])

/-- The high bits of QIDX after a write of either half (20_memory R41). -/
@[simp] theorem qidx_high (hi : BitVec 4) (lo : Word) : (hi ++ lo : BitVec 36).extractLsb' 32 4 = hi := by
  ext i h
  have e := BitVec.getLsbD_append (x := hi) (y := lo) (i := 32 + i)
  rw [BitVec.getElem_extractLsb']
  exact e.trans (by simp [h])

-- One access.

/-- An access told to the machine acts on the state with the record of core accesses begun anew (logs 1, 3). -/
theorem tell_eq (a : HostAccess) (s : State) : tell a s = access a { s with accesses := [] } := rfl

/-- A command told to the machine is the command's meaning (30_encoding R60, R72). -/
theorem tell_cmd (i : Instr) (s : State) :
    tell (cmd i) s = exec i { s with accesses := [], answer := some .done } := by
  cases i <;> rfl

/-- A register read told to the machine (30_encoding R72). -/
theorem tell_rd (r : Reg) (s : State) :
    tell (.regRead (regOffset r) 32) s =
      .next { s with accesses := [], answer := some (.word (regRead r s)) } := by
  cases r <;> rfl

/-- `RD` hands the register's word on (30_encoding R72). -/
theorem rd_eq {β : Type} (r : Reg) (s : State) (k : Word → State → Run β) :
    rd r s k = k (regRead r s) { s with accesses := [], answer := some (.word (regRead r s)) } := by
  rw [rd, tell_rd]
  rfl

/-- STATUS reads 7 exactly in ERROR, 5 exactly in DEC_DONE (30_encoding R65). -/
theorem status_eq (s : State) :
    (regRead .status s = 7 ↔ s.state = .error) ∧ (regRead .status s = 5 ↔ s.state = .decDone) := by
  simp only [regRead]
  cases s.state <;> decide

@[simp] theorem after_next {β : Type} (t : State) (k : State → Run β) : after (.next t) k = k t := rfl

/-- Outside ERROR the error check of a procedure goes on (44_control R146). -/
theorem unlessError_ok {β : Type} {s : State} (h : s.state ≠ .error) (failed : ErrCode → β) (k : State → Run β) :
    unlessError s failed k = k { s with accesses := [], answer := some (.word (regRead .status s)) } := by
  rw [unlessError, rd_eq, if_neg (mt (status_eq s).1.1 h)]

/-- The code read from ERR stands for the error that was raised (30_encoding R66). -/
theorem errOfCode_regRead (s : State) : errOfCode (regRead .err s) = s.err := by
  simp only [regRead]
  cases s.err <;> rfl

/-- In ERROR the error check clears and returns the error (44_control R146, 60_exceptions R166). -/
theorem unlessError_error {β : Type} {s : State} (h : s.state = .error) (failed : ErrCode → β) (k : State → Run β) :
    unlessError s failed k =
      .next (failed s.err, State.toIdle { s with accesses := [], answer := some .done }) := by
  rw [unlessError, rd_eq, if_pos ((status_eq s).1.2 h), rd_eq, tell_cmd, errOfCode_regRead]
  rfl

-- Runs of accesses.

theorem tellAll_append (l l' : List HostAccess) (s : State) :
    tellAll (l ++ l') s =
      match tellAll l s with
      | .next t => tellAll l' t
      | .fault f => .fault f
      | .refused r => .refused r := by
  induction l generalizing s with
  | nil => rfl
  | cons a rest ih =>
    simp only [List.cons_append, tellAll]
    cases tell a s with
    | next t => exact ih t
    | fault f => rfl
    | refused r => rfl

theorem tellAll_append_next {l l' : List HostAccess} {s t : State} (h : tellAll l s = .next t) :
    tellAll (l ++ l') s = tellAll l' t := by
  rw [tellAll_append, h]

-- Frames.

/-- FB has the shape `g`. -/
def State.hasGeometry (s : State) (g : Geometry) : Prop :=
  s.height.toNat = g.height ∧ s.width.toNat = g.width ∧ s.channels.toNat = g.channels

/-- The samples of FB, by linear index (20_memory R43). -/
def State.samplesOf (s : State) (g : Geometry) : Frame :=
  (List.range g.samples).map fun idx => s.sampleAt (g.rowOf idx) (g.colOf idx) (g.chOf idx)

theorem State.pixIndex_eq {s : State} {g : Geometry} (h : s.hasGeometry g) (row col ch : Nat) :
    s.pixIndex row col ch = g.index row col ch := by
  simp only [State.pixIndex, Geometry.index, h.2.1, h.2.2]

theorem State.pixExists_index {s : State} {g : Geometry} (h : s.hasGeometry g) {idx : Nat} (hi : idx < g.samples) :
    s.pixExists (g.rowOf idx) (g.colOf idx) (g.chOf idx) = true := by
  obtain ⟨h1, h2, h3, _⟩ := Geometry.location_of_index hi
  rw [State.pixExists_iff, h.1, h.2.1, h.2.2]
  exact ⟨h1, h2, h3⟩

/-- The samples of one load from index `k` on (30_encoding R72). -/
theorem loadFrom_spec (g : Geometry) (k : Nat) (vs : List Nat) (s : State) (hg : s.hasGeometry g)
    (hk : k + vs.length ≤ g.samples) (hv : ∀ v ∈ vs, v < 2 ^ s.params.sampleBits) :
    ∃ (fb' : Memory Nat) (ans : Option PortAnswer) (acc : List CoreAccess),
      tellAll (vs.mapIdx fun i v => .pixWrite (g.rowOf (k + i)) (g.colOf (k + i)) (g.chOf (k + i)) v) s =
        .next { s with fb := fb', answer := ans, accesses := acc } ∧
      (∀ a, fb'.lookup a = if k ≤ a ∧ a < k + vs.length then vs[a - k]? else s.fb.lookup a) ∧
      fb'.epoch = s.fb.epoch := by
  induction vs generalizing k s with
  | nil =>
    refine ⟨s.fb, s.answer, s.accesses, rfl, fun a => ?_, rfl⟩
    rw [if_neg (by simp only [List.length_nil]; omega)]
  | cons v rest ih =>
    simp only [List.length_cons] at hk
    have hx : State.pixExists { s with accesses := [] } (g.rowOf k) (g.colOf k) (g.chOf k) = true :=
      State.pixExists_index (s := { s with accesses := [] }) hg (by omega)
    have hlt : v < 2 ^ s.params.sampleBits := hv v List.mem_cons_self
    have hidx : State.pixIndex { s with accesses := [] } (g.rowOf k) (g.colOf k) (g.chOf k) = k :=
      (State.pixIndex_eq (s := { s with accesses := [] }) hg _ _ _).trans
        (Geometry.location_of_index (by omega : k < g.samples)).2.2.2
    have h1 : tell (.pixWrite (g.rowOf k) (g.colOf k) (g.chOf k) v) s =
        .next { s with fb := s.fb.insert k v, answer := some .done, accesses := [] } := by
      simp only [tell_eq, access, hostPixWrite, hx, Bool.true_and, decide_eq_true hlt, if_true, State.setSample, hidx]
      rfl
    obtain ⟨fb', ans, acc, e1, e2, e3⟩ := ih (k + 1) { s with
      fb := s.fb.insert k v, answer := some .done, accesses := [] } hg (by omega)
      (fun w hw => hv w (List.mem_cons_of_mem _ hw))
    refine ⟨fb', ans, acc, ?_, fun a => ?_, by rw [e3]; rfl⟩
    · rw [List.mapIdx_cons, Nat.add_zero]
      simp only [tellAll, h1]
      refine Eq.trans ?_ e1
      congr 2
      funext i v
      rw [show k + (i + 1) = k + 1 + i by omega]
    · rw [e2 a]
      simp only [Memory.lookup_insert, List.length_cons]
      by_cases h2 : a = k
      · subst h2
        rw [if_neg (by omega), if_pos rfl, if_pos (by omega), Nat.sub_self]
        rfl
      · rw [if_neg h2]
        by_cases h3 : k + 1 ≤ a ∧ a < k + 1 + rest.length
        · rw [if_pos h3, if_pos (by omega), show a - k = (a - (k + 1)) + 1 by omega, List.getElem?_cons_succ]
        · rw [if_neg h3, if_neg (by omega)]

/-- LOADFRAME (30_encoding R72): on a block with the frame's geometry every write is accepted and FB holds exactly the
frame. -/
theorem loadFrame_spec {g : Geometry} {frame : Frame} {s : State} (hg : s.hasGeometry g)
    (hl : frame.length = g.samples) (hv : ∀ v ∈ frame, v < 2 ^ s.params.sampleBits) :
    ∃ (fb' : Memory Nat) (ans : Option PortAnswer) (acc : List CoreAccess),
      tellAll (loadFrame g frame) s = .next { s with fb := fb', answer := ans, accesses := acc } ∧
      ∀ row col ch, row < g.height → col < g.width → ch < g.channels →
        (s.withFb fb').sampleAt row col ch = g.sample frame row col ch := by
  obtain ⟨fb', ans, acc, e1, e2, _⟩ := loadFrom_spec g 0 frame s hg (by omega) hv
  simp only [Nat.zero_add] at e1
  refine ⟨fb', ans, acc, e1, fun row col ch hr hc hh => ?_⟩
  have hi : g.index row col ch < frame.length := hl ▸ Geometry.index_lt hr hc hh
  have hx : (s.withFb fb').pixIndex row col ch = g.index row col ch := State.pixIndex_eq (s := s.withFb fb') hg _ _ _
  have e := e2 (g.index row col ch)
  rw [if_pos ⟨Nat.zero_le _, by omega⟩, Nat.sub_zero, List.getElem?_eq_getElem hi] at e
  simp only [State.sampleAt, hx, State.withFb_fb, e, Geometry.sample, List.getD_eq_getElem?_getD,
    List.getElem?_eq_getElem hi, Option.getD_some]

/-- The reads of one read-out, at indices that exist (30_encoding R72). -/
theorem takeFrom_spec (g : Geometry) (idxs : List Nat) (s : State) (hg : s.hasGeometry g)
    (hi : ∀ i ∈ idxs, i < g.samples) :
    ∃ (ans : Option PortAnswer) (acc : List CoreAccess),
      collect answeredSample (idxs.map fun i => .pixRead (g.rowOf i) (g.colOf i) (g.chOf i)) s =
        .next (idxs.map fun i => s.sampleAt (g.rowOf i) (g.colOf i) (g.chOf i),
          { s with answer := ans, accesses := acc }) := by
  induction idxs generalizing s with
  | nil => exact ⟨s.answer, s.accesses, rfl⟩
  | cons i rest ih =>
    have hx : State.pixExists { s with accesses := [] } (g.rowOf i) (g.colOf i) (g.chOf i) = true :=
      State.pixExists_index (s := { s with accesses := [] }) hg (hi i List.mem_cons_self)
    set v := s.sampleAt (g.rowOf i) (g.colOf i) (g.chOf i) with hvdef
    have h1 : tell (.pixRead (g.rowOf i) (g.colOf i) (g.chOf i)) s =
        .next { s with accesses := [], answer := some (.sample v) } := by
      simp only [tell_eq, access, hostPixRead, hx, if_true]
      rfl
    obtain ⟨ans, acc, e⟩ := ih { s with accesses := [], answer := some (.sample v) } hg
      (fun j hj => hi j (List.mem_cons_of_mem _ hj))
    refine ⟨ans, acc, ?_⟩
    simp only [List.map_cons, collect, h1, e]
    rfl

/-- TAKEFRAME (30_encoding R72): the samples of FB in the order of their indices; no register and no memory changes. -/
theorem takeFrame_spec {g : Geometry} {s : State} (hg : s.hasGeometry g) :
    ∃ (ans : Option PortAnswer) (acc : List CoreAccess),
      takeFrame g s = .next (s.samplesOf g, { s with answer := ans, accesses := acc }) :=
  takeFrom_spec g _ s hg fun _ h => List.mem_range.1 h

-- Payloads.

/-- The bytes of one PAYW from index `k` on, in IDLE (30_encoding R72). -/
theorem paywFrom_spec (k : Nat) (bs : List Byte) (s : State) (hs : s.state = .idle)
    (hk : k + bs.length ≤ s.params.pbufBytes) :
    ∃ (pb' : Memory Byte) (ans : Option PortAnswer) (acc : List CoreAccess),
      tellAll (bs.mapIdx fun i b => .payWrite (k + i) b) s =
        .next { s with pbuf := pb', answer := ans, accesses := acc } ∧
      (∀ a, pb'.lookup a = if k ≤ a ∧ a < k + bs.length then bs[a - k]? else s.pbuf.lookup a) := by
  induction bs generalizing k s with
  | nil =>
    refine ⟨s.pbuf, s.answer, s.accesses, rfl, fun a => ?_⟩
    rw [if_neg (by simp only [List.length_nil]; omega)]
  | cons b rest ih =>
    simp only [List.length_cons] at hk
    have hlt : k < s.params.pbufBytes := by omega
    have h1 : tell (.payWrite k b) s =
        .next { s with pbuf := s.pbuf.insert k b, answer := some .done, accesses := [] } := by
      simp only [tell_eq, access, hostPayWrite, State.payExists, hs, decide_eq_true hlt, decide_true, Bool.true_and,
        if_true, State.setPayload]
      simp only [State.withPbuf, State.answered, hs]
    obtain ⟨pb', ans, acc, e1, e2⟩ := ih (k + 1) { s with
      pbuf := s.pbuf.insert k b, answer := some .done, accesses := [] } hs (by simp only; omega)
    refine ⟨pb', ans, acc, ?_, fun a => ?_⟩
    · rw [List.mapIdx_cons, Nat.add_zero]
      simp only [tellAll, h1]
      refine Eq.trans ?_ e1
      congr 2
      funext i v
      rw [show k + (i + 1) = k + 1 + i by omega]
    · rw [e2 a]
      simp only [Memory.lookup_insert, List.length_cons]
      by_cases h2 : a = k
      · subst h2
        rw [if_neg (by omega), if_pos rfl, if_pos (by omega), Nat.sub_self]
        rfl
      · rw [if_neg h2]
        by_cases h3 : k + 1 ≤ a ∧ a < k + 1 + rest.length
        · rw [if_pos h3, if_pos (by omega), show a - k = (a - (k + 1)) + 1 by omega, List.getElem?_cons_succ]
        · rw [if_neg h3, if_neg (by omega)]

/-- `PAYW 0.., P` in IDLE, whatever its length (30_encoding R72): only PBUF changes, and each byte beyond PBUF_BYTES is
refused (44_control R146). -/
theorem payw_keeps (payload : List Byte) {s : State} (hs : s.state = .idle) :
    ∃ (pb' : Memory Byte) (ans : Option PortAnswer) (acc : List CoreAccess),
      tellAll (payw payload) s = .next { s with pbuf := pb', answer := ans, accesses := acc } := by
  have key : ∀ (bs : List Byte) (k : Nat) (s : State), s.state = .idle →
      ∃ (pb' : Memory Byte) (ans : Option PortAnswer) (acc : List CoreAccess),
        tellAll (bs.mapIdx fun i b => .payWrite (k + i) b) s =
          .next { s with pbuf := pb', answer := ans, accesses := acc } := by
    intro bs
    induction bs with
    | nil => exact fun _ s _ => ⟨s.pbuf, s.answer, s.accesses, rfl⟩
    | cons b rest ih =>
      intro k s hs
      obtain ⟨pb1, ans1, h1⟩ : ∃ (pb1 : Memory Byte) (ans1 : Option PortAnswer),
          tell (.payWrite k b) s = .next { s with pbuf := pb1, answer := ans1, accesses := [] } := by
        rw [tell_eq]
        simp only [access, hostPayWrite]
        split_ifs
        · exact ⟨s.pbuf.insert k b, _, rfl⟩
        · exact ⟨s.pbuf, _, rfl⟩
      obtain ⟨pb2, ans2, acc2, h2⟩ := ih (k + 1) { s with pbuf := pb1, answer := ans1, accesses := [] } hs
      refine ⟨pb2, ans2, acc2, ?_⟩
      rw [List.mapIdx_cons, Nat.add_zero]
      simp only [tellAll, h1]
      refine Eq.trans ?_ h2
      congr 2
      funext i v
      rw [show k + (i + 1) = k + 1 + i by omega]
  simpa only [Nat.zero_add, payw] using key payload 0 s hs

/-- `PAYW 0.., P` in IDLE (30_encoding R72): every byte is accepted and PBUF begins with exactly the payload. -/
theorem payw_spec {payload : List Byte} {s : State} (hs : s.state = .idle)
    (hl : payload.length ≤ s.params.pbufBytes) :
    ∃ (pb' : Memory Byte) (ans : Option PortAnswer) (acc : List CoreAccess),
      tellAll (payw payload) s = .next { s with pbuf := pb', answer := ans, accesses := acc } ∧
      ∀ i < payload.length, (s.withPbuf pb').payloadAt i = payload.getD i 0 := by
  obtain ⟨pb', ans, acc, e1, e2⟩ := paywFrom_spec 0 payload s hs (by omega)
  simp only [Nat.zero_add] at e1
  refine ⟨pb', ans, acc, e1, fun i hi => ?_⟩
  have e := e2 i
  rw [if_pos ⟨Nat.zero_le _, by omega⟩, Nat.sub_zero, List.getElem?_eq_getElem hi] at e
  simp only [State.payloadAt, State.withPbuf_pbuf, e, List.getD_eq_getElem?_getD, List.getElem?_eq_getElem hi,
    Option.getD_some]

/-- The bytes read in DEC_DONE, at indices inside the window (44_control R147, 20_memory R53). -/
theorem payr_spec {s : State} (hs : s.state = .decDone) {n : Nat} (h1 : n ≤ s.params.pbufBytes)
    (h2 : n ≤ s.hdr.toNat) :
    ∃ (ans : Option PortAnswer) (acc : List CoreAccess),
      payr n s = .next ((List.range n).map s.payloadAt, { s with answer := ans, accesses := acc }) := by
  have key : ∀ (l : List Nat) (s : State), s.state = .decDone → (∀ i ∈ l, i < s.params.pbufBytes ∧ i < s.hdr.toNat) →
      ∃ (ans : Option PortAnswer) (acc : List CoreAccess),
        collect answeredByte (l.map fun i => .payRead i) s =
          .next (l.map s.payloadAt, { s with answer := ans, accesses := acc }) := by
    intro l
    induction l with
    | nil => exact fun s _ _ => ⟨s.answer, s.accesses, rfl⟩
    | cons i rest ih =>
      intro s hs hl
      obtain ⟨ha, hb⟩ := hl i List.mem_cons_self
      have e1 : tell (.payRead i) s =
          .next { s with accesses := [], answer := some (.byte (s.payloadAt i)) } := by
        simp only [tell_eq, access, hostPayRead, State.payExists, hs, decide_eq_true ha, decide_eq_true hb,
          decide_true, Bool.and_self, if_true]
        simp only [State.answered]
        rfl
      obtain ⟨ans, acc, e⟩ := ih { s with accesses := [], answer := some (.byte (s.payloadAt i)) } hs
        (fun j hj => hl j (List.mem_cons_of_mem _ hj))
      refine ⟨ans, acc, ?_⟩
      simp only [List.map_cons, collect, e1, e]
      rfl
  exact key _ s hs fun i hi => by
    have := List.mem_range.1 hi
    omega

-- Opening an operation.

/-- The three geometry writes in IDLE (44_control R146, R147). -/
theorem wrGeometry_spec {g : Geometry} {s : State} (hs : s.state = .idle) :
    ∃ (fb' : Memory Nat) (ans : Option PortAnswer) (acc : List CoreAccess),
      tellAll (wrGeometry g) s = .next { s with
        width := BitVec.ofNat 16 g.width
        height := BitVec.ofNat 16 g.height
        channels := BitVec.ofNat 8 g.channels
        fb := fb'
        answer := ans
        accesses := acc } := by
  have e16 : ∀ n, (BitVec.ofNat 32 n).setWidth 16 = BitVec.ofNat 16 n := fun n => by
    apply BitVec.eq_of_toNat_eq
    simp only [BitVec.toNat_setWidth, BitVec.toNat_ofNat]
    omega
  have e8 : ∀ n, (BitVec.ofNat 32 n).setWidth 8 = BitVec.ofNat 8 n := fun n => by
    apply BitVec.eq_of_toNat_eq
    simp only [BitVec.toNat_setWidth, BitVec.toNat_ofNat]
    omega
  have ew : ∀ t : State, t.state = .idle → ∃ fb', tell (wr .width (BitVec.ofNat 32 g.width)) t =
      .next { t with width := BitVec.ofNat 16 g.width, fb := fb', answer := some .done, accesses := [] } := by
    intro t ht
    refine ⟨fbAfterStore (t.width != BitVec.ofNat 16 g.width) t.fb, ?_⟩
    show Host.Outcome.next (hostRegWrite .width (BitVec.ofNat 32 g.width) { t with accesses := [] }) = _
    simp only [hostRegWrite, ht, if_true, regStore, e16, State.answered]
  have eh : ∀ t : State, t.state = .idle → ∃ fb', tell (wr .height (BitVec.ofNat 32 g.height)) t =
      .next { t with height := BitVec.ofNat 16 g.height, fb := fb', answer := some .done, accesses := [] } := by
    intro t ht
    refine ⟨fbAfterStore (t.height != BitVec.ofNat 16 g.height) t.fb, ?_⟩
    show Host.Outcome.next (hostRegWrite .height (BitVec.ofNat 32 g.height) { t with accesses := [] }) = _
    simp only [hostRegWrite, ht, if_true, regStore, e16, State.answered]
  have ec : ∀ t : State, t.state = .idle → ∃ fb', tell (wr .channels (BitVec.ofNat 32 g.channels)) t =
      .next { t with channels := BitVec.ofNat 8 g.channels, fb := fb', answer := some .done, accesses := [] } := by
    intro t ht
    refine ⟨fbAfterStore (t.channels != BitVec.ofNat 8 g.channels) t.fb, ?_⟩
    show Host.Outcome.next (hostRegWrite .channels (BitVec.ofNat 32 g.channels) { t with accesses := [] }) = _
    simp only [hostRegWrite, ht, if_true, regStore, e8, State.answered]
  obtain ⟨f1, q1⟩ := ew s hs
  obtain ⟨f2, q2⟩ := eh { s with
    width := BitVec.ofNat 16 g.width, fb := f1, answer := some .done, accesses := [] } hs
  obtain ⟨f3, q3⟩ := ec { s with
    width := BitVec.ofNat 16 g.width, height := BitVec.ofNat 16 g.height, fb := f2, answer := some .done
    accesses := [] } hs
  refine ⟨f3, some .done, [], ?_⟩
  simp only [wrGeometry, tellAll, q1, q2, q3]

/-- After the geometry writes the block has the geometry (10_state R13 to R15). -/
theorem hasGeometry_of_writes {g : Geometry} (hg : g.ok = true) {s : State}
    (hw : s.width = BitVec.ofNat 16 g.width) (hh : s.height = BitVec.ofNat 16 g.height)
    (hc : s.channels = BitVec.ofNat 8 g.channels) : s.hasGeometry g := by
  obtain ⟨⟨_, h1⟩, ⟨_, h2⟩, ⟨_, h3⟩⟩ := g.ok_iff.1 hg
  refine ⟨?_, ?_, ?_⟩
  · rw [hh, BitVec.toNat_ofNat, Nat.mod_eq_of_lt h2]
  · rw [hw, BitVec.toNat_ofNat, Nat.mod_eq_of_lt h1]
  · rw [hc, BitVec.toNat_ofNat, Nat.mod_eq_of_lt h3]

/-- A block with an accepted geometry is eligible (60_exceptions R152). -/
theorem eligible_of_hasGeometry {g : Geometry} (hg : g.ok = true) {s : State} (h : s.hasGeometry g) :
    s.eligible = true := by
  obtain ⟨⟨h1, _⟩, ⟨h2, _⟩, ⟨h3, _⟩⟩ := g.ok_iff.1 hg
  rw [State.eligible_iff, h.1, h.2.1, h.2.2]
  exact ⟨h1, h2, h3⟩

end Sys2Proof.Machine
end

