-- ==== Sys2Proof/Laws/Progress.lean ====
section
/-! SUPPORT. What progress rests on (44_control R148): the transition table's own facts, what one step can do to an
operation, and the frames that a frame command uses up. -/

namespace Sys2Proof.Machine

-- The table (44_control R144).

/-- The states to which a cell of column `st` leads. -/
def Cell.targets (c : Cell) (st : Ctl) : List Ctl :=
  match c with
  | .ill => [.error]
  | .ign => [st]
  | .next states errors => states ++ if errors.isEmpty then [] else [.error]

/-- 44_control R148 (a), in the table. -/
theorem transition_clear_targets (st : Ctl) : (transition .clear st).targets st = [.idle] := rfl

/-- 44_control R148 (d), in the table. -/
theorem transition_error_targets {i : Instr} (h : i ≠ .clear) : (transition i .error).targets .error = [.error] := by
  cases i <;> first | rfl | exact absurd rfl h

/-- 44_control R148 (e), in the table. -/
theorem transition_idle_targets (i : Instr) : ∀ st ∈ (transition i .idle).targets .idle, st ∈ startedStates := by
  cases i <;> decide

-- Frames of a stream.

theorem framesOf_eq (n : Nat) : framesOf n = (n + 15) / 16 := rfl

/-- 44_control R148 (b): every declared length ends within the bound. -/
theorem framesOf_total_le (s : State) : framesOf s.total ≤ decFrameBound := by
  have := s.total_lt
  simp only [decFrameBound, framesOf_eq, Config.headerBytes]
  omega

-- The command that comes next.

/-- The offset of CMD is 0x00 and no other (30_encoding R63). -/
theorem regAt_eq_cmd {offset : Nat} : regAt offset = some .cmd ↔ offset = 0x00 := by
  refine ⟨fun h => ?_, fun h => by rw [h]; rfl⟩
  have hp : (regOffset .cmd == offset) = true := by
    rw [regAt] at h
    exact List.find?_some (p := fun r => regOffset r == offset) h
  exact (eq_of_beq hp).symm

/-- A command comes next exactly where the oldest access is a word write of its encoding to CMD (10_state R24). -/
theorem State.nextCommand_eq_some {s : State} {i : Instr} :
    s.nextCommand = some i ↔ ∃ w rest, s.pending = .regWrite 0x00 32 w :: rest ∧ decode w = .ok i := by
  constructor
  · intro h
    unfold State.nextCommand at h
    split at h
    · rename_i o b w rest hp
      split at h
      · rename_i hb
        split at h
        · rename_i j hj
          rw [hb.1, regAt_eq_cmd.1 hb.2] at hp
          exact ⟨w, rest, hp, hj.trans (congrArg _ (Option.some.inj h))⟩
        · cases h
      · cases h
    · cases h
  · rintro ⟨w, rest, hp, hw⟩
    simp [State.nextCommand, hp, hw, regAt_eq_cmd]

/-- The operation of `s` is undisturbed in `t`: control state, error, stream position and length are the same, and
outside IDLE the geometry. -/
structure State.undisturbed (s t : State) : Prop where
  state : t.state = s.state
  err : t.err = s.err
  hdr : t.hdr = s.hdr
  bidx : t.bidx = s.bidx
  params : t.params = s.params
  geometry : s.state ≠ .idle → t.width = s.width ∧ t.height = s.height ∧ t.channels = s.channels

theorem State.undisturbed_refl (s : State) : s.undisturbed s := ⟨rfl, rfl, rfl, rfl, rfl, fun _ => ⟨rfl, rfl, rfl⟩⟩

theorem State.undisturbed_answered (s : State) (a : PortAnswer) : s.undisturbed (s.answered a) :=
  ⟨rfl, rfl, rfl, rfl, rfl, fun _ => ⟨rfl, rfl, rfl⟩⟩

theorem State.undisturbed_begin_answered (s : State) (rest : List HostAccess) (a : PortAnswer) :
    s.undisturbed ((s.begin rest).answered a) :=
  ⟨rfl, rfl, rfl, rfl, rfl, fun _ => ⟨rfl, rfl, rfl⟩⟩

/-- A stored configuration register leaves the operation alone (10_state R29). -/
theorem regStore_undisturbed {r : Reg} {v : Word} {s t : State} (h : regStore r v s = some t) :
    t.state = s.state ∧ t.err = s.err ∧ t.hdr = s.hdr ∧ t.bidx = s.bidx ∧ t.params = s.params := by
  cases r <;> simp only [regStore, reduceCtorEq, Option.some.injEq] at h <;> subst h <;> exact ⟨rfl, rfl, rfl, rfl, rfl⟩

/-- A host write of a register leaves the operation alone (10_state R29). -/
theorem hostRegWrite_undisturbed (r : Reg) (v : Word) (s : State) : s.undisturbed (hostRegWrite r v s) := by
  unfold hostRegWrite
  split
  · rename_i hi
    split
    · rename_i t ht
      obtain ⟨h1, h2, h3, h4, h5⟩ := regStore_undisturbed ht
      exact ⟨h1, h2, h3, h4, h5, fun h => absurd hi h⟩
    · exact s.undisturbed_answered _
  · exact s.undisturbed_answered _

theorem commandWrite_ok {w : Word} {i : Instr} (h : decode w = .ok i) (s : State) : commandWrite w s = exec i s := by
  rw [commandWrite, h]

theorem commandWrite_error {w : Word} {e : DecodeReject} (h : decode w = .error e) (s : State) :
    commandWrite w s = illegalWord s := by
  rw [commandWrite, h]

/-- An access that is neither a command nor the reset input leaves the operation undisturbed (20_memory R49). -/
theorem access_undisturbed {a : HostAccess} (s : State) (hc : isCommand a = false) (hr : a ≠ .reset) :
    ∃ t, access a s = .next t ∧ s.undisturbed t := by
  cases a with
  | reset => exact absurd rfl hr
  | regWrite o b v =>
    by_cases hb : b = 32
    · cases ho : regAt o with
      | none => exact ⟨_, by simp only [access, hb, ho, if_true]; rfl, s.undisturbed_answered .errorResponse⟩
      | some r =>
        have hne : r ≠ .cmd := fun h => by simp [isCommand, hb, regAt_eq_cmd.1 (h ▸ ho)] at hc
        refine ⟨hostRegWrite r v s, ?_, hostRegWrite_undisturbed r v s⟩
        simp only [access, hb, ho, if_true]
    · exact ⟨_, by simp only [access, hb, if_false]; rfl, s.undisturbed_answered .errorResponse⟩
  | regRead o b =>
    by_cases hb : b = 32
    · cases ho : regAt o with
      | none => exact ⟨_, by simp only [access, hb, ho, if_true]; rfl, s.undisturbed_answered .errorResponse⟩
      | some r => exact ⟨_, by simp only [access, hb, ho, if_true]; rfl, s.undisturbed_answered _⟩
    · exact ⟨_, by simp only [access, hb, if_false]; rfl, s.undisturbed_answered .errorResponse⟩
  | payWrite i b =>
    refine ⟨_, rfl, ?_⟩
    unfold hostPayWrite
    split
    · exact ⟨rfl, rfl, rfl, rfl, rfl, fun _ => ⟨rfl, rfl, rfl⟩⟩
    · exact s.undisturbed_answered _
  | payRead i =>
    refine ⟨_, rfl, ?_⟩
    unfold hostPayRead
    split <;> exact s.undisturbed_answered _
  | pixWrite r c h v =>
    refine ⟨_, rfl, ?_⟩
    unfold hostPixWrite
    split
    · exact ⟨rfl, rfl, rfl, rfl, rfl, fun _ => ⟨rfl, rfl, rfl⟩⟩
    · exact s.undisturbed_answered _
  | pixRead r c h =>
    refine ⟨_, rfl, ?_⟩
    unfold hostPixRead
    split <;> exact s.undisturbed_answered _

/-- All that one step can do (00_scope R7): run the next command, take an illegal word, reset, or leave the operation
undisturbed. -/
theorem step_cases (s : State) :
    (∃ i rest, s.nextCommand = some i ∧ step s = exec i ((s.begin rest).answered .done)) ∨
    (s.nextCommand = none ∧
      ((∃ rest, step s = illegalWord ((s.begin rest).answered .done)) ∨
        (∃ rest, s.pending = .reset :: rest ∧ step s = .next (s.begin rest).hardwareReset) ∨
        ∃ t, step s = .next t ∧ s.undisturbed t)) := by
  cases hp : s.pending with
  | nil =>
    exact .inr ⟨by simp [State.nextCommand, hp], .inr (.inr ⟨s, by simp [step, hp], s.undisturbed_refl⟩)⟩
  | cons a rest =>
    have hstep : step s = access a (s.begin rest) := by simp [step, hp]
    cases hc : isCommand a with
    | true =>
      obtain ⟨w, rfl⟩ : ∃ w, a = .regWrite 0x00 32 w := by
        cases a <;> simp_all [isCommand]
      cases hd : decode w with
      | ok i =>
        exact .inl ⟨i, rest, State.nextCommand_eq_some.2 ⟨w, rest, hp, hd⟩, by rw [hstep]; exact commandWrite_ok hd _⟩
      | error e =>
        refine .inr ⟨?_, .inl ⟨rest, by rw [hstep]; exact commandWrite_error hd _⟩⟩
        simp [State.nextCommand, hp, hd]
    | false =>
      have hn : s.nextCommand = none := by
        cases h : s.nextCommand with
        | none => rfl
        | some i =>
          obtain ⟨w, r, h1, -⟩ := State.nextCommand_eq_some.1 h
          obtain ⟨rfl, -⟩ := List.cons.inj (hp.symm.trans h1)
          cases hc
      by_cases hr : a = .reset
      · subst hr
        exact .inr ⟨hn, .inr (.inl ⟨rest, rfl, hstep⟩)⟩
      · obtain ⟨t, h1, h2⟩ := access_undisturbed (s.begin rest) hc hr
        exact .inr ⟨hn, .inr (.inr ⟨t, hstep.trans h1, ⟨h2.1, h2.2, h2.3, h2.4, h2.5, h2.6⟩⟩)⟩

-- Frame commands.

/-- What a decode in progress rests on: a checked geometry, and a stream position before the end (10_state R31 items 3,
4 and 8). -/
structure State.decodeSound (s : State) : Prop where
  eligible : s.eligible = true
  header : s.state = .decHeader → s.bidx = 0 ∧ s.hdr = 0
  payload : s.state = .decPayload → 4 ≤ s.bidx.toNat ∧ s.bidx.toNat < s.total ∧ s.hdr.toNat ≤ s.params.pbufBytes

/-- What an encode in progress rests on (10_state R31 items 2 and 8). -/
structure State.encodeSound (s : State) : Prop where
  eligible : s.eligible = true
  position : s.bidx.toNat ≤ s.total
  buffer : s.hdr.toNat ≤ s.params.pbufBytes

/-- The frames left depend on the operation only. -/
theorem State.undisturbed.framesLeft {s t : State} (u : s.undisturbed t) : t.framesLeft = s.framesLeft := by
  simp only [State.framesLeft, State.total, u.state, u.hdr, u.bidx]

/-- What a decode rests on lives on in an undisturbed state. -/
theorem State.decodeSound.of_undisturbed {s t : State} (h : s.decodeSound) (hi : s.state ≠ .idle)
    (u : s.undisturbed t) : t.decodeSound := by
  obtain ⟨hw, hh, hc⟩ := u.geometry hi
  refine ⟨(State.eligible_congr hw hh hc).trans h.eligible, fun hs => ?_, fun hs => ?_⟩
  · rw [u.bidx, u.hdr]; exact h.header (u.state ▸ hs)
  · rw [State.total, u.bidx, u.hdr, u.params]; exact h.payload (u.state ▸ hs)

/-- What an encode rests on lives on in an undisturbed state. -/
theorem State.encodeSound.of_undisturbed {s t : State} (h : s.encodeSound) (hi : s.state ≠ .idle)
    (u : s.undisturbed t) : t.encodeSound := by
  obtain ⟨hw, hh, hc⟩ := u.geometry hi
  refine ⟨(State.eligible_congr hw hh hc).trans h.eligible, ?_, ?_⟩
  · rw [State.total, u.bidx, u.hdr]; exact h.position
  · rw [u.hdr, u.params]; exact h.buffer

/-- A DEC_FRAME in DEC_PAYLOAD completes, keeps the decode sound, and uses up one of the frames left (43_decoder R122,
R124). -/
theorem execDecFrame_payload {s : State} (h : s.decodeSound) (hs : s.state = .decPayload) :
    ∃ t, execDecFrame s = .next t ∧ t.decodeSound ∧ t.framesLeft + 1 = s.framesLeft := by
  obtain ⟨hlo, hhi, hb⟩ := h.payload hs
  obtain ⟨pb, e, -⟩ := decSlots_payload 16 0 s h.eligible hs hlo hhi hb
  have ht := s.total_lt
  have hx : execDecFrame s = endDecFrame (decSlots (List.range' 0 16) s) := by
    rw [execDecFrame, if_neg (by simp [hs]), require_ok (by simp [hs]) (by simp [hs]), canonicalSlots_eq_range]
  rw [hx, e]
  by_cases hend : s.bidx.toNat + min 16 (s.total - s.bidx.toNat) = s.total
  · rw [if_pos hend, endDecFrame_leave]
    refine ⟨_, rfl, ⟨h.eligible, ?_, ?_⟩, ?_⟩ <;> simp only [hend, if_true, reduceCtorEq, false_imp_iff]
    simp only [State.framesLeft, hs, framesOf_eq]
    omega
  · rw [if_neg hend, endDecFrame_goOn]
    have hbn : (BitVec.ofNat 33 (s.bidx.toNat + min 16 (s.total - s.bidx.toNat))).toNat =
        s.bidx.toNat + min 16 (s.total - s.bidx.toNat) := by
      rw [BitVec.toNat_ofNat]; exact Nat.mod_eq_of_lt (by omega)
    refine ⟨_, rfl, ⟨h.eligible, ?_, fun _ => ⟨?_, ?_, hb⟩⟩, ?_⟩
    · simp only [hend, if_false, reduceCtorEq, false_imp_iff]
    · simp only [hbn]; omega
    · show _ < s.total
      simp only [hbn]; omega
    · simp only [State.framesLeft, hs, hend, if_false, framesOf_eq]
      show (s.total - _ + 15) / 16 + 1 = _
      rw [hbn]
      omega

/-- A DEC_FRAME in DEC_HEADER completes, keeps the decode sound, and uses up one of the frames left (43_decoder R122,
R123). -/
theorem execDecFrame_header {s : State} (h : s.decodeSound) (hs : s.state = .decHeader) :
    ∃ t, execDecFrame s = .next t ∧ t.decodeSound ∧ t.framesLeft + 1 ≤ s.framesLeft := by
  obtain ⟨hb, hh⟩ := h.header hs
  have hx : execDecFrame s = endDecFrame (decSlots (0 :: 1 :: 2 :: 3 :: List.range' 4 12) s) := by
    rw [execDecFrame, if_neg (by simp [hs]), require_ok (by simp [hs]) (by simp [hs]), canonicalSlots_eq]
  rw [hx, decSlots_header _ s h.eligible hs hb hh]
  have hl : s.framesLeft = decFrameBound := by simp [State.framesLeft, hs]
  have hbound : 1 ≤ decFrameBound := by decide
  generalize hu : ({ s with
    hdr := headerValue (s.slotByte 0) (s.slotByte 1) (s.slotByte 2) (s.slotByte 3)
    bidx := 4
    accesses := s.accesses ++ decTrace s.height.toNat 0 4 } : State) = u
  have hub : u.bidx.toNat = 4 := by subst hu; rfl
  have hue : u.eligible = true := by subst hu; exact h.eligible
  unfold completeHeader
  split_ifs with h1 h2
  · simp only [endDecFrame_raised]
    refine ⟨_, rfl, ⟨hue, nofun, nofun⟩, ?_⟩
    rw [hl]
    exact hbound
  · simp only [endDecFrame_leave]
    refine ⟨_, rfl, ⟨hue, nofun, nofun⟩, ?_⟩
    rw [hl]
    exact hbound
  · have hpos : 0 < u.hdr.toNat := Nat.pos_of_ne_zero fun e => h2 (BitVec.eq_of_toNat_eq (by simpa using e))
    have ht := u.total_lt
    have htot : State.total { u with state := .decPayload } = u.total := rfl
    have hut : u.total = 4 + u.hdr.toNat := rfl
    obtain ⟨pb, e, -⟩ := decSlots_payload 12 4 { u with state := .decPayload } hue rfl (by simp only [hub]; omega)
      (by simp only [hub, htot]; omega) (by simpa using h1)
    simp only [e]
    by_cases hend : u.bidx.toNat + min 12 (u.total - u.bidx.toNat) = u.total
    · simp only [htot, hend, if_true, endDecFrame_leave]
      refine ⟨_, rfl, ⟨hue, nofun, nofun⟩, ?_⟩
      rw [hl]
      exact hbound
    · simp only [htot, hend, if_false, endDecFrame_goOn]
      have hbn : (BitVec.ofNat 33 (u.bidx.toNat + min 12 (u.total - u.bidx.toNat))).toNat = 16 := by
        rw [BitVec.toNat_ofNat]; omega
      refine ⟨_, rfl, ⟨hue, nofun, fun _ => ⟨?_, ?_, by simpa using h1⟩⟩, ?_⟩
      · simp only [hbn]; omega
      · show _ < u.total
        simp only [hbn]; omega
      · rw [hl]
        show framesOf (u.total - _) + 1 ≤ _
        simp only [hbn, framesOf_eq, decFrameBound, Config.headerBytes]
        omega

/-- A DEC_FRAME of a decode in progress completes, keeps it sound, and uses up at least one of the frames left
(43_decoder R122). -/
theorem execDecFrame_progress {s : State} (h : s.decodeSound) (hd : isDecoding s.state = true) :
    ∃ t, execDecFrame s = .next t ∧ t.decodeSound ∧ t.framesLeft + 1 ≤ s.framesLeft := by
  rcases (by simpa [isDecoding] using hd : s.state = .decHeader ∨ s.state = .decPayload) with hs | hs
  · exact execDecFrame_header h hs
  · obtain ⟨t, h1, h2, h3⟩ := execDecFrame_payload h hs
    exact ⟨t, h1, h2, h3.le⟩

/-- An ENC_FRAME of an encode in progress completes, keeps it sound, and uses up one of the frames left, where any is
(42_encoder R103). -/
theorem execEncFrame_progress {s : State} (h : s.encodeSound) (hs : s.state = .encActive) :
    ∃ t, execEncFrame s = .next t ∧ t.encodeSound ∧ t.state = .encActive ∧ t.hdr = s.hdr ∧
      t.framesLeft = s.framesLeft - 1 := by
  have key : ∀ n k (s : State), s.eligible = true → (∀ j < n, s.byteExists (k + j)) →
      ∃ (fb' : Memory Nat) (acc : List CoreAccess), embedBytes k n s = .ok { s with fb := fb', accesses := acc } := by
    intro n
    induction n with
    | zero => exact fun _ s _ _ => ⟨s.fb, s.accesses, rfl⟩
    | succ n ih =>
      intro k s he hb
      obtain ⟨acc, e1⟩ := (coreStreamByte_cases k s).1 (hb 0 (by omega))
      obtain ⟨fb', acc', e2⟩ := (embedByte_cases (k % Config.slotsPerFrame) (s.streamByte k) { s with accesses := acc }).1
        (State.slotExists_of_eligible he _)
      obtain ⟨fb'', acc'', e3⟩ := ih (k + 1) { s with fb := fb', accesses := acc' } he fun j hj => by
        have := hb (j + 1) (by omega)
        rwa [show k + (j + 1) = k + 1 + j by omega] at this
      exact ⟨fb'', acc'', by simp only [embedBytes, e1, e2, e3]⟩
  have hp := h.position
  have hb := h.buffer
  have ht := s.total_lt
  have hut : s.total = 4 + s.hdr.toNat := rfl
  have hn := State.frameBytes_eq hp
  obtain ⟨fb', acc, e⟩ := key s.frameBytes.toNat s.bidx.toNat s h.eligible fun j hj => by
    rw [hn, Int.toNat_natCast] at hj
    simp only [State.byteExists]
    omega
  have hbn : (BitVec.ofInt 33 (s.bidx.toNat + s.frameBytes)).toNat =
      s.bidx.toNat + min 16 (s.total - s.bidx.toNat) := by
    rw [hn, ← Nat.cast_add, BitVec.ofInt_natCast, BitVec.toNat_ofNat]
    exact Nat.mod_eq_of_lt (by omega)
  have hx : execEncFrame s = endEncFrame s (embedBytes s.bidx.toNat s.frameBytes.toNat s) := by
    rw [execEncFrame, require_ok (by simp [hs]) (by simp [hs])]
  rw [hx, e, endEncFrame_ok]
  refine ⟨_, rfl, ⟨h.eligible, ?_, hb⟩, hs, rfl, ?_⟩
  · show _ ≤ s.total
    rw [hbn]
    omega
  · simp only [State.framesLeft, hs, framesOf_eq]
    show (s.total - _ + 15) / 16 = _
    rw [hbn]
    omega

-- Runs.

@[simp] theorem countWhile_zero (active : Ctl → Bool) (i : Instr) (s : State) : countWhile active i 0 s = (0, s) := rfl

/-- A run ends where STATE is not one of the operation's. -/
theorem countWhile_of_inactive {active : Ctl → Bool} {s : State} (i : Instr) (steps : Nat)
    (h : active s.state = false) : countWhile active i steps s = (0, s) := by
  cases steps <;> simp [countWhile, h]

/-- A run goes on from the next state, and counts the step where it ran the command. -/
theorem countWhile_succ {active : Ctl → Bool} {s t : State} (i : Instr) (steps : Nat) (ha : active s.state = true)
    (h : step s = .next t) :
    countWhile active i (steps + 1) s =
      ((if s.nextCommand = some i then 1 else 0) + (countWhile active i steps t).1,
        (countWhile active i steps t).2) := by
  rw [countWhile, if_pos ha, h]

end Sys2Proof.Machine
end

