-- ==== Sys2Proof/Tests/Slice0.lean ====
section
/-! SUPPORT. Tests. Expected results come from 95_test_vectors (the vector is named) or are worked out by hand from the
rule named. The theorems `hyps_<Name>` show a state and operands that meet every hypothesis of the obligation
`<Name>` together. -/

namespace Sys2Proof.Machine.Tests

open Sys2Proof
open Sys2Proof.Machine

-- Well-formedness: each check refuses an ill-formed term.

theorem test_rsvClear_refuses : rsvClear 0x00000111 = false := by decide
theorem test_opDefined_refuses : opDefined 0x0000007F = false := by decide
theorem test_wordWellFormed_refuses_rsv : wordWellFormed 0x80000000 = false := by decide
theorem test_wordWellFormed_refuses_op : wordWellFormed 0x00000004 = false := by decide
theorem test_wordWellFormed_accepts : wordWellFormed 0x00000021 = true := by decide
theorem test_sampleBitsOk_refuses : sampleBitsOk { sampleBits := 0, pbufBytes := 0 } = false := by decide
theorem test_pbufBytesOk_refuses : pbufBytesOk { sampleBits := 8, pbufBytes := 2 ^ 32 } = false := by decide
theorem test_paramsWellFormed_refuses : paramsWellFormed { sampleBits := 0, pbufBytes := 0 } = false := by decide
theorem test_paramsWellFormed_accepts : paramsWellFormed Config.defaultParams = true := by decide
theorem test_geometryOk_refuses : Geometry.ok { height := 2, width := 63, channels := 1 } = false := by decide

-- Decoding: the word of every command, written out bit by bit from 30_encoding R60 and R61.

theorem test_decode_nop : decode 0b00000000000000000000000000000000 = .ok .nop := by decide
theorem test_decode_clear : decode 0b00000000000000000000000000000001 = .ok .clear := by decide
theorem test_decode_slotQuery : decode 0b00000000000000000000000000000010 = .ok .slotQuery := by decide
theorem test_decode_capQuery : decode 0b00000000000000000000000000000011 = .ok .capQuery := by decide
theorem test_decode_encStart : decode 0b00000000000000000000000000010000 = .ok .encStart := by decide
theorem test_decode_encFrame : decode 0b00000000000000000000000000010001 = .ok .encFrame := by decide
theorem test_decode_decStart : decode 0b00000000000000000000000000011000 = .ok .decStart := by decide
theorem test_decode_decFrame : decode 0b00000000000000000000000000011001 = .ok .decFrame := by decide
theorem test_decode_eos : decode 0b00000000000000000000000000100000 = .ok .eos := by decide
theorem test_decode_srcFail : decode 0b00000000000000000000000000100001 = .ok .srcFail := by decide
/-- V74. -/
theorem test_decode_unknown : decode 0x0000007F = .error (.unknownOpcode 0x7F) := by decide
/-- V75. -/
theorem test_decode_reserved : decode 0x00000111 = .error .reservedBits := by decide
/-- The word of SRC_FAIL as the opcode table numbers its bits. -/
theorem test_decodeTableWord : decodeTableWord 32 0x21 = some .srcFail := by decide
/-- No two rows of the opcode map select the same word (30_encoding R61). -/
theorem test_opcodeMap_distinct : opcodeMap.Pairwise (fun a b => a.value ≠ b.value) := by decide

-- States for the tests.

/-- A block of 64 by 2 by 1 with 64 bytes of PBUF and 8-bit samples, in a state. -/
def box (st : Ctl) : State :=
  { State.reset with
    state := st
    width := 64
    height := 2
    channels := 1
    params := { sampleBits := 8, pbufBytes := 64 } }

/-- FB of that block with every sample the same. -/
def flat (v : Nat) : Memory Nat := { cells := (List.range 128).map fun i => (i, v), epoch := 0 }

/-- FB of that block as P1 leaves it, columns 0 to 47 of row 0: `81` at columns 30, 33, 36, 41, 42, 44 and 47, `80` at
the others. -/
def embeddedHi : Memory Nat :=
  { cells := (List.range 48).map fun i => (i, if [30, 33, 36, 41, 42, 44, 47].contains i then 0x81 else 0x80)
    epoch := 0 }

/-- A property of the next state; false where the step stops. -/
def nextIs (o : StepOutcome) (p : State → Bool) : Bool :=
  match o with
  | .next t => p t
  | .fault _ => false
  | .refused _ => false

/-- STATE, ERR, HDR, BIDX and FIDX, the state tuple of 95_test_vectors. -/
def tuple (s : State) : Ctl × ErrCode × Nat × Nat × Nat :=
  (s.state, s.err, s.hdr.toNat, s.bidx.toNat, s.fidx.toNat)

-- One step of each command.

/-- V70. -/
theorem test_nop_idle : exec .nop (box .idle) = .next (box .idle) := by rfl
/-- R140's example: BIDX stays 16. -/
theorem test_nop_payload :
    nextIs (exec .nop { box .decPayload with hdr := 20, bidx := 16, fidx := 1 })
      (fun t => tuple t == (.decPayload, .none, 20, 16, 1)) = true := by decide
/-- V80. -/
theorem test_clear_error :
    nextIs (exec .clear { box .error with err := .incompleteData, hdr := 20, bidx := 16, fidx := 1 })
      (fun t => tuple t == (.idle, .none, 0, 0, 0)) = true := by decide
/-- V85: configuration and PBUF are kept. -/
theorem test_clear_encActive :
    nextIs (exec .clear { box .encActive with hdr := 20, plenIn := 20, bidx := 16, pbuf := ⟨[(3, 0xA3)], 0⟩ })
      (fun t => tuple t == (.idle, .none, 0, 0, 0) && t.plenIn == 20 && t.payloadAt 3 == 0xA3) = true := by decide
/-- V12, the largest index. -/
theorem test_slotQuery_max :
    nextIs (exec .slotQuery { box .idle with height := 480, channels := 3, qidx := 0xFFFFFFFFF })
      (fun t => (t.qFrame, t.qSlot, t.qRow, t.qCol, t.qChan) == (0xFFFFFFFF, 15, 479, 56, 0)) = true := by decide
/-- V13: the Q registers are unchanged. -/
theorem test_slotQuery_narrow :
    nextIs (exec .slotQuery { box .idle with width := 63, qidx := 17, qRow := 9 })
      (fun t => tuple t == (.error, .dimensionError, 0, 0, 0) && t.qRow == 9) = true := by decide
/-- V20. -/
theorem test_capQuery_zero :
    nextIs (exec .capQuery (box .idle)) (fun t => t.capMax.toInt == -4 && t.capFits == 0) = true := by
  decide
/-- V29: `4 + L` does not wrap to 3. -/
theorem test_capQuery_no_wrap :
    nextIs (exec .capQuery { box .idle with frameCount := 0x10000000, plenIn := 0xFFFFFFFF })
      (fun t => t.capMax == 0x00000000FFFFFFFC && t.capFits == 0) = true := by decide
/-- V44, first line. -/
theorem test_encStart_fits :
    nextIs (exec .encStart { box .idle with frameCount := 1, plenIn := 12 })
      (fun t => tuple t == (.encActive, .none, 12, 0, 0)) = true := by decide
/-- V44: with WIDTH 32 and no frames the capacity is reported first. -/
theorem test_encStart_priority :
    nextIs (exec .encStart { box .idle with width := 32 })
      (fun t => tuple t == (.error, .capacityExceeded, 0, 0, 0)) = true := by decide
/-- V45: columns 0 to 31 become `FE`, column 32 stays `FF`. -/
theorem test_encFrame_empty :
    nextIs (exec .encFrame { box .encActive with fb := flat 0xFF })
      (fun t => tuple t == (.encActive, .none, 0, 4, 1) && t.sampleAt 0 0 0 == 0xFE && t.sampleAt 0 31 0 == 0xFE &&
        t.sampleAt 0 32 0 == 0xFF) = true := by decide
/-- P1: the header and "Hi", MSB first. -/
theorem test_encFrame_hi :
    nextIs (exec .encFrame { box .encActive with hdr := 2, pbuf := ⟨[(0, 0x48), (1, 0x69)], 0⟩, fb := flat 0x80 })
      (fun t => tuple t == (.encActive, .none, 2, 6, 1) &&
        [29, 30, 31, 33, 36, 41, 42, 43, 47, 48].map (fun c => t.sampleAt 0 c 0) ==
          [0x80, 0x81, 0x80, 0x81, 0x81, 0x81, 0x81, 0x80, 0x81, 0x80]) = true := by decide
/-- V51. -/
theorem test_decStart_accepts :
    nextIs (exec .decStart (box .idle)) (fun t => tuple t == (.decHeader, .none, 0, 0, 0)) = true := by decide
/-- V51: HEIGHT 1. -/
theorem test_decStart_low :
    nextIs (exec .decStart { box .idle with height := 1 })
      (fun t => tuple t == (.error, .dimensionError, 0, 0, 0)) = true := by decide
/-- P2. -/
theorem test_decFrame_hi :
    nextIs (exec .decFrame { box .decHeader with fb := embeddedHi })
      (fun t => tuple t == (.decDone, .none, 2, 6, 1) && t.pbuf.cells == [(0, 0x48), (1, 0x69)]) = true := by decide
/-- V53 with the small buffer. -/
theorem test_decFrame_buffer :
    nextIs (exec .decFrame { box .decHeader with fb := flat 0xFF })
      (fun t => tuple t == (.error, .bufferExceeded, 0xFFFFFFFF, 4, 0) && t.pbuf.cells == []) = true := by decide
/-- V47. -/
theorem test_eos_early :
    nextIs (exec .eos { box .encActive with hdr := 20, bidx := 16, fidx := 1 })
      (fun t => tuple t == (.error, .sourceUnavailable, 20, 16, 1)) = true := by decide
/-- R142's example: the encode of P1 ends. -/
theorem test_eos_done :
    nextIs (exec .eos { box .encActive with hdr := 2, bidx := 6, fidx := 1 })
      (fun t => tuple t == (.encDone, .none, 2, 6, 1)) = true := by decide
/-- V81. -/
theorem test_srcFail_payload :
    nextIs (exec .srcFail { box .decPayload with hdr := 20, bidx := 16, fidx := 1 })
      (fun t => tuple t == (.error, .sourceUnavailable, 20, 16, 1)) = true := by decide
/-- V73. -/
theorem test_srcFail_idle :
    nextIs (exec .srcFail (box .idle)) (fun t => tuple t == (.error, .illegalCommand, 0, 0, 0)) = true := by decide

-- Slots, and the step.

/-- V15: location (479, 13, 0) of frame 1 holds bit 2 of stream byte 25; the three others hold none. -/
theorem test_slotInverse :
    slotInverse 1 480 479 13 0 = some (25, 2) ∧ slotInverse 1 480 479 64 0 = none ∧
      slotInverse 1 480 477 0 0 = none ∧ slotInverse 1 480 479 13 1 = none := by decide
/-- V40: EmbedByte of `A5` into slot 9. -/
theorem test_embedByte :
    (match embedByte 9 0xA5 { box .idle with fb :=
        ⟨[(72, 0x10), (73, 0x11), (74, 0xFE), (75, 0xFF), (76, 0x00), (77, 0x01), (78, 0x80), (79, 0x7F)], 0⟩ } with
      | .ok t => t.fb.cells.map (·.2)
      | .error _ => []) = [0x11, 0x10, 0xFF, 0xFE, 0x00, 0x01, 0x80, 0x7F] := by decide
/-- V50: ExtractByte ignores the upper bits. -/
theorem test_slotByte :
    State.slotByte { box .idle with fb := ⟨[(0, 1), (1, 2), (2, 3), (3, 4), (4, 5), (5, 6), (6, 7), (7, 8)], 0⟩ } 0 =
      0xAA := by decide
/-- Right after reset a NOP runs and CMD answers that the write was done. -/
theorem test_step_fetches :
    nextIs (step (State.reset.withFetchWord 32 0)) (fun t => t.answer == some .done && t.state == .idle) = true := by
  decide

-- The hypotheses of every obligation that has some, met together.

/-- The state of an encode of 20 bytes after its first frame. -/
def encoding : State :=
  { box .encActive with frameCount := 2, plenIn := 20, hdr := 20, bidx := 16, fidx := 1, fb := ⟨[(0, 0x80), (127, 0xFF)], 0⟩ }

/-- The state of a decode of 20 bytes after its first frame. -/
def decoding : State := { box .decPayload with hdr := 20, bidx := 16, fidx := 1, fb := ⟨[(0, 0x80), (127, 0xFF)], 0⟩ }

/-- The state of a decode of two bytes at its end. -/
def decoded : State :=
  { box .decDone with hdr := 2, bidx := 6, fidx := 1, pbuf := ⟨[(0, 0x48), (1, 0x69)], 0⟩, fb := embeddedHi }

/-- The state of a decode before its first frame. -/
def starting : State := { box .decHeader with fb := embeddedHi }

theorem inv_box_idle : (box .idle).Inv :=
  ⟨by decide, by decide, by decide, by decide, by decide, by decide, by decide,
    by simp [State.operating, box], by simp [State.operating, box], by decide, by decide, by decide, by decide,
    by decide⟩

theorem inv_encoding : encoding.Inv :=
  ⟨by decide, by decide, by decide, by decide, by decide, by decide, by decide, fun _ => by decide,
    fun _ => by decide, by decide, by decide, by decide, by decide, by decide⟩

theorem inv_decoding : decoding.Inv :=
  ⟨by decide, by decide, by decide, by decide, by decide, by decide, by decide, fun _ => by decide,
    fun _ => by decide, by decide, by decide, by decide, by decide, by decide⟩

theorem inv_decoded : decoded.Inv :=
  ⟨by decide, by decide, by decide, by decide, by decide, by decide, by decide, fun _ => by decide,
    fun _ => by decide, by decide, by decide, by decide, by decide, by decide⟩

theorem inv_starting : starting.Inv :=
  ⟨by decide, by decide, by decide, by decide, by decide, by decide, by decide, fun _ => by decide,
    fun _ => by decide, by decide, by decide, by decide, by decide, by decide⟩

/-- STATUS and ERR at their offsets: 7 and 2 after a raised DimensionError (30_encoding R63, R65, R66). -/
theorem test_read_status_err :
    access (.regRead 0x04 32) ((box .idle).raise .dimensionError) =
        .next (((box .idle).raise .dimensionError).answered (.word 7)) ∧
      access (.regRead 0x08 32) ((box .idle).raise .dimensionError) =
        .next (((box .idle).raise .dimensionError).answered (.word 2)) := ⟨rfl, rfl⟩

theorem hyps_EncodedCommandDecodesToItself : Instr.wellFormed .srcFail = true := by decide

theorem hyps_OnlyTheTenWordsDecode :
    (∀ i : Instr, (0x0000007F : Word) ≠ encode i) ∧ (∀ i : Instr, (0x00000111 : Word) ≠ encode i) ∧
      (0x00000021 : Word) = encode .srcFail :=
  ⟨fun i => by cases i <;> decide, fun i => by cases i <;> decide, by decide⟩

theorem hyps_StepRunsTheDecodedCommand :
    ({ box .idle with pending := [.regWrite 0x00 32 0x02, .reset] } : State).pending =
      .regWrite 0x00 32 0x02 :: [.reset] ∧ decode 0x02 = .ok .slotQuery := ⟨rfl, by decide⟩

theorem hyps_IllegalWordRaisesOrIsIgnored :
    ({ box .error with pending := [.regWrite 0x00 32 0x7F] } : State).pending = .regWrite 0x00 32 0x7F :: [] ∧
      decode 0x7F = .error (.unknownOpcode 0x7F) ∧
      ({ box .error with pending := [.regWrite 0x00 32 0x7F] } : State).state = .error ∧
      ({ box .encDone with pending := [.regWrite 0x00 32 0x111] } : State).pending = .regWrite 0x00 32 0x111 :: [] ∧
      decode 0x111 = .error .reservedBits ∧
      ({ box .encDone with pending := [.regWrite 0x00 32 0x111] } : State).state ≠ .error :=
  ⟨rfl, by decide, rfl, rfl, by decide, by decide⟩

/-- An error that another command meets, and one that CLEAR meets. -/
theorem hyps_ErrorIgnoresAllButClear :
    ((box .error).state = .error ∧ Instr.encStart ≠ .clear) ∧
      (let s : State := { box .error with pending := [cmd .encStart] };
        s.state = .error ∧ s.nextCommand ≠ some .clear ∧ ∀ rest, s.pending ≠ .reset :: rest) ∧
      ({ box .error with pending := [cmd .clear] } : State).nextCommand = some .clear :=
  ⟨by decide, ⟨rfl, by decide, fun rest h => absurd (List.head_eq_of_cons_eq h) (by decide)⟩, by decide⟩

theorem hyps_IllegalCellsRaiseIllegalCommand : transition .encFrame (box .encDone).state = .ill := by decide

theorem hyps_EveryCommandFollowsTheTransitionTable : encoding.Inv := inv_encoding

theorem hyps_IdleLeadsOnlyToStartedStates :
    ((box .idle).state = .idle ∧ ∃ t, exec .decStart (box .idle) = .next t) ∧
      ({ box .idle with pending := [cmd .decStart] } : State).state = .idle ∧
      ∃ t, step { box .idle with pending := [cmd .decStart] } = .next t := ⟨⟨rfl, _, rfl⟩, rfl, _, rfl⟩

theorem hyps_OnlyCommandsChangeState :
    (box .idle).pending = [] ∧
      ({ decoded with pending := [.payRead 1] } : State).pending = .payRead 1 :: [] ∧
      isCommand (.payRead 1) = false ∧ HostAccess.payRead 1 ≠ .reset ∧
      ∃ t, step { decoded with pending := [.payRead 1] } = .next t := ⟨rfl, rfl, rfl, by decide, _, rfl⟩

theorem hyps_ClearReturnsToIdle :
    ((box .idle).Inv ∧ (box .idle).state = .idle) ∧ ((box .error).state = .error ∧ Instr.nop ≠ .clear) ∧
      ∃ t, exec .clear (box .error) = .next t := ⟨⟨inv_box_idle, rfl⟩, by decide, _, rfl⟩

theorem hyps_SlotQueryWritesTheLocation :
    ((box .idle).state = .idle ∧ 64 ≤ (box .idle).width.toNat ∧ 2 ≤ (box .idle).height.toNat ∧
      1 ≤ (box .idle).channels.toNat) ∧
      ({ box .idle with width := 63 } : State).width.toNat < 64 ∧
      encoding.state ≠ .idle ∧ encoding.state ≠ .error ∧ (box .error).state = .error := by decide

/-- Both sides of the boundary: `4 + 12 = 16` and `4 + 13 = 17`. -/
theorem hyps_CapQueryComputesCapacity :
    (box .idle).state = .idle ∧
      4 + ({ box .idle with frameCount := 1, plenIn := 12 } : State).plenIn.toNat ≤
        16 * ({ box .idle with frameCount := 1, plenIn := 12 } : State).frameCount.toNat ∧
      16 * ({ box .idle with frameCount := 1, plenIn := 13 } : State).frameCount.toNat <
        4 + ({ box .idle with frameCount := 1, plenIn := 13 } : State).plenIn.toNat ∧
      encoding.state ≠ .idle ∧ encoding.state ≠ .error ∧ (box .error).state = .error := by decide

/-- Every bound met with equality: 12 bytes in one frame of 64 by 2 by 1, in a buffer of 12. -/
theorem hyps_EncStartBeginsAnEncode :
    let s : State := { box .idle with frameCount := 1, plenIn := 12, params := { sampleBits := 1, pbufBytes := 12 } }
    s.state = .idle ∧ 4 + s.plenIn.toNat ≤ 16 * s.frameCount.toNat ∧ 64 ≤ s.width.toNat ∧ 2 ≤ s.height.toNat ∧
      1 ≤ s.channels.toNat ∧ s.plenIn.toNat ≤ s.params.pbufBytes := by decide

theorem hyps_EncStartReportsTheFirstFailingCheck :
    (box .idle).state = .idle ∧
      encoding.state ≠ .idle ∧ encoding.state ≠ .error ∧ (box .error).state = .error := by decide

theorem hyps_IneligibleGeometryRaisesDimensionError :
    (box .idle).state = .idle ∧ ({ box .idle with width := 63 } : State).width.toNat < 64 ∧
      ({ box .idle with height := 1 } : State).height.toNat < 2 ∧
      ({ box .idle with channels := 0 } : State).channels.toNat = 0 ∧
      4 + ({ box .idle with width := 63, frameCount := 1 } : State).plenIn.toNat ≤
        16 * ({ box .idle with width := 63, frameCount := 1 } : State).frameCount.toNat ∧
      ({ box .idle with width := 63 } : State).Inv := by
  refine ⟨by decide, by decide, by decide, by decide, by decide, ?_⟩
  exact ⟨by decide, by decide, by decide, by decide, by decide, by decide, by decide,
    by simp [State.operating, box], by simp [State.operating, box], by decide, by decide, by decide, by decide,
    by decide⟩

theorem hyps_EncStartAgreesWithCapQuery :
    (box .idle).state = .idle ∧ ∃ t, exec .capQuery (box .idle) = .next t := ⟨rfl, _, rfl⟩

/-- The last byte, 23, and its last lane lie in the range; the location (1, 0, 0) is no lane of the eight bytes. -/
theorem hyps_EncFrameEmbedsTheNextBytes :
    encoding.state = .encActive ∧ encoding.eligible = true ∧ 1 ≤ encoding.params.sampleBits ∧
      encoding.hdr.toNat ≤ encoding.params.pbufBytes ∧ encoding.bidx.toNat ≤ 4 + encoding.hdr.toNat ∧
      (encoding.bidx.toNat ≤ 23 ∧
        23 < encoding.bidx.toNat + min 16 (4 + encoding.hdr.toNat - encoding.bidx.toNat) ∧ 7 < 8) ∧
      encoding.pixExists 1 0 0 = true ∧
      (∀ k i, encoding.bidx.toNat ≤ k →
        k < encoding.bidx.toNat + min 16 (4 + encoding.hdr.toNat - encoding.bidx.toNat) → i < 8 →
          ¬ (1 = (encoding.height.toNat - 2) + k % 16 / 8 ∧ 0 = 8 * (k % 8) + i ∧ (0 : Nat) = 0)) := by
  refine ⟨by decide, by decide, by decide, by decide, by decide, by decide, by decide, ?_⟩
  intro k i h1 h2 _ h
  have hb : encoding.bidx.toNat = 16 := by decide
  have hh : encoding.hdr.toNat = 20 := by decide
  have hg : encoding.height.toNat = 2 := by decide
  omega

theorem hyps_EncFrameAfterTheStreamOnlyCounts :
    ({ encoding with bidx := 24 } : State).state = .encActive ∧
      ({ encoding with bidx := 24 } : State).bidx.toNat = 4 + ({ encoding with bidx := 24 } : State).hdr.toNat := by
  decide

/-- With an exhausted stream and a 65th column; the column lies outside SLOTSET. -/
theorem hyps_EncFrameIsLocal :
    let s : State := { encoding with bidx := 24, width := 65 }
    (∃ t, exec .encFrame s = .next t) ∧ s.pixExists 1 64 0 = true ∧ ¬ s.inSlotSet 1 64 0 :=
  ⟨⟨_, rfl⟩, by decide, fun h => absurd h.2.2.1 (by decide)⟩

theorem hyps_HeaderBitsLieMsbFirst :
    let s : State := { box .encActive with fb := flat 0xFF }
    s.state = .encActive ∧ s.eligible = true ∧ 1 ≤ s.params.sampleBits ∧ s.hdr.toNat ≤ s.params.pbufBytes ∧
      s.bidx = 0 ∧ (∃ t, exec .encFrame s = .next t) ∧ 31 < 32 :=
  ⟨rfl, by decide, by decide, by decide, rfl, ⟨_, rfl⟩, by decide⟩

theorem hyps_DecStartBeginsADecode :
    ((box .idle).state = .idle ∧ 64 ≤ (box .idle).width.toNat ∧ 2 ≤ (box .idle).height.toNat ∧
      1 ≤ (box .idle).channels.toNat) ∧
      ({ box .idle with height := 1 } : State).height.toNat < 2 ∧
      encoding.state ≠ .idle ∧ encoding.state ≠ .error ∧ (box .error).state = .error := by decide

/-- The declared length 2 against a buffer of 1 and a buffer of 2. -/
theorem hyps_DecFrameReadsTheHeader :
    starting.state = .decHeader ∧ starting.eligible = true ∧ starting.bidx = 0 ∧ starting.hdr = 0 ∧
      2 = (starting.slotByte 0).toNat * 2 ^ 24 + (starting.slotByte 1).toNat * 2 ^ 16 +
        (starting.slotByte 2).toNat * 2 ^ 8 + (starting.slotByte 3).toNat ∧
      ({ starting with params := { sampleBits := 8, pbufBytes := 1 } } : State).params.pbufBytes < 2 ∧
      2 ≤ ({ starting with params := { sampleBits := 8, pbufBytes := 2 } } : State).params.pbufBytes ∧
      (0 < min 16 (4 + 2) - 4 ∧ min 16 (4 + 2) - 4 ≤ 2) := by decide

theorem hyps_DecFrameReadsThePayload :
    decoding.state = .decPayload ∧ decoding.eligible = true ∧ 4 ≤ decoding.bidx.toNat ∧
      decoding.bidx.toNat < 4 + decoding.hdr.toNat ∧ decoding.hdr.toNat ≤ decoding.params.pbufBytes ∧
      7 < min 16 (4 + decoding.hdr.toNat - decoding.bidx.toNat) ∧ 11 < decoding.bidx.toNat - 4 ∧
      decoding.bidx.toNat - 4 + min 16 (4 + decoding.hdr.toNat - decoding.bidx.toNat) ≤ 20 := by decide

theorem hyps_SlotByteIsMsbFirst : 15 < 16 ∧ 7 < 8 := by decide

theorem hyps_DecFrameWhenDoneHasNoEffect : decoded.state = .decDone := rfl

/-- Two frames that differ in bit 1 of one sample. -/
theorem hyps_DecFrameReadsOnlySlotLsbs :
    let s : State := { decoded with fb := ⟨[(0, 0x81)], 0⟩ }
    let m : Memory Nat := ⟨[(0, 0x83)], 0⟩
    s.eligible = true ∧
      (∀ row col ch, s.inSlotSet row col ch → (s.withFb m).sampleAt row col ch % 2 = s.sampleAt row col ch % 2) ∧
      ∃ t, exec .decFrame s = .next t := by
  refine ⟨by decide, fun row col ch _ => ?_, _, rfl⟩
  have key : ∀ a e p, (match (⟨[(0, 0x83)], e⟩ : Memory Nat).lookup a with | some v => v | none => p) % 2 =
      (match (⟨[(0, 0x81)], e⟩ : Memory Nat).lookup a with | some v => v | none => p) % 2 := by
    intro a e p
    by_cases h : a = 0 <;> simp [Memory.lookup, lookupCell, h]
  exact key _ _ _

theorem hyps_DecoderIgnoresFrameCount :
    (Instr.decStart = .decStart ∨ Instr.decStart = .decFrame) ∧ (∃ t, exec .decStart (box .idle) = .next t) ∧
      (Instr.decFrame = .decStart ∨ Instr.decFrame = .decFrame) ∧ ∃ t, exec .decFrame decoded = .next t :=
  ⟨.inl rfl, ⟨_, rfl⟩, .inr rfl, ⟨_, rfl⟩⟩

theorem hyps_EosEndsTheSource :
    (({ encoding with bidx := 24 } : State).state = .encActive ∧
      ({ encoding with bidx := 24 } : State).bidx.toNat = 4 + ({ encoding with bidx := 24 } : State).hdr.toNat) ∧
      (({ encoding with bidx := 23 } : State).state = .encActive ∧
        ({ encoding with bidx := 23 } : State).bidx.toNat ≠ 4 + ({ encoding with bidx := 23 } : State).hdr.toNat) ∧
      starting.state = .decHeader ∧ decoding.state = .decPayload ∧ (box .encDone).state = .encDone ∧
      decoded.state = .decDone ∧ (box .idle).state = .idle ∧ (box .error).state = .error := by decide

theorem hyps_SrcFailReportsTheSource :
    encoding.state = .encActive ∧ starting.state = .decHeader ∧ decoding.state = .decPayload ∧
      (box .encDone).state = .encDone ∧ decoded.state = .decDone ∧ (box .idle).state = .idle ∧
      (box .error).state = .error := by decide

/-- The decode before its first frame with a buffer of one byte. -/
def tight : State := { starting with params := { sampleBits := 8, pbufBytes := 1 } }

theorem inv_tight : tight.Inv :=
  ⟨by decide, by decide, by decide, by decide, by decide, by decide, by decide, fun _ => by decide,
    fun _ => by decide, by decide, by decide, by decide, by decide, by decide⟩

/-- A command that is not permitted; and the decode of two bytes with a buffer of one. -/
theorem hyps_ErrorsArePrecise :
    ((box .idle).Inv ∧ (box .idle).state ≠ .error ∧
      exec .encFrame (box .idle) = .next ((box .idle).raise .illegalCommand) ∧
      ((box .idle).raise .illegalCommand).state = .error ∧
      (((box .idle).raise .illegalCommand).err ≠ .bufferExceeded ∨ Instr.encFrame ≠ .decFrame)) ∧
      tight.Inv ∧ tight.state ≠ .error ∧
      ∃ t, exec .decFrame tight = .next t ∧ t.state = .error ∧ t.err = .bufferExceeded :=
  ⟨⟨inv_box_idle, by decide, rfl, rfl, by decide⟩, inv_tight, by decide, _, rfl, rfl, rfl⟩

/-- An access that R46 refuses and one that it does not. -/
theorem hyps_RefusedAccessesChangeNothing :
    isCommand (.regWrite 0x0C 32 128) = false ∧ HostAccess.regWrite 0x0C 32 128 ≠ .reset ∧
      refusedAccess (.regWrite 0x0C 32 128) encoding = true ∧
      refusedAccess (.regWrite 0x0C 32 128) (box .idle) = false := by decide

/-- The last register, and the two ends of the offsets with none; BIDX of 16, read in its two words. -/
theorem hyps_RegisterMapIsOneToOne :
    regAt 0x54 = some .hdr ∧ 0x55 % 4 ≠ 0 ∧ 0x58 ≤ 0x58 ∧
      (Reg.bidxLo, 0x48, encoding.bidx.toNat % 2 ^ 32) ∈
        [(Reg.bidxLo, 0x48, encoding.bidx.toNat % 2 ^ 32), (.bidxHi, 0x4C, encoding.bidx.toNat / 2 ^ 32)] := by decide

theorem hyps_ConfigurationWordsReadBack :
    (box .idle).state = .idle ∧
      (Reg.qidxHi, (0xF : Word)) ∈ [(Reg.width, (0xFFFF : Word)), (.height, 0xFFFF), (.channels, 0xFF),
        (.frameCount, 0xFFFFFFFF), (.plenIn, 0xFFFFFFFF), (.qidxLo, 0xFFFFFFFF), (.qidxHi, 0xF)] ∧
      Reg.qidxLo ≠ .qidxHi := by decide

theorem hyps_ReadsChangeNothing :
    (∃ offset bits, HostAccess.regRead 0x54 32 = .regRead offset bits) ∧
      (∃ i, HostAccess.payRead 0 = .payRead i) ∧
      ∃ row col ch, HostAccess.pixRead 1 63 0 = .pixRead row col ch :=
  ⟨⟨_, _, rfl⟩, ⟨_, rfl⟩, _, _, _, rfl⟩

/-- The last location and the largest sample; another location that exists. -/
theorem hyps_SampleWriteThenRead :
    (box .encActive).pixExists 1 63 0 = true ∧ 255 < 2 ^ (box .encActive).params.sampleBits ∧
      (box .encActive).pixExists 1 62 0 = true ∧ ((1, 62, 0) : Nat × Nat × Nat) ≠ (1, 63, 0) := by decide

theorem hyps_PayloadWriteInIdleIsNotReadable :
    (box .idle).state = .idle ∧ 63 < (box .idle).params.pbufBytes ∧ 62 ≠ 63 := by decide

/-- Index 1 is the last that is readable with HDR 2, index 2 the first that is not. -/
theorem hyps_PayloadReadWindow :
    (decoded.state = .decDone ∧ decoded.hdr.toNat ≤ decoded.params.pbufBytes ∧ 1 < decoded.hdr.toNat) ∧
      decoded.hdr.toNat ≤ 2 ∧ decoding.state ≠ .decDone := by decide

theorem hyps_ConfigurationIsLockedOutsideIdle :
    let s : State := { encoding with pending := [.regWrite 0x0C 32 128] }
    s.state ≠ .idle ∧ (∀ rest, s.pending ≠ .reset :: rest) ∧ ∃ t, step s = .next t :=
  ⟨by decide, fun rest h => absurd (List.head_eq_of_cons_eq h) (by decide), _, rfl⟩

theorem hyps_CanonicalMemoriesAreEqualData :
    Memory.wf (⟨[(0, 0x48), (5, 0x69)], 1⟩ : Memory Byte) = true ∧
      (Memory.insert (⟨[(5, 0x69)], 1⟩ : Memory Byte) 0 0x48).wf = true ∧
      (⟨[(0, 0x48), (5, 0x69)], 1⟩ : Memory Byte).epoch = (Memory.insert (⟨[(5, 0x69)], 1⟩ : Memory Byte) 0 0x48).epoch ∧
      ∀ a, (⟨[(0, 0x48), (5, 0x69)], 1⟩ : Memory Byte).lookup a =
        (Memory.insert (⟨[(5, 0x69)], 1⟩ : Memory Byte) 0 0x48).lookup a :=
  ⟨by decide, by decide, rfl, fun _ => rfl⟩

/-- The same for a memory of samples. -/
theorem hyps_CanonicalMemoriesAreEqualData_samples :
    Memory.wf (⟨[(0, 0x80), (127, 0xFF)], 0⟩ : Memory Nat) = true ∧
      (Memory.insert (⟨[(127, 0xFF)], 0⟩ : Memory Nat) 0 0x80).wf = true ∧
      (⟨[(0, 0x80), (127, 0xFF)], 0⟩ : Memory Nat).epoch = (Memory.insert (⟨[(127, 0xFF)], 0⟩ : Memory Nat) 0 0x80).epoch ∧
      ∀ a, (⟨[(0, 0x80), (127, 0xFF)], 0⟩ : Memory Nat).lookup a =
        (Memory.insert (⟨[(127, 0xFF)], 0⟩ : Memory Nat) 0 0x80).lookup a :=
  ⟨by decide, by decide, rfl, fun _ => rfl⟩

theorem hyps_SlotForStaysInTheFrame :
    2 ≤ 65535 ∧ 65535 ≤ 65535 ∧ 64 ≤ 64 ∧ 1 ≤ 1 ∧ 7 < 8 ∧ 2 ^ 36 - 1 < 2 ^ 36 := by decide

theorem hyps_SlotForAtBitLevel : 7 < 8 := by decide

theorem hyps_SlotInverseInvertsSlotFor :
    2 ≤ 2 ∧ slotInverse 1 2 1 13 0 = some (25, 2) ∧ 7 < 8 ∧ (slotFor 25 2).frame = (slotFor 25 2).frame ∧
      (slotFor 25 2).row = (slotFor 25 2).row ∧ (slotFor 25 2).col 7 = (slotFor 25 2).col 7 := by decide

theorem hyps_ExtractAfterEmbedReturnsTheByte :
    (box .idle).eligible = true ∧ 15 < 16 ∧ 1 ≤ (box .idle).params.sampleBits := by decide

theorem hyps_CoreTouchesOnlySlotSet : decoded.Inv ∧ ∃ t, exec .decFrame decoded = .next t :=
  ⟨inv_decoded, _, rfl⟩

/-- The last eight bytes of an encode; a whole decode in one frame. -/
theorem hyps_FrameAccessesAreCounted :
    (encoding.Inv ∧ ∃ t, exec .encFrame encoding = .next t) ∧ starting.Inv ∧ ∃ t, exec .decFrame starting = .next t :=
  ⟨⟨inv_encoding, _, rfl⟩, inv_starting, _, rfl⟩

theorem inv_starting_pending (l : List HostAccess) : ({ starting with pending := l } : State).Inv := by
  obtain ⟨a1, a2, a3, a4, a5, a6, a7, a8, a9, a10, a11, a12, a13, a14⟩ := inv_starting
  exact ⟨a1, a2, a3, a4, a5, a6, a7, a8, a9, a10, a11, a12, a13, a14⟩

/-- A decode of 20 bytes that has read 16 of the 24 stream bytes, and its next frame command. -/
def halfRead : State := { decoding with pbuf := ⟨[(0, 0x48), (11, 0x69)], 0⟩, pending := [cmd .decFrame] }

theorem inv_halfRead : halfRead.Inv :=
  ⟨by decide, by decide, by decide, by decide, by decide, by decide, by decide, fun _ => by decide,
    fun _ => by decide, by decide, by decide, by decide, by decide, by decide⟩

/-- The bytes it has read: the header 20, and what PBUF holds of the payload. -/
def halfReadBytes : List Byte := [0, 0, 0, 20] ++ (List.range 12).map halfRead.payloadAt

/-- Each clause of the history: nothing read yet; 16 of 24 bytes read; a stream of six bytes read to its end. -/
theorem hyps_EveryStepKeepsTheInvariant :
    (({ starting with pending := [cmd .decFrame] } : State).Inv ∧
      ({ starting with pending := [cmd .decFrame] } : State).HoldsRead [] ∧
      ∃ t, step { starting with pending := [cmd .decFrame] } = .next t) ∧
    (halfRead.Inv ∧ halfRead.HoldsRead halfReadBytes ∧ halfReadBytes.getD 4 0 = 0x48 ∧
      halfReadBytes.getD 15 0 = 0x69 ∧ ∃ t, step halfRead = .next t) ∧
    (decoded.Inv ∧ decoded.HoldsRead [0, 0, 0, 2, 0x48, 0x69] ∧ ∃ t, step decoded = .next t) := by
  refine ⟨⟨inv_starting_pending _, ⟨fun _ => rfl, nofun, nofun⟩, _, rfl⟩,
    ⟨inv_halfRead, ⟨nofun, fun _ => ⟨rfl, by decide, fun i hi => ?_⟩, nofun⟩, by decide, by decide, _, rfl⟩,
    ⟨inv_decoded, ⟨nofun, nofun, fun _ => ⟨rfl, by decide, fun i hi => ?_⟩⟩, _, rfl⟩⟩
  · have h12 : i < 12 := Nat.lt_of_add_lt_add_left (n := 4) hi
    simp [halfReadBytes, Nat.add_comm 4 i, h12]
  · have h2 : i < 2 := Nat.lt_of_add_lt_add_left (n := 4) hi
    interval_cases i <;> decide

theorem hyps_NoStepStopsUnderTheInvariant : ({ starting with pending := [cmd .decFrame] } : State).Inv :=
  inv_starting_pending _

/-- Clause by clause: an encode with all its locations; one whose first payload byte is beyond PBUF, and one on frames
of one row; a decode on such a frame; one with BIDX 3; one that fills PBUF exactly, and one with a byte too many. -/
theorem hyps_MissingLocationsStopTheCore :
    encoding.state = .encActive ∧
      (let s : State := { box .encActive with hdr := 1, bidx := 4, params := { sampleBits := 8, pbufBytes := 0 } };
        s.state = .encActive ∧ s.bidx.toNat ≤ 4 ∧ 4 < s.bidx.toNat + min 16 (4 + s.hdr.toNat - s.bidx.toNat) ∧
          ¬ s.byteExists 4) ∧
      (let s : State := { box .encActive with height := 1 };
        s.state = .encActive ∧ s.bidx.toNat ≤ 0 ∧ 0 < s.bidx.toNat + min 16 (4 + s.hdr.toNat - s.bidx.toNat) ∧
          s.byteExists 0 ∧ ¬ s.slotExists 0) ∧
      (let s : State := { box .decHeader with height := 1 };
        s.state = .decHeader ∧ ¬ s.slotExists 0) ∧
      (let s : State := { box .decPayload with bidx := 3 };
        s.state = .decPayload ∧ s.eligible = true ∧ s.bidx.toNat < 4) ∧
      (let s : State := { decoding with params := { sampleBits := 8, pbufBytes := 20 } };
        s.state = .decPayload ∧ s.eligible = true ∧ 4 ≤ s.bidx.toNat ∧ s.bidx.toNat < 4 + s.hdr.toNat ∧
          s.bidx.toNat - 4 + min 16 (4 + s.hdr.toNat - s.bidx.toNat) = s.params.pbufBytes) ∧
      (let s : State := { decoding with params := { sampleBits := 8, pbufBytes := 19 } };
        s.params.pbufBytes < s.bidx.toNat - 4 + min 16 (4 + s.hdr.toNat - s.bidx.toNat)) :=
  ⟨rfl, ⟨rfl, by decide, by decide, fun h => absurd (show 4 ≤ 3 ∨ 4 - 4 < 0 from h) (by decide)⟩,
    ⟨rfl, by decide, by decide, .inl (by decide), fun h => absurd h.1 (by decide)⟩,
    ⟨rfl, fun h => absurd h.1 (by decide)⟩, by decide, by decide, by decide⟩

/-- Two frames, unlike in their samples; and an encode of no byte from its ENC_START on, with a register read before its
one ENC_FRAME. -/
theorem hyps_EncodeReachesTheEndOfTheStream :
    (encoding.Inv ∧ encoding.state = .encActive ∧
      (4 + encoding.hdr.toNat + 15) / 16 ≤ [flat 0x80, flat 0xFF].length) ∧
    (let s : State := { box .idle with
        frameCount := 1, fb := flat 0xFF, pending := [cmd .encStart, .regRead 0x04 32, cmd .encFrame] };
      s.nextCommand = some .encStart ∧
        ∃ t u, step s = .next t ∧ countWhile isEncoding .encFrame 2 t = (1, u) ∧ u.state = .encActive ∧
          framesOf t.total ≤ 1) :=
  ⟨⟨inv_encoding, rfl, by decide⟩, by decide, _, _, rfl, rfl, rfl, by decide⟩

theorem hyps_DecodeTerminates :
    (starting.Inv ∧ starting.state = .decHeader) ∧ (decoding.Inv ∧ decoding.state = .decPayload) ∧
      2 ^ 28 + 1 ≤ (List.replicate (2 ^ 28 + 1) (flat 0x80)).length ∧
      (let s : State := { box .idle with fb := embeddedHi, pending := [cmd .decStart, cmd .decFrame] };
        s.nextCommand = some .decStart ∧
          ∃ t, step s = .next t ∧ (countWhile isDecoding .decFrame 1 t).1 = 1) :=
  ⟨⟨inv_starting, rfl⟩, ⟨inv_decoding, rfl⟩, by rw [List.length_replicate], by decide, _, rfl, rfl⟩

/-- Two bytes in one frame of the smallest geometry, in a buffer of two. -/
theorem hyps_DecodeOfEncodeIsThePayload :
    let g : Geometry := { height := 2, width := 64, channels := 1 }
    g.ok = true ∧ (∀ f ∈ [List.replicate 128 0x80], f.length = g.samples) ∧
      ([0x48, 0x69] : List Byte).length < 2 ^ 32 ∧
      4 + ([0x48, 0x69] : List Byte).length ≤ 16 * [List.replicate 128 0x80].length ∧
      ([0x48, 0x69] : List Byte).length ≤ 2 :=
  ⟨by decide, by simp [Geometry.samples], by decide, by simp, by decide⟩

/-- Success and an unreadable second frame; then the three checks of ENC_START, each failing at its boundary. -/
theorem hyps_EncodeProcedureComputesEncode :
    let g : Geometry := { height := 2, width := 64, channels := 1 }
    let p : List Byte := [0x48, 0x69]
    ((box .idle).state = .idle ∧ 1 ≤ (box .idle).params.sampleBits ∧ g.ok = true ∧
      (∀ f ∈ [List.replicate 128 0x80],
        f.length = g.samples ∧ ∀ v ∈ f, v < 2 ^ (box .idle).params.sampleBits) ∧
      p.length < 2 ^ 32 ∧ p.length ≤ (box .idle).params.pbufBytes ∧
      [List.replicate 128 0x80].length < 2 ^ 32 ∧ 4 + p.length ≤ 16 * [List.replicate 128 0x80].length ∧
      [List.replicate 128 0x80].length + 1 + ([] : List (Option Frame)).length < 2 ^ 32 ∧
      4 + p.length ≤ 16 * ([List.replicate 128 0x80].length + 1 + ([] : List (Option Frame)).length)) ∧
    (g.width < 2 ^ 16 ∧ g.height < 2 ^ 16 ∧ g.channels < 2 ^ 8 ∧
      16 * ([none] : List (Option Frame)).length < 4 + (List.replicate 13 (0x48 : Byte)).length) ∧
    (4 + (List.replicate 12 (0x48 : Byte)).length ≤ 16 * ([none] : List (Option Frame)).length ∧
      Geometry.width { g with width := 63 } < 64) ∧
    ({ box .idle with params := { sampleBits := 8, pbufBytes := 1 } } : State).params.pbufBytes < p.length :=
  ⟨⟨rfl, by decide, by decide, by simp [Geometry.samples, box], by decide, by decide, by simp, by simp, by simp,
    by simp⟩, by decide, by decide, by decide⟩

/-- One readable frame; and the geometries just below the three limits. -/
theorem hyps_DecodeProcedureComputesDecode :
    let g : Geometry := { height := 2, width := 64, channels := 1 }
    ((box .idle).state = .idle ∧ g.ok = true ∧
      ∀ f ∈ [List.replicate 128 0x80],
        f.length = g.samples ∧ ∀ v ∈ f, v < 2 ^ (box .idle).params.sampleBits) ∧
    (g.width < 2 ^ 16 ∧ g.height < 2 ^ 16 ∧ g.channels < 2 ^ 8) ∧
    Geometry.width { g with width := 63 } < 64 ∧ Geometry.height { g with height := 1 } < 2 ∧
    Geometry.channels { g with channels := 0 } = 0 :=
  ⟨⟨rfl, by decide, by simp [Geometry.samples, box]⟩, by decide, by decide, by decide, by decide⟩

end Sys2Proof.Machine.Tests
end

section
/-! PROOF. The register map (30_encoding R63 to R66): offsets and registers correspond one to one, and a word read at
a register's offset answers the number that the register holds, the wider registers as two words. -/

namespace Sys2Proof.Machine

-- Offsets.

/-- Exactly the register's own offset finds the register (30_encoding R63). -/
theorem regAt_eq_some {offset : Nat} {r : Reg} : regAt offset = some r ↔ regOffset r = offset := by
  constructor
  · intro h
    rw [regAt] at h
    exact eq_of_beq (List.find?_some (p := fun r => regOffset r == offset) h)
  · rintro rfl
    cases r <;> rfl

@[simp] theorem regAt_regOffset (r : Reg) : regAt (regOffset r) = some r := regAt_eq_some.2 rfl

/-- Every register stands at a multiple of 4 below the end of the map (30_encoding R63). -/
theorem regOffset_aligned (r : Reg) : regOffset r % 4 = 0 ∧ regOffset r < 0x58 := by
  cases r <;> decide

/-- Misaligned offsets and those past the map are empty (20_memory R46 item 1). -/
theorem regAt_eq_none {offset : Nat} (h : offset % 4 ≠ 0 ∨ 0x58 ≤ offset) : regAt offset = none := by
  refine Option.eq_none_iff_forall_ne_some.2 fun r hr => ?_
  obtain ⟨haligned, hbelow⟩ := regOffset_aligned r
  rw [regAt_eq_some.1 hr] at haligned hbelow
  omega

-- The two words of a wide register.

/-- The low word of a wide register (20_memory R41). -/
theorem lowWord_toNat {w : Nat} (x : BitVec w) : (x.extractLsb' 0 32).toNat = x.toNat % 2 ^ 32 := by
  rw [BitVec.extractLsb'_toNat, Nat.shiftRight_zero]

/-- The bits of a wide register above its low word (20_memory R41). -/
theorem highBits_toNat {n : Nat} (x : BitVec (32 + n)) : (x.extractLsb' 32 n).toNat = x.toNat / 2 ^ 32 := by
  rw [BitVec.extractLsb'_toNat, Nat.shiftRight_eq_div_pow]
  exact Nat.mod_eq_of_lt (Nat.div_lt_of_lt_mul (Nat.pow_add 2 32 n ▸ x.isLt))

-- What a register reads as, as a number.

/-- The number of a control state (30_encoding R65). -/
def stateNumber : Ctl → Nat
  | .idle => 0
  | .encActive => 1
  | .encDone => 2
  | .decHeader => 3
  | .decPayload => 4
  | .decDone => 5
  | .error => 7

/-- The number of an error (30_encoding R66). -/
def errNumber : ErrCode → Nat
  | .none => 0
  | .capacityExceeded => 1
  | .dimensionError => 2
  | .sourceUnavailable => 3
  | .incompleteData => 4
  | .illegalCommand => 5
  | .bufferExceeded => 6

theorem stateCode_toNat (c : Ctl) : (stateCode c).toNat = stateNumber c := by cases c <;> rfl

theorem errCode_toNat (e : ErrCode) : (errCode e).toNat = errNumber e := by cases e <;> rfl

/-- The number that each location of the map holds (30_encoding R63): `regRead` without bit vectors. -/
def regNumber (s : State) : Reg → Nat
  | .cmd => 0
  | .status => stateNumber s.state
  | .err => errNumber s.err
  | .width => s.width.toNat
  | .height => s.height.toNat
  | .channels => s.channels.toNat
  | .frameCount => s.frameCount.toNat
  | .plenIn => s.plenIn.toNat
  | .qidxLo => s.qidx.toNat % 2 ^ 32
  | .qidxHi => s.qidx.toNat / 2 ^ 32
  | .qFrame => s.qFrame.toNat
  | .qSlot => s.qSlot.toNat
  | .qRow => s.qRow.toNat
  | .qCol => s.qCol.toNat
  | .qChan => s.qChan.toNat
  | .capMaxLo => s.capMax.toNat % 2 ^ 32
  | .capMaxHi => s.capMax.toNat / 2 ^ 32
  | .capFits => s.capFits.toNat
  | .bidxLo => s.bidx.toNat % 2 ^ 32
  | .bidxHi => s.bidx.toNat / 2 ^ 32
  | .fidx => s.fidx.toNat
  | .hdr => s.hdr.toNat

/-- A register's word is the number it holds: nothing is cut off, and unused high bits are 0 (20_memory R41). -/
theorem regRead_toNat (r : Reg) (s : State) : (regRead r s).toNat = regNumber s r := by
  cases r with
  | cmd | frameCount | plenIn | qFrame | fidx | hdr => rfl
  | status => exact (BitVec.toNat_setWidth_of_le (by decide)).trans (stateCode_toNat s.state)
  | err => exact (BitVec.toNat_setWidth_of_le (by decide)).trans (errCode_toNat s.err)
  | width | height | channels | qSlot | qRow | qCol | qChan | capFits =>
    exact BitVec.toNat_setWidth_of_le (by decide)
  | qidxLo => exact lowWord_toNat s.qidx
  | capMaxLo => exact lowWord_toNat s.capMax
  | bidxLo => exact lowWord_toNat s.bidx
  | qidxHi => exact (BitVec.toNat_setWidth_of_le (by decide)).trans (highBits_toNat (n := 4) s.qidx)
  | capMaxHi => exact highBits_toNat (n := 32) s.capMax
  | bidxHi => exact (BitVec.toNat_setWidth_of_le (by decide)).trans (highBits_toNat (n := 1) s.bidx)

theorem regNumber_lt (s : State) (r : Reg) : regNumber s r < 2 ^ 32 := regRead_toNat r s ▸ (regRead r s).isLt

/-- A word read at a register's offset answers the number that the register holds (20_memory R49). -/
theorem access_regRead (r : Reg) (s : State) :
    access (.regRead (regOffset r) 32) s = .next (s.answered (.word (BitVec.ofNat 32 (regNumber s r)))) := by
  rw [← regRead_toNat, BitVec.ofNat_toNat, BitVec.setWidth_eq]
  simp only [access, if_true, regAt_regOffset]

/-- Settles O36. The table of the statement is the list of all registers, each with its offset and its number. -/
theorem registerMapIsOneToOne : Obligations.RegisterMapIsOneToOne := by
  refine ⟨fun _ _ => regAt_eq_some.1, fun _ => regAt_eq_none, fun s r offset value hrow => ?_⟩
  have hmap : (r, offset, value) ∈ allRegs.map fun r => (r, regOffset r, regNumber s r) := hrow
  obtain ⟨_, -, hr⟩ := List.mem_map.1 hmap
  cases hr
  exact ⟨rfl, regAt_regOffset r, regNumber_lt s r, access_regRead r s⟩

end Sys2Proof.Machine
end

section
/-! PROOF. SLOT_QUERY (40_slot_addresser R86): what it does in each state, and that each component of the location
fits its Q register. -/

namespace Sys2Proof.Machine

-- The geometry test where it fails.

/-- A geometry is ineligible exactly when one of the three bounds fails (60_exceptions R152). -/
theorem State.eligible_eq_false_iff (s : State) :
    s.eligible = false ↔ s.width.toNat < 64 ∨ s.height.toNat < 2 ∨ s.channels.toNat = 0 := by
  rw [← Bool.not_eq_true, State.eligible_iff]
  omega

-- The command, state by state.

theorem exec_slotQuery_of_eligible {s : State} (hs : s.state = .idle) (he : s.eligible = true) :
    exec .slotQuery s = .next (s.withQuery (slotFor s.qidx.toNat s.height.toNat)) :=
  (require_ok (by simp [hs]) (by simp [hs])).trans (if_pos he)

theorem exec_slotQuery_of_ineligible {s : State} (hs : s.state = .idle) (he : s.eligible = false) :
    exec .slotQuery s = .next (s.raise .dimensionError) :=
  (require_ok (by simp [hs]) (by simp [hs])).trans (if_neg (by simp [he]))

theorem exec_slotQuery_of_not_idle {s : State} (hs : s.state ≠ .idle) (herr : s.state ≠ .error) :
    exec .slotQuery s = .next (s.raise .illegalCommand) :=
  require_ill herr (by simp [hs])

theorem exec_slotQuery_of_error {s : State} (hs : s.state = .error) : exec .slotQuery s = .next s :=
  require_error hs

-- The Q registers hold the whole location: QIDX has 36 bits and HEIGHT 16 (40_slot_addresser R81).

theorem State.withQuery_qFrame_toNat (s : State) (H : Nat) :
    (s.withQuery (slotFor s.qidx.toNat H)).qFrame.toNat = s.qidx.toNat / 16 := by
  rw [State.withQuery_qFrame, slotFor_frame, BitVec.toNat_ofNat]
  have hk : s.qidx.toNat < 2 ^ 36 := s.qidx.isLt
  exact Nat.mod_eq_of_lt (by omega)

theorem State.withQuery_qSlot_toNat (s : State) (k H : Nat) :
    (s.withQuery (slotFor k H)).qSlot.toNat = k % 16 := by
  rw [State.withQuery_qSlot, slotFor_slot, BitVec.toNat_ofNat]
  exact Nat.mod_eq_of_lt (by omega)

/-- The row fits because HEIGHT is at least 2: both rows lie below HEIGHT. -/
theorem State.withQuery_qRow_toNat (s : State) (k : Nat) (hh : 2 ≤ s.height.toNat) :
    (s.withQuery (slotFor k s.height.toNat)).qRow.toNat = (s.height.toNat - 2) + k % 16 / 8 := by
  rw [State.withQuery_qRow, slotFor_row, BitVec.toNat_ofNat]
  have hH : s.height.toNat < 2 ^ 16 := s.height.isLt
  exact Nat.mod_eq_of_lt (by omega)

theorem State.withQuery_qCol_toNat (s : State) (k H : Nat) :
    (s.withQuery (slotFor k H)).qCol.toNat = 8 * (k % 8) := by
  rw [State.withQuery_qCol, slotFor_col, Nat.add_zero, BitVec.toNat_ofNat]
  exact Nat.mod_eq_of_lt (by omega)

/-- Settles O14. One lemma per state and geometry; on an eligible one the five results fit their registers. -/
theorem slotQueryWritesTheLocation : Obligations.SlotQueryWritesTheLocation := by
  refine ⟨by decide, fun s hs hw hh hc => ?_,
    fun s hs hbad => exec_slotQuery_of_ineligible hs (s.eligible_eq_false_iff.2 hbad),
    fun _ => exec_slotQuery_of_not_idle, fun _ => exec_slotQuery_of_error⟩
  have hrun := exec_slotQuery_of_eligible hs (s.eligible_iff.2 ⟨hw, hh, hc⟩)
  exact ⟨_, hrun, rfl, s.withQuery_qFrame_toNat _, s.withQuery_qSlot_toNat _ _, s.withQuery_qRow_toNat _ hh,
    s.withQuery_qCol_toNat _ _, rfl⟩

end Sys2Proof.Machine
end

section
/-! PROOF. CAP_QUERY (41_capacity_planner R93): what it does in each state, and that its two results are exact for
every FRAME_COUNT and PLEN_IN. -/

namespace Sys2Proof.Machine

-- The two planner functions as arithmetic.

theorem maxPayloadBytes_eq (frames : Nat) : maxPayloadBytes frames = 16 * (frames : Int) - 4 := by
  simp [maxPayloadBytes, capacity, Config.slotsPerFrame, Config.headerBytes]

theorem fits_iff (len frames : Nat) : fits len frames = true ↔ 4 + len ≤ 16 * frames := decide_eq_true_iff

theorem fits_eq_false_iff (len frames : Nat) : fits len frames = false ↔ 16 * frames < 4 + len := by
  rw [← Bool.not_eq_true, fits_iff, Nat.not_le]

-- Their values in the registers.

/-- Nothing is cut off: FRAME_COUNT has 32 bits, so the value lies between -4 and `2 ^ 36` (41_capacity_planner R94). -/
theorem capMaxOf_toInt (frameCount : BitVec 32) : (capMaxOf frameCount).toInt = 16 * (frameCount.toNat : Int) - 4 := by
  have hF : frameCount.toNat < 2 ^ 32 := frameCount.isLt
  rw [capMaxOf, maxPayloadBytes_eq]
  exact BitVec.toInt_ofInt_eq_self (by decide) (by omega) (by omega)

theorem capFitsOf_of_le {plenIn frameCount : BitVec 32} (h : 4 + plenIn.toNat ≤ 16 * frameCount.toNat) :
    capFitsOf plenIn frameCount = 1 :=
  if_pos ((fits_iff _ _).2 h)

theorem capFitsOf_of_lt {plenIn frameCount : BitVec 32} (h : 16 * frameCount.toNat < 4 + plenIn.toNat) :
    capFitsOf plenIn frameCount = 0 :=
  if_neg (Bool.eq_false_iff.1 ((fits_eq_false_iff _ _).2 h))

-- The command, state by state.

theorem exec_capQuery_of_idle {s : State} (hs : s.state = .idle) :
    exec .capQuery s =
      .next { s with capMax := capMaxOf s.frameCount, capFits := capFitsOf s.plenIn s.frameCount } :=
  require_ok (by simp [hs]) (by simp [hs])

theorem exec_capQuery_of_not_idle {s : State} (hs : s.state ≠ .idle) (herr : s.state ≠ .error) :
    exec .capQuery s = .next (s.raise .illegalCommand) :=
  require_ill herr (by simp [hs])

theorem exec_capQuery_of_error {s : State} (hs : s.state = .error) : exec .capQuery s = .next s :=
  require_error hs

/-- Settles O15. One lemma per state; in IDLE both results fit their registers. -/
theorem capQueryComputesCapacity : Obligations.CapQueryComputesCapacity :=
  ⟨by decide,
    fun s hs => ⟨_, exec_capQuery_of_idle hs, rfl, capMaxOf_toInt s.frameCount, capFitsOf_of_le, capFitsOf_of_lt⟩,
    fun _ => exec_capQuery_of_not_idle, fun _ => exec_capQuery_of_error⟩

end Sys2Proof.Machine
end

section
/-! PROOF. ENC_START (42_encoder R102): what it does in each state, and in IDLE after each outcome of its three checks,
which are taken in the order capacity, geometry, buffer. -/

namespace Sys2Proof.Machine

theorem State.eligible_of_bounds_hold (s : State)
    (h : ¬ (s.width.toNat < 64 ∨ s.height.toNat < 2 ∨ s.channels.toNat = 0)) : s.eligible = true :=
  Bool.of_not_eq_false (mt s.eligible_eq_false_iff.1 h)

-- The command in IDLE, one lemma per check: those before it hold, and it fails.

theorem exec_encStart_of_over_capacity {s : State} (hs : s.state = .idle)
    (hcap : 16 * s.frameCount.toNat < 4 + s.plenIn.toNat) :
    exec .encStart s = .next (s.raise .capacityExceeded) :=
  (require_ok (by simp [hs]) (by simp [hs])).trans (if_pos ((fits_eq_false_iff _ _).2 hcap))

/-- With the capacity check passed, the geometry and buffer checks are what is left of ENC_START. -/
theorem exec_encStart_of_fits {s : State} (hs : s.state = .idle)
    (hcap : 4 + s.plenIn.toNat ≤ 16 * s.frameCount.toNat) :
    exec .encStart s =
      if s.eligible = false then .next (s.raise .dimensionError)
      else if s.params.pbufBytes < s.plenIn.toNat then .next (s.raise .bufferExceeded)
      else .next { s with hdr := s.plenIn, bidx := 0, fidx := 0, state := .encActive } :=
  (require_ok (by simp [hs]) (by simp [hs])).trans (if_neg (by simp [(fits_iff _ _).2 hcap]))

theorem exec_encStart_of_ineligible {s : State} (hs : s.state = .idle)
    (hcap : 4 + s.plenIn.toNat ≤ 16 * s.frameCount.toNat) (he : s.eligible = false) :
    exec .encStart s = .next (s.raise .dimensionError) :=
  (exec_encStart_of_fits hs hcap).trans (if_pos he)

theorem exec_encStart_of_over_buffer {s : State} (hs : s.state = .idle)
    (hcap : 4 + s.plenIn.toNat ≤ 16 * s.frameCount.toNat) (he : s.eligible = true)
    (hbuf : s.params.pbufBytes < s.plenIn.toNat) :
    exec .encStart s = .next (s.raise .bufferExceeded) :=
  (exec_encStart_of_fits hs hcap).trans ((if_neg (by simp [he])).trans (if_pos hbuf))

/-- All three checks pass: the encode begins. -/
theorem exec_encStart_of_valid {s : State} (hs : s.state = .idle)
    (hcap : 4 + s.plenIn.toNat ≤ 16 * s.frameCount.toNat) (he : s.eligible = true)
    (hbuf : s.plenIn.toNat ≤ s.params.pbufBytes) :
    exec .encStart s = .next { s with hdr := s.plenIn, bidx := 0, fidx := 0, state := .encActive } :=
  (exec_encStart_of_fits hs hcap).trans ((if_neg (by simp [he])).trans (if_neg (Nat.not_lt.2 hbuf)))

-- The command in the other states.

theorem exec_encStart_of_not_idle {s : State} (hs : s.state ≠ .idle) (herr : s.state ≠ .error) :
    exec .encStart s = .next (s.raise .illegalCommand) :=
  require_ill herr (by simp [hs])

theorem exec_encStart_of_error {s : State} (hs : s.state = .error) : exec .encStart s = .next s :=
  require_error hs

/-- Settles O17. In IDLE the split follows the three checks in their order, one lemma per outcome. -/
theorem encStartReportsTheFirstFailingCheck : Obligations.EncStartReportsTheFirstFailingCheck := by
  refine ⟨by decide, fun s hs => ?_, fun _ => exec_encStart_of_not_idle, fun _ => exec_encStart_of_error⟩
  split_ifs with hcap hgeo hbuf
  · exact exec_encStart_of_over_capacity hs hcap
  · exact exec_encStart_of_ineligible hs (Nat.not_lt.1 hcap) (s.eligible_eq_false_iff.2 hgeo)
  · exact exec_encStart_of_over_buffer hs (Nat.not_lt.1 hcap) (s.eligible_of_bounds_hold hgeo) hbuf
  · exact exec_encStart_of_valid hs (Nat.not_lt.1 hcap) (s.eligible_of_bounds_hold hgeo) (Nat.not_lt.1 hbuf)

end Sys2Proof.Machine
end

section
/-! PROOF. DEC_START (43_decoder R121): what it does in each state, and in IDLE on each side of its geometry check. -/

namespace Sys2Proof.Machine

-- The command in IDLE, on each side of the geometry check.

/-- The check passes: the decode begins. -/
theorem exec_decStart_of_eligible {s : State} (hs : s.state = .idle) (he : s.eligible = true) :
    exec .decStart s = .next { s with hdr := 0, bidx := 0, fidx := 0, state := .decHeader } :=
  (require_ok (by simp [hs]) (by simp [hs])).trans (if_pos he)

theorem exec_decStart_of_ineligible {s : State} (hs : s.state = .idle) (he : s.eligible = false) :
    exec .decStart s = .next (s.raise .dimensionError) :=
  (require_ok (by simp [hs]) (by simp [hs])).trans (if_neg (by simp [he]))

-- The command in the other states.

theorem exec_decStart_of_not_idle {s : State} (hs : s.state ≠ .idle) (herr : s.state ≠ .error) :
    exec .decStart s = .next (s.raise .illegalCommand) :=
  require_ill herr (by simp [hs])

theorem exec_decStart_of_error {s : State} (hs : s.state = .error) : exec .decStart s = .next s :=
  require_error hs

/-- Settles O24. One lemma per state; in IDLE the three bounds of the statement are the geometry check. -/
theorem decStartBeginsADecode : Obligations.DecStartBeginsADecode :=
  ⟨by decide,
    fun s hs hw hh hc => exec_decStart_of_eligible hs (s.eligible_iff.2 ⟨hw, hh, hc⟩),
    fun s hs hbad => exec_decStart_of_ineligible hs (s.eligible_eq_false_iff.2 hbad),
    fun _ => exec_decStart_of_not_idle, fun _ => exec_decStart_of_error⟩

end Sys2Proof.Machine
end

section
/-! PROOF. The control commands NOP, CLEAR, EOS and SRC_FAIL (44_control R140 to R143): what each does, state by
state. -/

namespace Sys2Proof.Machine

-- Facts that several commands share.

/-- In ERROR every command but CLEAR is ignored (44_control R145): NOP has no effect in any state, DEC_FRAME
meets `require` after its test for DEC_DONE, and the other seven open with it. -/
theorem exec_of_error {i : Instr} {s : State} (hs : s.state = .error) (hi : i ≠ .clear) : exec i s = .next s := by
  cases i with
  | nop => rfl
  | clear => exact absurd rfl hi
  | decFrame => exact (if_neg (by simp [hs])).trans (require_error hs)
  | slotQuery | capQuery | encStart | encFrame | decStart | eos | srcFail => exact require_error hs

/-- The read window on PBUF is open in DEC_DONE only (20_memory R53). -/
theorem access_payRead_of_not_decDone {s : State} (hs : s.state ≠ .decDone) (j : Nat) :
    access (.payRead j) s = .next (s.answered .errorResponse) :=
  congrArg Host.Outcome.next (if_neg (by simp [hs]))

-- NOP and CLEAR.

theorem exec_nop (s : State) : exec .nop s = .next s := rfl

theorem exec_clear (s : State) : exec .clear s = .next s.toIdle := rfl

/-- In IDLE the invariant (10_state R31 item 7) has the five registers of CLEAR at their reset values. -/
theorem State.toIdle_of_idle {s : State} (h : s.Inv) (hs : s.state = .idle) : s.toIdle = s := by
  obtain ⟨hbidx, hfidx, hhdr, herr⟩ := h.idle hs
  obtain ⟨⟨⟩⟩ := s
  unfold State.toIdle
  congr
  exacts [hs.symm, herr.symm, hhdr.symm, hbidx.symm, hfidx.symm]

/-- Settles O12. -/
theorem nopHasNoEffect : Obligations.NopHasNoEffect := ⟨by decide, exec_nop⟩

/-- Settles O13. CLEAR is `State.toIdle`; the state it leads to is IDLE, where no payload byte is readable. -/
theorem clearReturnsToIdle : Obligations.ClearReturnsToIdle := by
  refine ⟨by decide, exec_clear, fun s h hs => ?_, fun _ _ => exec_of_error, fun s t j ht => ?_⟩
  · rw [exec_clear, State.toIdle_of_idle h hs]
  · obtain rfl : s.toIdle = t := Host.Outcome.next.inj ht
    exact access_payRead_of_not_decDone (by simp) j

-- EOS.

/-- In ENC_ACTIVE the source may end once the whole stream is embedded, and not before. -/
theorem exec_eos_of_encActive {s : State} (hs : s.state = .encActive) :
    exec .eos s = if s.bidx.toNat = 4 + s.hdr.toNat then .next { s with state := .encDone }
      else .next (s.raise .sourceUnavailable) :=
  (require_ok (by simp [hs]) (by simp [hs])).trans (by rw [hs]; rfl)

theorem exec_eos_of_decoding {s : State} (hs : s.state = .decHeader ∨ s.state = .decPayload) :
    exec .eos s = .next (s.raise .incompleteData) := by
  rcases hs with hs | hs <;> exact (require_ok (by simp [hs]) (by simp [hs])).trans (by rw [hs])

theorem exec_eos_of_done {s : State} (hs : s.state = .encDone ∨ s.state = .decDone) : exec .eos s = .next s := by
  rcases hs with hs | hs <;> exact (require_ok (by simp [hs]) (by simp [hs])).trans (by rw [hs])

theorem exec_eos_of_idle {s : State} (hs : s.state = .idle) : exec .eos s = .next (s.raise .illegalCommand) :=
  require_ill (by simp [hs]) (by simp [hs])

/-- Settles O31. One lemma per group of states; in ENC_ACTIVE the two clauses are the two sides of its test. -/
theorem eosEndsTheSource : Obligations.EosEndsTheSource :=
  ⟨by decide, fun _ =>
    ⟨fun hs hend => (exec_eos_of_encActive hs).trans (if_pos hend),
      fun hs hend => (exec_eos_of_encActive hs).trans (if_neg hend),
      exec_eos_of_decoding, exec_eos_of_done, exec_eos_of_idle, fun hs => exec_of_error hs (by decide)⟩⟩

-- SRC_FAIL.

theorem exec_srcFail_of_active {s : State}
    (hs : s.state = .encActive ∨ s.state = .decHeader ∨ s.state = .decPayload) :
    exec .srcFail s = .next (s.raise .sourceUnavailable) := by
  rcases hs with hs | hs | hs <;> exact (require_ok (by simp [hs]) (by simp [hs])).trans (by rw [hs])

theorem exec_srcFail_of_done {s : State} (hs : s.state = .encDone ∨ s.state = .decDone) :
    exec .srcFail s = .next s := by
  rcases hs with hs | hs <;> exact (require_ok (by simp [hs]) (by simp [hs])).trans (by rw [hs])

theorem exec_srcFail_of_idle {s : State} (hs : s.state = .idle) :
    exec .srcFail s = .next (s.raise .illegalCommand) :=
  require_ill (by simp [hs]) (by simp [hs])

/-- Settles O32. One lemma per group of states. -/
theorem srcFailReportsTheSource : Obligations.SrcFailReportsTheSource :=
  ⟨by decide, fun _ =>
    ⟨exec_srcFail_of_active, exec_srcFail_of_done, exec_srcFail_of_idle, fun hs => exec_of_error hs (by decide)⟩⟩

end Sys2Proof.Machine
end

section
/-! PROOF. All that a command can do, said once for every command and every state (44_control R144, R145). -/

namespace Sys2Proof.Machine

-- Cells of the table (44_control R144).

/-- The four commands that IDLE alone permits. -/
def idleCommands : List Instr := [.slotQuery, .capQuery, .encStart, .decStart]

theorem transition_of_not_idle {i : Instr} {st : Ctl} (hi : i ∈ idleCommands) (hs : st ≠ .idle) (herr : st ≠ .error) :
    transition i st = .ill := by
  simp only [idleCommands, List.mem_cons, List.not_mem_nil, or_false] at hi
  rcases hi with rfl | rfl | rfl | rfl <;> cases st with
  | idle => exact absurd rfl hs
  | error => exact absurd rfl herr
  | _ => rfl

theorem transition_encFrame_of_not_encActive {st : Ctl} (hs : st ≠ .encActive) (herr : st ≠ .error) :
    transition .encFrame st = .ill := by
  cases st with
  | encActive => exact absurd rfl hs
  | error => exact absurd rfl herr
  | _ => rfl

theorem transition_of_error {i : Instr} (hi : i ≠ .clear) : transition i .error = .ign := by
  cases i with
  | clear => exact absurd rfl hi
  | _ => rfl

-- The frame commands where they are permitted, and where they are not.

theorem exec_encFrame_of_encActive {s : State} (hs : s.state = .encActive) :
    exec .encFrame s = endEncFrame s (embedBytes s.bidx.toNat s.frameBytes.toNat s) :=
  require_ok (by simp [hs]) (by simp [hs])

theorem exec_encFrame_of_not_encActive {s : State} (hs : s.state ≠ .encActive) (herr : s.state ≠ .error) :
    exec .encFrame s = .next (s.raise .illegalCommand) :=
  require_ill herr (by simp [hs])

theorem exec_decFrame_of_decDone {s : State} (hs : s.state = .decDone) : exec .decFrame s = .next s := if_pos hs

theorem exec_decFrame_of_decoding {s : State} (hs : s.state = .decHeader ∨ s.state = .decPayload) :
    exec .decFrame s = endDecFrame (decSlots canonicalSlots s) := by
  refine (if_neg ?_).trans (require_ok ?_ ?_) <;> rcases hs with hs | hs <;> simp [hs]

theorem exec_decFrame_of_not_decoding {s : State} (hd : s.state ≠ .decDone) (hh : s.state ≠ .decHeader)
    (hp : s.state ≠ .decPayload) (herr : s.state ≠ .error) : exec .decFrame s = .next (s.raise .illegalCommand) :=
  (if_neg hd).trans (require_ill herr (by simp [hh, hp]))

-- One list of effects for the ten commands.

/-- All that a command can do: each case names what it rests on and gives the outcome of `exec`. -/
inductive CommandEffect (s : State) (i : Instr) : Prop
  /-- The cell is "ign". -/
  | ignored (hs : s.state = .error) (hi : i ≠ .clear) (h : exec i s = .next s)
  /-- The cell is "ILL". -/
  | illegal (hs : s.state ≠ .error) (hc : transition i s.state = .ill) (h : exec i s = .next (s.raise .illegalCommand))
  /-- The cell is "=" and the command has no effect. -/
  | nothing (hs : s.state ≠ .error) (hc : transition i s.state = .next [s.state] []) (h : exec i s = .next s)
  /-- A command other than DEC_FRAME is permitted and raises one of the errors of its cell. -/
  | raised (e : ErrCode) (states : List Ctl) (errors : List ErrCode) (hi : i ≠ .decFrame) (hs : s.state ≠ .error)
      (hc : transition i s.state = .next states errors) (he : e ∈ errors) (h : exec i s = .next (s.raise e))
  /-- CLEAR. -/
  | cleared (hi : i = .clear) (h : exec i s = .next s.toIdle)
  /-- SLOT_QUERY on an eligible geometry. -/
  | queried (hi : i = .slotQuery) (hs : s.state = .idle)
      (h : exec i s = .next (s.withQuery (slotFor s.qidx.toNat s.height.toNat)))
  /-- CAP_QUERY. -/
  | planned (hi : i = .capQuery) (hs : s.state = .idle)
      (h : exec i s = .next { s with capMax := capMaxOf s.frameCount, capFits := capFitsOf s.plenIn s.frameCount })
  /-- ENC_START with its checks passed. -/
  | encodeStarted (hi : i = .encStart) (hs : s.state = .idle) (he : s.eligible = true)
      (hb : s.plenIn.toNat ≤ s.params.pbufBytes)
      (h : exec i s = .next { s with hdr := s.plenIn, bidx := 0, fidx := 0, state := .encActive })
  /-- DEC_START with its check passed. -/
  | decodeStarted (hi : i = .decStart) (hs : s.state = .idle) (he : s.eligible = true)
      (h : exec i s = .next { s with hdr := 0, bidx := 0, fidx := 0, state := .decHeader })
  /-- ENC_FRAME in ENC_ACTIVE. -/
  | embedded (hi : i = .encFrame) (hs : s.state = .encActive)
      (h : exec i s = endEncFrame s (embedBytes s.bidx.toNat s.frameBytes.toNat s))
  /-- DEC_FRAME in DEC_HEADER or DEC_PAYLOAD. -/
  | extracted (hi : i = .decFrame) (hs : s.state = .decHeader ∨ s.state = .decPayload)
      (h : exec i s = endDecFrame (decSlots canonicalSlots s))
  /-- EOS after the whole stream. -/
  | encodeEnded (hi : i = .eos) (hs : s.state = .encActive) (hend : s.bidx.toNat = 4 + s.hdr.toNat)
      (h : exec i s = .next { s with state := .encDone })

/-- ENC_START, by its three checks in their order. -/
theorem encStart_effect {s : State} (herr : s.state ≠ .error) : CommandEffect s .encStart := by
  by_cases hs : s.state = .idle
  · have hcell : transition .encStart s.state =
        .next [.encActive] [.capacityExceeded, .dimensionError, .bufferExceeded] := by rw [hs]; rfl
    by_cases hcap : 16 * s.frameCount.toNat < 4 + s.plenIn.toNat
    · exact .raised _ _ _ (by decide) herr hcell (by simp) (exec_encStart_of_over_capacity hs hcap)
    · replace hcap := Nat.not_lt.1 hcap
      cases he : s.eligible with
      | false => exact .raised _ _ _ (by decide) herr hcell (by simp) (exec_encStart_of_ineligible hs hcap he)
      | true =>
        by_cases hb : s.params.pbufBytes < s.plenIn.toNat
        · exact .raised _ _ _ (by decide) herr hcell (by simp) (exec_encStart_of_over_buffer hs hcap he hb)
        · exact .encodeStarted rfl hs he (Nat.not_lt.1 hb) (exec_encStart_of_valid hs hcap he (Nat.not_lt.1 hb))
  · exact .illegal herr (transition_of_not_idle (by decide) hs herr) (exec_encStart_of_not_idle hs herr)

theorem slotQuery_effect {s : State} (herr : s.state ≠ .error) : CommandEffect s .slotQuery := by
  by_cases hs : s.state = .idle
  · cases he : s.eligible with
    | false =>
      exact .raised .dimensionError [.idle] [.dimensionError] (by decide) herr (by rw [hs]; rfl) (by simp)
        (exec_slotQuery_of_ineligible hs he)
    | true => exact .queried rfl hs (exec_slotQuery_of_eligible hs he)
  · exact .illegal herr (transition_of_not_idle (by decide) hs herr) (exec_slotQuery_of_not_idle hs herr)

theorem decStart_effect {s : State} (herr : s.state ≠ .error) : CommandEffect s .decStart := by
  by_cases hs : s.state = .idle
  · cases he : s.eligible with
    | false =>
      exact .raised .dimensionError [.decHeader] [.dimensionError] (by decide) herr (by rw [hs]; rfl) (by simp)
        (exec_decStart_of_ineligible hs he)
    | true => exact .decodeStarted rfl hs he (exec_decStart_of_eligible hs he)
  · exact .illegal herr (transition_of_not_idle (by decide) hs herr) (exec_decStart_of_not_idle hs herr)

theorem decFrame_effect {s : State} (herr : s.state ≠ .error) : CommandEffect s .decFrame := by
  cases hs : s.state with
  | decHeader => exact .extracted rfl (.inl hs) (exec_decFrame_of_decoding (.inl hs))
  | decPayload => exact .extracted rfl (.inr hs) (exec_decFrame_of_decoding (.inr hs))
  | decDone => exact .nothing herr (by rw [hs]; rfl) (exec_decFrame_of_decDone hs)
  | error => exact absurd hs herr
  | idle | encActive | encDone =>
    exact .illegal herr (by rw [hs]; rfl)
      (exec_decFrame_of_not_decoding (by simp [hs]) (by simp [hs]) (by simp [hs]) herr)

theorem eos_effect {s : State} (herr : s.state ≠ .error) : CommandEffect s .eos := by
  cases hs : s.state with
  | idle => exact .illegal herr (by rw [hs]; rfl) (exec_eos_of_idle hs)
  | encActive =>
    by_cases hend : s.bidx.toNat = 4 + s.hdr.toNat
    · exact .encodeEnded rfl hs hend ((exec_eos_of_encActive hs).trans (if_pos hend))
    · exact .raised .sourceUnavailable [.encDone] [.sourceUnavailable] (by decide) herr (by rw [hs]; rfl) (by simp)
        ((exec_eos_of_encActive hs).trans (if_neg hend))
  | decHeader =>
    exact .raised .incompleteData [] [.incompleteData] (by decide) herr (by rw [hs]; rfl) (by simp)
      (exec_eos_of_decoding (.inl hs))
  | decPayload =>
    exact .raised .incompleteData [] [.incompleteData] (by decide) herr (by rw [hs]; rfl) (by simp)
      (exec_eos_of_decoding (.inr hs))
  | encDone => exact .nothing herr (by rw [hs]; rfl) (exec_eos_of_done (.inl hs))
  | decDone => exact .nothing herr (by rw [hs]; rfl) (exec_eos_of_done (.inr hs))
  | error => exact absurd hs herr

theorem srcFail_effect {s : State} (herr : s.state ≠ .error) : CommandEffect s .srcFail := by
  cases hs : s.state with
  | idle => exact .illegal herr (by rw [hs]; rfl) (exec_srcFail_of_idle hs)
  | encActive | decHeader | decPayload =>
    exact .raised .sourceUnavailable [] [.sourceUnavailable] (by decide) herr (by rw [hs]; rfl) (by simp)
      (exec_srcFail_of_active (by simp [hs]))
  | encDone => exact .nothing herr (by rw [hs]; rfl) (exec_srcFail_of_done (.inl hs))
  | decDone => exact .nothing herr (by rw [hs]; rfl) (exec_srcFail_of_done (.inr hs))
  | error => exact absurd hs herr

/-- Every command in every state has one of the effects listed. -/
theorem exec_effect (s : State) (i : Instr) : CommandEffect s i := by
  by_cases hi : i = .clear
  · subst hi
    exact .cleared rfl (exec_clear s)
  by_cases herr : s.state = .error
  · exact .ignored herr hi (exec_of_error herr hi)
  cases i with
  | clear => exact absurd rfl hi
  | nop => exact .nothing herr (if_neg herr) (exec_nop s)
  | slotQuery => exact slotQuery_effect herr
  | capQuery =>
    by_cases hs : s.state = .idle
    · exact .planned rfl hs (exec_capQuery_of_idle hs)
    · exact .illegal herr (transition_of_not_idle (by decide) hs herr) (exec_capQuery_of_not_idle hs herr)
  | encStart => exact encStart_effect herr
  | encFrame =>
    by_cases hs : s.state = .encActive
    · exact .embedded rfl hs (exec_encFrame_of_encActive hs)
    · exact .illegal herr (transition_encFrame_of_not_encActive hs herr) (exec_encFrame_of_not_encActive hs herr)
  | decStart => exact decStart_effect herr
  | decFrame => exact decFrame_effect herr
  | eos => exact eos_effect herr
  | srcFail => exact srcFail_effect herr

end Sys2Proof.Machine
end

section
/-! PROOF. The command words (30_encoding R60 to R62): which words decode, and to what. -/

namespace Sys2Proof.Machine

/-- Every row of the opcode map tests the whole word against its command's word (30_encoding R61). -/
theorem opcodeMap_row : ∀ r ∈ opcodeMap, r.mask = BitVec.allOnes 32 ∧ r.value = encode r.instr := by decide

theorem selects_iff {r : OpcodeRow} (hr : r ∈ opcodeMap) (w : Word) : r.selects w = true ↔ w = encode r.instr := by
  obtain ⟨hmask, hvalue⟩ := opcodeMap_row r hr
  rw [OpcodeRow.selects, hmask, hvalue, BitVec.and_allOnes, beq_iff_eq]

theorem decode_encode (i : Instr) : decode (encode i) = .ok i := by cases i <;> rfl

/-- All that the decoder can answer: the command whose word it is, or, where it is the word of none, the rejection. -/
theorem decode_cases (w : Word) :
    (∃ i, w = encode i ∧ decode w = .ok i) ∨ ((∀ i, w ≠ encode i) ∧ decode w = .error (rejection w)) := by
  cases hf : opcodeMap.find? (·.selects w) with
  | some r =>
    have hsel := List.find?_some (p := fun r => OpcodeRow.selects r w) hf
    have hw := (selects_iff (List.mem_of_find?_eq_some hf) w).1 hsel
    exact .inl ⟨r.instr, hw, by rw [hw, decode_encode]⟩
  | none =>
    have hd : decode w = .error (rejection w) := by rw [decode, hf]
    exact .inr ⟨fun i hi => by rw [hi, decode_encode] at hd; exact absurd hd (by simp), hd⟩

/-- Settles O1. -/
theorem encodedCommandDecodesToItself : Obligations.EncodedCommandDecodesToItself := fun i _ => decode_encode i

/-- Settles O2. The rejection of the statement is the decoder's own. -/
theorem onlyTheTenWordsDecode : Obligations.OnlyTheTenWordsDecode := by
  intro w
  rcases decode_cases w with ⟨j, rfl, hj⟩ | ⟨hw, hd⟩
  · refine ⟨fun i => ⟨fun h => ?_, fun h => ?_⟩, fun h => absurd rfl (h j)⟩
    · rw [Except.ok.inj (hj.symm.trans h)]
    · rw [h, decode_encode]
  · exact ⟨fun i => ⟨fun h => absurd (hd.symm.trans h) (by simp), fun h => absurd h (hw i)⟩, fun _ => hd⟩

/-- Settles O3. -/
theorem wordsOfTheOpcodeMap : Obligations.WordsOfTheOpcodeMap := by
  unfold Obligations.WordsOfTheOpcodeMap
  decide

end Sys2Proof.Machine
end

section
/-! PROOF. All that one access of the host can do, said once for every access and every state (20_memory R46, R49), and
what follows for a step (00_scope R7). -/

namespace Sys2Proof.Machine

/-- All that an access can do: each case names what it rests on and gives the outcome of `access`. -/
inductive AccessEffect (s : State) (a : HostAccess) : Prop
  /-- A read, or a refused access: only the answer. -/
  | answered (ans : PortAnswer) (hc : isCommand a = false) (h : access a s = .next (s.answered ans))
  /-- A write of a configuration register. -/
  | registerStored (r : Reg) (v : Word) (t : State) (hc : isCommand a = false) (hs : s.state = .idle)
      (hr : regStore r v s = some t) (h : access a s = .next (t.answered .done))
  /-- A write of a payload byte. -/
  | byteStored (i : Nat) (b : Byte) (hc : isCommand a = false) (hs : s.state = .idle) (hx : s.payExists i = true)
      (h : access a s = .next ((s.setPayload i b).answered .done))
  /-- A write of a sample. -/
  | sampleStored (row col ch v : Nat) (hc : isCommand a = false) (hx : s.pixExists row col ch = true)
      (hv : v < 2 ^ s.params.sampleBits) (h : access a s = .next ((s.setSample row col ch v).answered .done))
  /-- The reset input. -/
  | reset (ha : a = .reset) (h : access a s = .next s.hardwareReset)
  /-- A command. -/
  | command (i : Instr) (w : Word) (ha : a = .regWrite 0x00 32 w) (hw : decode w = .ok i)
      (h : access a s = exec i (s.answered .done))
  /-- An illegal word. -/
  | illegal (w : Word) (e : DecodeReject) (ha : a = .regWrite 0x00 32 w) (hw : decode w = .error e)
      (h : access a s = illegalWord (s.answered .done))

/-- A write to register space, by the register at the offset. -/
theorem regWrite_effect (s : State) (offset bits : Nat) (v : Word) : AccessEffect s (.regWrite offset bits v) := by
  by_cases hb : bits = 32
  · subst hb
    cases ho : regAt offset with
    | none =>
      have hne : offset ≠ 0x00 := fun h => by simp [regAt_eq_cmd.2 h] at ho
      exact .answered .errorResponse (by simp [isCommand, hne]) (by simp only [access, ho, if_true]; rfl)
    | some r =>
      by_cases hr : r = .cmd
      · subst hr
        obtain rfl := regAt_eq_cmd.1 ho
        cases hw : decode v with
        | ok i => exact .command i v rfl hw (commandWrite_ok hw _)
        | error e => exact .illegal v e rfl hw (commandWrite_error hw _)
      · have hne : offset ≠ 0x00 := fun h => hr (Option.some.inj (ho.symm.trans (regAt_eq_cmd.2 h)))
        have hc : isCommand (.regWrite offset 32 v) = false := by simp [isCommand, hne]
        have ha : access (.regWrite offset 32 v) s = .next (hostRegWrite r v s) := by
          simp only [access, ho, if_true]
        by_cases hs : s.state = .idle
        · cases ht : regStore r v s with
          | some t => exact .registerStored r v t hc hs ht (by rw [ha, hostRegWrite, if_pos hs, ht])
          | none => exact .answered .errorResponse hc (by rw [ha, hostRegWrite, if_pos hs, ht]; rfl)
        · exact .answered .errorResponse hc (by rw [ha, hostRegWrite, if_neg hs]; rfl)
  · exact .answered .errorResponse (by simp [isCommand, hb]) (by simp only [access, hb, if_false]; rfl)

/-- A read, of any space, only answers (20_memory R49). -/
theorem access_read (s : State) {a : HostAccess}
    (ha : (∃ offset bits, a = .regRead offset bits) ∨ (∃ i, a = .payRead i) ∨ ∃ row col ch, a = .pixRead row col ch) :
    ∃ ans, access a s = .next (s.answered ans) := by
  rcases ha with ⟨offset, bits, rfl⟩ | ⟨i, rfl⟩ | ⟨row, col, ch, rfl⟩
  · by_cases hb : bits = 32
    · cases ho : regAt offset with
      | none => exact ⟨.errorResponse, by simp only [access, ho, hb, if_true]; rfl⟩
      | some r => exact ⟨.word (regRead r s), by simp only [access, ho, hb, if_true]⟩
    · exact ⟨.errorResponse, by simp only [access, hb, if_false]; rfl⟩
  · simp only [access, hostPayRead]
    split
    · exact ⟨_, rfl⟩
    · exact ⟨.errorResponse, rfl⟩
  · simp only [access, hostPixRead]
    split
    · exact ⟨_, rfl⟩
    · exact ⟨.errorResponse, rfl⟩

/-- A write of a payload byte, on each side of its window (20_memory R53). -/
theorem access_payWrite (s : State) (i : Nat) (b : Byte) :
    access (.payWrite i b) s = .next
      (if s.state = .idle ∧ s.payExists i = true then (s.setPayload i b).answered .done else refuse s) := by
  simp [access, hostPayWrite]

/-- A read of a payload byte, on each side of its window (20_memory R53). -/
theorem access_payRead (s : State) (i : Nat) :
    access (.payRead i) s = .next
      (if s.state = .decDone ∧ s.payExists i = true ∧ i < s.hdr.toNat then s.answered (.byte (s.payloadAt i))
        else refuse s) := by
  simp [access, hostPayRead, and_assoc]

/-- A write of a sample, accepted or not (20_memory R46). -/
theorem access_pixWrite (s : State) (row col ch v : Nat) :
    access (.pixWrite row col ch v) s = .next
      (if s.pixExists row col ch = true ∧ v < 2 ^ s.params.sampleBits then (s.setSample row col ch v).answered .done
        else refuse s) := by
  simp [access, hostPixWrite]

/-- A read of a sample, accepted or not (20_memory R46). -/
theorem access_pixRead (s : State) (row col ch : Nat) :
    access (.pixRead row col ch) s = .next
      (if s.pixExists row col ch = true then s.answered (.sample (s.sampleAt row col ch)) else refuse s) := by
  simp [access, hostPixRead]

/-- Every access in every state has one of the effects listed. -/
theorem access_effect (s : State) (a : HostAccess) : AccessEffect s a := by
  cases a with
  | regWrite offset bits v => exact regWrite_effect s offset bits v
  | regRead offset bits =>
    obtain ⟨ans, h⟩ := access_read s (.inl ⟨offset, bits, rfl⟩)
    exact .answered ans rfl h
  | payRead i =>
    obtain ⟨ans, h⟩ := access_read s (.inr (.inl ⟨i, rfl⟩))
    exact .answered ans rfl h
  | pixRead row col ch =>
    obtain ⟨ans, h⟩ := access_read s (.inr (.inr ⟨row, col, ch, rfl⟩))
    exact .answered ans rfl h
  | payWrite i b =>
    have h := access_payWrite s i b
    split_ifs at h with hp
    · exact .byteStored i b rfl hp.1 hp.2 h
    · exact .answered .errorResponse rfl h
  | pixWrite row col ch v =>
    have h := access_pixWrite s row col ch v
    split_ifs at h with hp
    · exact .sampleStored row col ch v rfl hp.1 hp.2 h
    · exact .answered .errorResponse rfl h
  | reset => exact .reset rfl rfl

-- One step.

theorem step_nil {s : State} (h : s.pending = []) : step s = .next s := by rw [step, h]

theorem step_cons {s : State} {a : HostAccess} {rest : List HostAccess} (h : s.pending = a :: rest) :
    step s = access a (s.begin rest) := by rw [step, h]

/-- A step on a word written to CMD (30_encoding R60, 44_control R145). -/
theorem step_cmdWrite {s : State} {rest : List HostAccess} {w : Word} (h : s.pending = .regWrite 0x00 32 w :: rest) :
    step s = commandWrite w ((s.begin rest).answered .done) := step_cons h

theorem illegalWord_of_error {s : State} (hs : s.state = .error) : illegalWord s = .next s := if_pos hs

theorem illegalWord_of_ne_error {s : State} (hs : s.state ≠ .error) :
    illegalWord s = .next (s.raise .illegalCommand) := if_neg hs

/-- Settles O4. -/
theorem stepRunsTheDecodedCommand : Obligations.StepRunsTheDecodedCommand :=
  fun _ _ _ _ hp hw => (step_cmdWrite hp).trans (commandWrite_ok hw _)

/-- Settles O5. The word of a command has 32 bits, so that none is lost on its way into `pending`. -/
theorem fetchedWordIsTheNextCommand : Obligations.FetchedWordIsTheNextCommand := by
  intro s i
  have hw : BitVec.ofNat 32 ((encode i).toNat % 2 ^ 32) = encode i := by
    rw [Nat.mod_eq_of_lt (encode i).isLt, BitVec.ofNat_toNat, BitVec.setWidth_eq]
  refine (step_cmdWrite (State.withFetchWord_pending s 32 _)).trans ?_
  rw [hw]
  exact commandWrite_ok (decode_encode i) _

/-- Settles O6. -/
theorem illegalWordRaisesOrIsIgnored : Obligations.IllegalWordRaisesOrIsIgnored := by
  intro s rest w e hp hw
  have hstep := (step_cmdWrite hp).trans (commandWrite_error hw _)
  exact ⟨fun hs => hstep.trans (illegalWord_of_error hs), fun hs => hstep.trans (illegalWord_of_ne_error hs)⟩

end Sys2Proof.Machine
end

section
/-! PROOF. Commands state by state: illegal cells, ERROR and IDLE in the transition table, and the commands whose whole
effect is one line (44_control R140 to R148; 60_exceptions R152 to R161). -/

namespace Sys2Proof.Machine

/-- Settles O8. By the list of effects: only the cell "ILL" has the outcome, and no other effect has that cell. -/
theorem illegalCellsRaiseIllegalCommand : Obligations.IllegalCellsRaiseIllegalCommand := by
  intro s i hc
  cases exec_effect s i with
  | illegal _ _ h => exact h
  | ignored hs hi _ => simp [hs, transition_of_error hi] at hc
  | nothing _ hc' _ | raised _ _ _ _ _ hc' _ _ => simp [hc'] at hc
  | cleared hi _ => simp [hi, transition] at hc
  | queried hi hs _ | planned hi hs _ | encodeStarted hi hs _ _ _ | decodeStarted hi hs _ _ | embedded hi hs _
  | encodeEnded hi hs _ _ => simp [hi, hs, transition] at hc
  | extracted hi hs _ => rcases hs with hs | hs <;> simp [hi, hs, transition] at hc

theorem idle_mem_startedStates : Ctl.idle ∈ startedStates := by decide

theorem error_mem_startedStates : Ctl.error ∈ startedStates := by decide

/-- From IDLE a command leads only to the states that start an operation, to IDLE and to ERROR. -/
theorem exec_idle_started {s t : State} {i : Instr} (hs : s.state = .idle) (h : exec i s = .next t) :
    t.state ∈ startedStates := by
  have hnext {u : State} (hu : exec i s = .next u) (hmem : u.state ∈ startedStates) : t.state ∈ startedStates :=
    Host.Outcome.next.inj (hu.symm.trans h) ▸ hmem
  cases exec_effect s i with
  | ignored _ _ h' | nothing _ _ h' | queried _ _ h' | planned _ _ h' => exact hnext h' (hs ▸ idle_mem_startedStates)
  | cleared _ h' => exact hnext h' idle_mem_startedStates
  | illegal _ _ h' | raised _ _ _ _ _ _ _ h' => exact hnext h' error_mem_startedStates
  | encodeStarted _ _ _ _ h' | decodeStarted _ _ _ h' => exact hnext h' (by simp [startedStates])
  | embedded _ hs' _ | encodeEnded _ hs' _ _ => simp [hs] at hs'
  | extracted _ hs' _ => simp [hs] at hs'

/-- Settles O10. The step adds an illegal word, the reset input, and accesses that leave STATE as it is. -/
theorem idleLeadsOnlyToStartedStates : Obligations.IdleLeadsOnlyToStartedStates := by
  refine ⟨fun s t i hs h => by simpa [startedStates] using exec_idle_started hs h, fun s t hs h => ?_⟩
  rcases step_cases s with ⟨i, rest, -, hstep⟩ | ⟨-, ⟨rest, hstep⟩ | ⟨rest, -, hstep⟩ | ⟨u, hstep, hu⟩⟩
  · exact exec_idle_started (s := (s.begin rest).answered .done) hs (hstep.symm.trans h)
  · rw [illegalWord_of_ne_error (s := (s.begin rest).answered .done) (by simp [hs])] at hstep
    obtain rfl := Host.Outcome.next.inj (hstep.symm.trans h)
    exact error_mem_startedStates
  · obtain rfl := Host.Outcome.next.inj (hstep.symm.trans h)
    exact idle_mem_startedStates
  · obtain rfl := Host.Outcome.next.inj (hstep.symm.trans h)
    rw [hu.state, hs]
    exact idle_mem_startedStates

theorem errorIsAbsorbing : ErrorIsAbsorbing := by
  intro s hs hclear hreset
  rcases step_cases s with ⟨i, rest, hi, hstep⟩ | ⟨-, ⟨rest, hstep⟩ | ⟨rest, hp, -⟩ | ⟨u, hstep, hu⟩⟩
  · have hne : i ≠ .clear := fun h => hclear (h ▸ hi)
    exact ⟨_, hstep.trans (exec_of_error (s := (s.begin rest).answered .done) hs hne), hs, rfl⟩
  · exact ⟨_, hstep.trans (illegalWord_of_error (s := (s.begin rest).answered .done) hs), hs, rfl⟩
  · exact absurd hp (hreset rest)
  · exact ⟨u, hstep, hu.state.trans hs, hu.err⟩

theorem clearReachesIdle : ClearReachesIdle := by
  intro s hs
  rcases step_cases s with ⟨i, rest, hi, hstep⟩ | ⟨hnone, -⟩
  · obtain rfl : Instr.clear = i := Option.some.inj (hs.symm.trans hi)
    exact ⟨_, hstep, rfl⟩
  · simp [hs] at hnone

/-- Settles O7. -/
theorem errorIgnoresAllButClear : Obligations.ErrorIgnoresAllButClear :=
  ⟨fun _ _ => exec_of_error, errorIsAbsorbing, clearReachesIdle⟩

/-- Settles O16. -/
theorem encStartBeginsAnEncode : Obligations.EncStartBeginsAnEncode :=
  fun s hs hcap hw hh hc hb => exec_encStart_of_valid hs hcap (s.eligible_iff.2 ⟨hw, hh, hc⟩) hb

/-- Outside IDLE and ERROR an operation holds its geometry (10_state R31 item 8). -/
theorem State.operating_of_ne {s : State} (hs : s.state ≠ .idle) (herr : s.state ≠ .error) : s.operating := by
  unfold State.operating
  cases h : s.state <;> simp_all

/-- Settles O18. The second part is item 8 of the invariant. -/
theorem ineligibleGeometryRaisesDimensionError : Obligations.IneligibleGeometryRaisesDimensionError := by
  refine ⟨fun s hs hbad => ?_, fun s hinv hbad => ?_⟩
  · have he := s.eligible_eq_false_iff.2 hbad
    exact ⟨exec_slotQuery_of_ineligible hs he, exec_decStart_of_ineligible hs he,
      fun hcap => exec_encStart_of_ineligible hs hcap he⟩
  · by_contra hs
    obtain ⟨hidle, herr⟩ := not_or.1 hs
    exact absurd (hinv.geometry (State.operating_of_ne hidle herr)) (by simp [s.eligible_eq_false_iff.2 hbad])

/-- ENC_START reports the capacity exactly where the payload does not fit it (42_encoder R102). -/
theorem exec_encStart_capacity_iff {s : State} (hs : s.state = .idle) :
    exec .encStart s = .next (s.raise .capacityExceeded) ↔ 16 * s.frameCount.toNat < 4 + s.plenIn.toNat := by
  refine ⟨fun h => Nat.lt_of_not_le fun hcap => ?_, exec_encStart_of_over_capacity hs⟩
  rw [exec_encStart_of_fits hs hcap] at h
  split_ifs at h
  · exact absurd (congrArg (·.err) (Host.Outcome.next.inj h)) (by simp)
  · exact absurd (congrArg (·.err) (Host.Outcome.next.inj h)) (by simp)
  · exact absurd (congrArg (·.state) (Host.Outcome.next.inj h)) (by simp)

/-- Settles O19. Both sides say that the payload does not fit: CAP_QUERY keeps what ENC_START reads. -/
theorem encStartAgreesWithCapQuery : Obligations.EncStartAgreesWithCapQuery := by
  intro s t hs h
  obtain rfl := Host.Outcome.next.inj ((exec_capQuery_of_idle hs).symm.trans h)
  refine Iff.trans ?_ (exec_encStart_capacity_iff (by exact hs)).symm
  refine ⟨fun hfits => Nat.lt_of_not_le fun hle => ?_, capFitsOf_of_lt⟩
  exact absurd ((capFitsOf_of_le hle).symm.trans hfits) (by decide)

/-- Settles O21. No byte is left, so the loop runs no pass and BIDX moves by none. -/
theorem encFrameAfterTheStreamOnlyCounts : Obligations.EncFrameAfterTheStreamOnlyCounts := by
  intro s hs hend
  have hzero : s.frameBytes = 0 := by
    rw [State.frameBytes, State.total_eq, hend]
    simp
  rw [exec_encFrame_of_encActive hs, hzero, Int.toNat_zero, embedBytes, endEncFrame_ok, hzero]
  simp

/-- Settles O28. -/
theorem decFrameWhenDoneHasNoEffect : Obligations.DecFrameWhenDoneHasNoEffect := fun _ => exec_decFrame_of_decDone

/-- Settles O33. -/
theorem raiseAndReturn : Obligations.RaiseAndReturn := fun s e => ⟨rfl, exec_clear (s.raise e)⟩

end Sys2Proof.Machine
end

section
/-! PROOF. The host's accesses other than commands: what is refused, what a write stores and what a read answers
(20_memory R40 to R53). -/

namespace Sys2Proof.Machine

/-- A stored configuration register changes that register, and FB where it is a geometry register (10_state R26,
R29). -/
theorem regStore_frame {r : Reg} {v : Word} {s t : State} (h : regStore r v s = some t) :
    t = { s with
      width := t.width, height := t.height, channels := t.channels, frameCount := t.frameCount
      plenIn := t.plenIn, qidx := t.qidx, fb := t.fb } := by
  cases r <;> simp only [regStore, reduceCtorEq, Option.some.injEq] at h <;> subst h <;> rfl

/-- Settles O11. By the list of effects of an access: none but a command and the reset input writes the five. -/
theorem onlyCommandsChangeState : Obligations.OnlyCommandsChangeState := by
  refine ⟨fun s => step_nil, fun s t a rest hp hc hr h => ?_⟩
  rw [step_cons hp] at h
  cases access_effect (s.begin rest) a with
  | answered _ _ h' | byteStored _ _ _ _ _ h' | sampleStored _ _ _ _ _ _ _ h' =>
    obtain rfl := Host.Outcome.next.inj (h'.symm.trans h)
    exact ⟨rfl, rfl, rfl, rfl, rfl, rfl⟩
  | registerStored r v u _ _ hu h' =>
    obtain rfl := Host.Outcome.next.inj (h'.symm.trans h)
    rw [regStore_frame hu]
    exact ⟨rfl, rfl, rfl, rfl, rfl, rfl⟩
  | reset ha _ => exact absurd ha hr
  | command _ _ ha _ _ | illegal _ _ ha _ _ => simp [ha, isCommand] at hc

/-- Settles O38. -/
theorem readsChangeNothing : Obligations.ReadsChangeNothing := by
  intro s a ha
  obtain ⟨ans, h⟩ := access_read s ha
  exact ⟨_, h, rfl⟩

/-- Settles O39. -/
theorem sampleWriteThenRead : Obligations.SampleWriteThenRead := by
  intro s row col ch v hx hv
  obtain ⟨-, hcol, hch⟩ := (s.pixExists_iff row col ch).1 hx
  refine ⟨(s.setSample row col ch v).answered .done, (access_pixWrite s row col ch v).trans (by rw [if_pos ⟨hx, hv⟩]),
    rfl, ?_, fun row' col' ch' hx' hne => ?_⟩
  · rw [access_pixRead, if_pos (by exact hx), State.sampleAt_answered, State.sampleAt_setSample v hcol hch hcol hch,
      if_pos ⟨rfl, rfl, rfl⟩]
  · obtain ⟨-, hcol', hch'⟩ := (s.pixExists_iff row' col' ch').1 hx'
    rw [State.sampleAt_answered, State.sampleAt_setSample v hcol hch hcol' hch', if_neg (by simpa using hne)]

/-- Settles O40. -/
theorem payloadWriteInIdleIsNotReadable : Obligations.PayloadWriteInIdleIsNotReadable := by
  intro s i b hs hi
  refine ⟨(s.setPayload i b).answered .done,
    (access_payWrite s i b).trans (by rw [if_pos ⟨hs, (s.payExists_iff i).2 hi⟩]), rfl, ?_, fun j hj => ?_, fun j => ?_⟩
  · rw [State.payloadAt_answered, State.payloadAt_setPayload, if_pos rfl]
  · rw [State.payloadAt_answered, State.payloadAt_setPayload, if_neg hj]
  · exact access_payRead_of_not_decDone (by simp [hs]) j

/-- Settles O41. -/
theorem payloadReadWindow : Obligations.PayloadReadWindow := by
  refine fun s i => ⟨fun hs hb hi => ?_, fun hout => ?_⟩
  · rw [access_payRead, if_pos ⟨hs, (s.payExists_iff i).2 (by omega), hi⟩]
  · rw [access_payRead, if_neg (fun h => by rcases hout with h' | h'; exacts [h' h.1, by omega])]
    rfl

-- Configuration registers.

/-- A configuration register written in IDLE is stored (20_memory R41). -/
theorem access_regWrite_stored {r : Reg} {v : Word} {s t : State} (hs : s.state = .idle)
    (ht : regStore r v s = some t) : access (.regWrite (regOffset r) 32 v) s = .next (t.answered .done) := by
  have hr : r ≠ .cmd := fun h => by simp [h, regStore] at ht
  simp only [access, if_true, regAt_regOffset, hostRegWrite, if_pos hs, ht]

/-- A word cut to the `n` bits of a register and read back (20_memory R41: unused high bits read as 0). -/
theorem setWidth_setWidth_eq_mask (v : Word) {n : Nat} (hn : n ≤ 32) :
    (v.setWidth n).setWidth 32 = v &&& BitVec.ofNat 32 (2 ^ n - 1) := by
  apply BitVec.eq_of_toNat_eq
  have hlt : 2 ^ n - 1 < 2 ^ 32 := by
    have := Nat.pow_le_pow_right (n := 2) (by decide) hn
    have := Nat.two_pow_pos n
    omega
  rw [BitVec.toNat_setWidth_of_le hn, BitVec.toNat_setWidth, BitVec.toNat_and, BitVec.toNat_ofNat,
    Nat.mod_eq_of_lt hlt, Nat.and_two_pow_sub_one_eq_mod]

/-- A stored register leaves what every other register reads as; of those only the halves of QIDX share a register of
the block (30_encoding R63). -/
theorem regRead_regStore_other {r r' : Reg} {v : Word} {s t : State} (h : regStore r v s = some t) (hne : r' ≠ r) :
    regRead r' t = regRead r' s := by
  cases r with
  | width | height | channels | frameCount | plenIn =>
    obtain rfl := Option.some.inj h
    cases r' <;> first | rfl | exact absurd rfl hne
  | qidxLo =>
    obtain rfl := Option.some.inj h
    cases r' with
    | qidxLo => exact absurd rfl hne
    | qidxHi => exact congrArg (BitVec.setWidth 32) (qidx_high _ _)
    | _ => rfl
  | qidxHi =>
    obtain rfl := Option.some.inj h
    cases r' with
    | qidxHi => exact absurd rfl hne
    | qidxLo => exact qidx_low _ _
    | _ => rfl
  | _ => simp [regStore] at h

/-- Each configuration register is stored in IDLE, and then reads as the word under the mask of its width. -/
theorem regRead_regStore_same {r : Reg} {v mask : Word} (s : State)
    (hr : (r, mask) ∈ [(Reg.width, (0xFFFF : Word)), (.height, 0xFFFF), (.channels, 0xFF), (.frameCount, 0xFFFFFFFF),
      (.plenIn, 0xFFFFFFFF), (.qidxLo, 0xFFFFFFFF), (.qidxHi, 0xF)]) :
    ∃ t, regStore r v s = some t ∧ regRead r t = v &&& mask := by
  have hall : v = v &&& 0xFFFFFFFF := BitVec.and_allOnes.symm
  simp only [List.mem_cons, Prod.mk.injEq, List.not_mem_nil, or_false] at hr
  rcases hr with ⟨rfl, rfl⟩ | ⟨rfl, rfl⟩ | ⟨rfl, rfl⟩ | ⟨rfl, rfl⟩ | ⟨rfl, rfl⟩ | ⟨rfl, rfl⟩ | ⟨rfl, rfl⟩
  · exact ⟨_, rfl, setWidth_setWidth_eq_mask v (by decide)⟩
  · exact ⟨_, rfl, setWidth_setWidth_eq_mask v (by decide)⟩
  · exact ⟨_, rfl, setWidth_setWidth_eq_mask v (by decide)⟩
  · exact ⟨_, rfl, hall⟩
  · exact ⟨_, rfl, hall⟩
  · exact ⟨_, rfl, (qidx_low _ _).trans hall⟩
  · exact ⟨_, rfl, (congrArg (BitVec.setWidth 32) (qidx_high _ _)).trans (setWidth_setWidth_eq_mask v (by decide))⟩

/-- Settles O37. -/
theorem configurationWordsReadBack : Obligations.ConfigurationWordsReadBack := by
  intro s r v mask hs hr
  obtain ⟨t, ht, hown⟩ := regRead_regStore_same s hr
  exact ⟨_, access_regWrite_stored hs ht, rfl, hown, fun _ hne => (regRead_regStore_other ht hne :)⟩

-- Refused accesses (20_memory R46).

/-- Every aligned offset below the end of the map is a register's (30_encoding R63). -/
theorem exists_regOffset {offset : Nat} (h4 : offset % 4 = 0) (hlt : offset < 0x58) : ∃ r, regOffset r = offset := by
  obtain ⟨k, rfl⟩ := Nat.dvd_of_mod_eq_zero h4
  have hk : k < 22 := by omega
  have key : ∀ k < 22, ∃ r ∈ allRegs, regOffset r = 4 * k := by decide
  obtain ⟨r, -, hr⟩ := key k hk
  exact ⟨r, hr⟩

/-- A write of a register other than CMD is refused outside IDLE, and where the register is not writable. -/
theorem refusedAccess_regWrite {r : Reg} (hr : r ≠ .cmd) (v : Word) (s : State) :
    refusedAccess (.regWrite (regOffset r) 32 v) s = ((regStore r v s).isNone || s.state != .idle) := by
  cases r with
  | cmd => exact absurd rfl hr
  | _ => rfl

/-- The two halves of R46: the listed accesses get the error response and nothing else happens, the others do not get
it. -/
def AnswersAsListed (s : State) (a : HostAccess) : Prop :=
  (refusedAccess a s = true → access a s = .next (refuse s)) ∧
    (refusedAccess a s = false → ∃ t, access a s = .next t ∧ t.answer ≠ some .errorResponse)

/-- An access that is performed under a condition, and refused elsewhere. -/
theorem answersAsListed_of_ite {s t : State} {a : HostAccess} {p : Prop} [Decidable p]
    (h : access a s = .next (if p then t else refuse s)) (ht : t.answer ≠ some .errorResponse)
    (hp : refusedAccess a s = true ↔ ¬ p) : AnswersAsListed s a := by
  refine ⟨fun hr => by rw [h, if_neg (hp.1 hr)], fun hr => ⟨t, ?_, ht⟩⟩
  have hholds : p := by_contra fun hn => by simp [hp.2 hn] at hr
  rw [h, if_pos hholds]

theorem regWrite_answersAsListed {s : State} {offset bits : Nat} {v : Word}
    (hc : isCommand (.regWrite offset bits v) = false) : AnswersAsListed s (.regWrite offset bits v) := by
  by_cases hb : bits = 32
  · subst hb
    by_cases hlisted : offset % 4 ≠ 0 ∨ 0x58 ≤ offset
    · have href : refusedAccess (.regWrite offset 32 v) s = true := by
        rcases hlisted with h | h <;> simp [refusedAccess, h]
      refine ⟨fun _ => by simp only [access, if_true, regAt_eq_none hlisted], fun h => ?_⟩
      simp [href] at h
    · obtain ⟨r, rfl⟩ := exists_regOffset (by omega : offset % 4 = 0) (by omega)
      have hr : r ≠ .cmd := by
        rintro rfl
        cases hc
      have ha : access (.regWrite (regOffset r) 32 v) s = .next (hostRegWrite r v s) := by
        simp only [access, if_true, regAt_regOffset]
      rw [AnswersAsListed, refusedAccess_regWrite hr, ha, hostRegWrite]
      cases regStore r v s <;> by_cases hs : s.state = .idle <;> simp [hs]
  · refine ⟨fun _ => by simp only [access, if_neg hb], fun h => ?_⟩
    simp [refusedAccess, hb] at h

theorem regRead_answersAsListed (s : State) (offset bits : Nat) : AnswersAsListed s (.regRead offset bits) := by
  by_cases hb : bits = 32
  · subst hb
    by_cases hlisted : offset % 4 ≠ 0 ∨ 0x58 ≤ offset
    · refine ⟨fun _ => by simp only [access, if_true, regAt_eq_none hlisted], fun h => ?_⟩
      rcases hlisted with h' | h' <;> simp [refusedAccess, h'] at h
    · obtain ⟨r, rfl⟩ := exists_regOffset (by omega : offset % 4 = 0) (by omega)
      obtain ⟨haligned, hbelow⟩ := regOffset_aligned r
      refine ⟨fun h => ?_, fun _ => ⟨_, access_regRead r s, by simp⟩⟩
      simp [refusedAccess, haligned, Nat.not_le.2 hbelow] at h
  · refine ⟨fun _ => by simp only [access, if_neg hb], fun h => ?_⟩
    simp [refusedAccess, hb] at h

theorem answersAsListed (s : State) {a : HostAccess} (hc : isCommand a = false) (hr : a ≠ .reset) :
    AnswersAsListed s a := by
  cases a with
  | regWrite offset bits v => exact regWrite_answersAsListed hc
  | regRead offset bits => exact regRead_answersAsListed s offset bits
  | payWrite i b =>
    refine answersAsListed_of_ite (access_payWrite s i b) (by simp) ?_
    simp only [refusedAccess, Bool.or_eq_true, decide_eq_true_eq, bne_iff_ne, State.payExists_iff, ← Nat.not_lt]
    tauto
  | payRead i =>
    refine answersAsListed_of_ite (access_payRead s i) (by simp) ?_
    simp only [refusedAccess, Bool.or_eq_true, decide_eq_true_eq, bne_iff_ne, State.payExists_iff, ← Nat.not_lt]
    tauto
  | pixWrite row col ch v =>
    refine answersAsListed_of_ite (access_pixWrite s row col ch v) (by simp) ?_
    simp only [refusedAccess, Bool.or_eq_true, decide_eq_true_eq, State.pixExists_iff]
    omega
  | pixRead row col ch =>
    refine answersAsListed_of_ite (access_pixRead s row col ch) (by simp) ?_
    simp only [refusedAccess, Bool.or_eq_true, decide_eq_true_eq, State.pixExists_iff]
    omega
  | reset => exact absurd rfl hr

/-- Settles O35. -/
theorem refusedAccessesChangeNothing : Obligations.RefusedAccessesChangeNothing := by
  intro s a hc hr
  obtain ⟨hlisted, hother⟩ := answersAsListed s hc hr
  cases href : refusedAccess a s with
  | true => exact ⟨_, hlisted href, ⟨fun _ => rfl, fun _ => rfl⟩, fun _ => rfl⟩
  | false =>
    obtain ⟨t, h, hanswer⟩ := hother href
    exact ⟨t, h, ⟨fun he => absurd he hanswer, nofun⟩, nofun⟩

end Sys2Proof.Machine
end

section
/-! PROOF. Memories, addresses, one slot, and reset: canonical memories as data (logs 5, 6), `slot_for` and its inverse
(40_slot_addresser R80 to R84), a byte in the lanes of a slot (43_decoder R120), and the state after reset (10_state
R33). -/

namespace Sys2Proof.Machine

-- Canonical memories.

/-- At and below the lower bound of a rising list nothing is listed. -/
theorem lookupCell_of_le {α : Type} {l : List (Nat × α)} {lo a : Nat} (h : risingFrom (some lo) l = true)
    (ha : a ≤ lo) : lookupCell l a = none := by
  cases hl : lookupCell l a with
  | none => rfl
  | some v =>
    have := risingFrom_lt h _ (mem_of_lookupCell hl)
    omega

theorem risingFrom_tail {α : Type} {lo : Option Nat} {b : Nat} {v : α} {rest : List (Nat × α)}
    (h : risingFrom lo ((b, v) :: rest) = true) : risingFrom (some b) rest = true := by
  simp only [risingFrom, Bool.and_eq_true] at h
  exact h.2

@[simp] theorem lookupCell_head {α : Type} (b : Nat) (v : α) (rest : List (Nat × α)) :
    lookupCell ((b, v) :: rest) b = some v := if_pos rfl

theorem lookupCell_below {α : Type} {a b : Nat} (v : α) (rest : List (Nat × α)) (h : a < b) :
    lookupCell ((b, v) :: rest) a = none := by
  rw [lookupCell, if_neg (by omega), if_pos h]

theorem lookupCell_above {α : Type} {a b : Nat} (v : α) (rest : List (Nat × α)) (h : b < a) :
    lookupCell ((b, v) :: rest) a = lookupCell rest a := by
  rw [lookupCell, if_neg (by omega), if_neg (by omega)]

/-- Rising lists that list the same units are equal: the smaller of two unequal heads would be listed in one only. -/
theorem cells_ext {α : Type} {l l' : List (Nat × α)} {lo lo' : Option Nat} (h : risingFrom lo l = true)
    (h' : risingFrom lo' l' = true) (heq : ∀ a, lookupCell l a = lookupCell l' a) : l = l' := by
  induction l generalizing lo lo' l' with
  | nil =>
    cases l' with
    | nil => rfl
    | cons c' rest' => simpa [lookupCell] using heq c'.1
  | cons c rest ih =>
    obtain ⟨b, v⟩ := c
    cases l' with
    | nil => simpa [lookupCell] using heq b
    | cons c' rest' =>
      obtain ⟨b', v'⟩ := c'
      rcases lt_trichotomy b b' with hlt | rfl | hlt
      · simpa [lookupCell_below _ _ hlt] using heq b
      · obtain rfl : v = v' := by simpa using heq b
        have hrest : rest = rest' := ih (risingFrom_tail h) (risingFrom_tail h') fun a => by
          by_cases ha : a ≤ b
          · rw [lookupCell_of_le (risingFrom_tail h) ha, lookupCell_of_le (risingFrom_tail h') ha]
          · have := heq a
            rwa [lookupCell_above _ _ (by omega), lookupCell_above _ _ (by omega)] at this
        rw [hrest]
      · simpa [lookupCell_below _ _ hlt] using heq b'

/-- Settles O43. -/
theorem canonicalMemoriesAreEqualData : Obligations.CanonicalMemoriesAreEqualData := by
  intro α m m' h h' hepoch heq
  have hcells : m.cells = m'.cells := cells_ext h h' heq
  cases m
  cases m'
  simp_all

-- Addresses.

/-- Settles O44. -/
theorem slotForStaysInTheFrame : Obligations.SlotForStaysInTheFrame := by
  intro k H W C hH hH' hW hC
  simp only [slotFor_slot, slotFor_row, slotFor_col, slotFor_channel, slotFor_frame]
  refine ⟨by omega, by omega, by omega, by omega, fun i hi => by omega, trivial, hC, fun hk => by omega⟩

/-- Settles O45. -/
theorem slotForAtBitLevel : Obligations.SlotForAtBitLevel := by
  intro k H i hi
  simp only [slotFor_row, slotFor_col, slotFor_channel, slotFor_frame, true_and]
  omega

/-- Which locations hold a stream bit, and which one (40_slot_addresser R84). -/
theorem slotInverse_eq_some {f H row col ch k b : Nat} :
    slotInverse f H row col ch = some (k, b) ↔
      (ch = 0 ∧ H - 2 ≤ row ∧ row < H ∧ col ≤ 63) ∧ k = 16 * f + 8 * (row - (H - 2)) + col / 8 ∧ b = 7 - col % 8 := by
  unfold slotInverse
  split_ifs with h
  · simp only [Option.some.injEq, Prod.mk.injEq, h, true_and]
    omega
  · exact iff_of_false nofun fun hx => h hx.1

theorem slotInverse_isSome {f H row col ch : Nat} :
    (slotInverse f H row col ch).isSome = true ↔ ch = 0 ∧ H - 2 ≤ row ∧ row < H ∧ col ≤ 63 := by
  unfold slotInverse
  split_ifs with h
  · exact iff_of_true rfl h
  · exact iff_of_false nofun h

/-- Settles O46. Each part is arithmetic once `slot_for` and its inverse are written out. -/
theorem slotInverseInvertsSlotFor : Obligations.SlotInverseInvertsSlotFor := by
  refine ⟨fun f H row col ch hH => ?_, fun f H row col ch k b hH h => ?_, fun f H row col ch k b hH => ?_,
    fun H k k' i i' hH hi hi' hf hr hc => ?_⟩
  · rw [slotInverse_isSome]
    omega
  · obtain ⟨-, hk, hb⟩ := slotInverse_eq_some.1 h
    exact ⟨hb, hk⟩
  · rw [slotInverse_eq_some, slotFor_frame, slotFor_row, slotFor_col, slotFor_channel]
    omega
  · simp only [slotFor_frame, slotFor_row, slotFor_col] at hf hr hc
    omega

-- One slot.

/-- Settles O27. -/
theorem slotByteIsMsbFirst : Obligations.SlotByteIsMsbFirst := by
  intro s slot i hslot hi
  rw [State.slotByte_getLsbD s slot hi, Nat.mod_eq_of_lt hslot]

/-- Where a state's LSBs of a slot are the bits of a byte, MSB first, the slot spells the byte (43_decoder R120). -/
theorem State.slotByte_eq {s : State} {slot : Nat} {b : Byte}
    (h : ∀ i < 8, s.sampleAt ((s.height.toNat - 2) + slot % 16 / 8) (8 * (slot % 8) + i) 0 % 2 = laneBit b i) :
    s.slotByte slot = b := by
  refine byte_ext fun i hi => ?_
  rw [State.slotByte_getLsbD s slot hi, h i hi, laneBit_eq]
  cases b.getLsbD (7 - i) <;> rfl

/-- Settles O47. EmbedByte leaves the byte's bits in the LSBs of its slot, and there ExtractByte reads them. -/
theorem extractAfterEmbedReturnsTheByte : Obligations.ExtractAfterEmbedReturnsTheByte := by
  intro s slot b he hslot hn
  obtain ⟨fb', hembed, hsample, -, -⟩ := embedByte_spec slot b s he hn
  suffices hbyte : (s.withFb fb').slotByte slot = b from
    ⟨_, _, hembed, (extractByte_spec slot _ (by exact he)).trans
      (congrArg (fun x : Byte => (Except.ok (x, _) : Except Fault (Byte × State))) hbyte)⟩
  refine State.slotByte_eq fun i hi => ?_
  have hx : s.pixExists ((s.height.toNat - 2) + slot % 16 / 8) (8 * (slot % 8) + i) 0 = true := by
    simpa only [slotFor_row, slotFor_col, slotFor_channel] using pixExists_slot he slot hi
  have hs := hsample _ _ _ hx
  rw [if_pos ⟨rfl, rfl, by omega⟩, show (8 * (slot % 8) + i) % 8 = i by omega] at hs
  calc _ = withLsb _ (laneBit b i) % 2 := congrArg (· % 2) hs
    _ = laneBit b i := by rw [withLsb_mod_two, Nat.mod_eq_of_lt (laneBit_lt b i)]

-- Reset.

/-- Settles O50. -/
theorem resetStateIsTheTable : Obligations.ResetStateIsTheTable := by
  have hineligible : State.reset.eligible = false := by decide
  exact ⟨rfl, rfl, rfl, rfl, rfl, rfl, rfl, rfl, rfl, rfl, rfl, rfl, rfl, rfl, rfl, rfl, rfl, rfl, fun _ _ _ => rfl,
    fun _ => rfl, fun _ => rfl, exec_encStart_of_over_capacity rfl (by decide),
    exec_decStart_of_ineligible rfl hineligible, exec_slotQuery_of_ineligible rfl hineligible⟩

/-- Settles O51. -/
theorem hardwareResetRestoresTheTable : Obligations.HardwareResetRestoresTheTable :=
  fun s => ⟨s.hardwareReset, rfl, rfl, Memory.lookup_forget s.pbuf, Memory.lookup_forget s.fb⟩

end Sys2Proof.Machine
end

section
/-! PROOF. ENC_FRAME (42_encoder R101 to R105): its next state with every sample of the frame, what it can touch in any
state, and where it stops for a missing location (log 9). -/

namespace Sys2Proof.Machine

-- The bytes of one frame command (42_encoder R103, 43_decoder R122).

/-- `min(16, 4 + HDR - BIDX)`, in the naturals: the stream bytes that the next frame command moves. -/
def State.nextBytes (s : State) : Nat := min 16 (4 + s.hdr.toNat - s.bidx.toNat)

theorem State.frameBytes_toNat (s : State) : s.frameBytes.toNat = s.nextBytes := by
  simp only [State.frameBytes, State.total_eq, State.nextBytes]
  omega

theorem State.nextBytes_le (s : State) : s.nextBytes ≤ 16 := Nat.min_le_left _ _

theorem State.bidx_add_nextBytes_le {s : State} (h : s.bidx.toNat ≤ 4 + s.hdr.toNat) :
    s.bidx.toNat + s.nextBytes ≤ 4 + s.hdr.toNat := by
  simp only [State.nextBytes]
  omega

/-- The moved position fits BIDX, which has 33 bits (41_capacity_planner R94). -/
theorem State.bidx_add_nextBytes_toNat {s : State} (h : s.bidx.toNat ≤ 4 + s.hdr.toNat) :
    (BitVec.ofNat 33 (s.bidx.toNat + s.nextBytes)).toNat = s.bidx.toNat + s.nextBytes := by
  have hle := State.bidx_add_nextBytes_le h
  have hhdr := s.hdr.isLt
  rw [BitVec.toNat_ofNat]
  exact Nat.mod_eq_of_lt (by omega)

-- The next state.

/-- The state after an ENC_FRAME that leaves `fb` in FB. -/
def State.afterEncFrame (s : State) (fb : Memory Nat) : State :=
  { s with
    fb := fb
    bidx := BitVec.ofNat 33 (s.bidx.toNat + s.nextBytes)
    fidx := s.fidx + 1
    accesses := s.accesses ++ encTrace s.height.toNat s.bidx.toNat s.nextBytes }

/-- What ENC_FRAME rests on: the state, the checks of ENC_START, and a position within the stream (10_state R31 items 2
and 8). -/
structure State.encReady (s : State) : Prop where
  state : s.state = .encActive
  eligible : s.eligible = true
  sampleBits : 1 ≤ s.params.sampleBits
  buffer : s.hdr.toNat ≤ s.params.pbufBytes
  position : s.bidx.toNat ≤ 4 + s.hdr.toNat

/-- FB after the embedding of the bytes `k` to `k + n - 1` of the stream of `s`: lane `i` of each slot has bit `7 - i`
of its byte in bit 0, and every other sample is as it was. -/
structure State.embedsInto (s : State) (k n : Nat) (fb : Memory Nat) : Prop where
  lanes : ∀ j i, k ≤ j → j < k + n → i < 8 →
    (s.withFb fb).sampleAt ((s.height.toNat - 2) + j % 16 / 8) (8 * (j % 8) + i) 0 =
      withLsb (s.sampleAt ((s.height.toNat - 2) + j % 16 / 8) (8 * (j % 8) + i) 0) (laneBit (s.streamByte j) i)
  others : ∀ row col ch, s.pixExists row col ch = true →
    (∀ j i, k ≤ j → j < k + n → i < 8 →
      ¬ (row = (s.height.toNat - 2) + j % 16 / 8 ∧ col = 8 * (j % 8) + i ∧ ch = 0)) →
    (s.withFb fb).sampleAt row col ch = s.sampleAt row col ch
  sound : s.fbOk → (s.withFb fb).fbOk

theorem pixExists_lane {s : State} (he : s.eligible = true) (k : Nat) {i : Nat} (hi : i < 8) :
    s.pixExists ((s.height.toNat - 2) + k % 16 / 8) (8 * (k % 8) + i) 0 = true := by
  simpa only [slotFor_row, slotFor_col, slotFor_channel] using pixExists_slot he k hi

/-- ENC_FRAME completes where it is ready, and its next state embeds the next bytes (42_encoder R103). -/
theorem exec_encFrame_of_ready {s : State} (h : s.encReady) :
    ∃ fb, exec .encFrame s = .next (s.afterEncFrame fb) ∧ s.embedsInto s.bidx.toNat s.nextBytes fb := by
  have hbytes : s.frameBytes = (s.nextBytes : Int) := by
    rw [State.frameBytes_eq h.position]
    rfl
  obtain ⟨fb, hrun, hsample, hsound, -⟩ := embedBytes_spec s.bidx.toNat s.nextBytes s h.eligible h.sampleBits
    s.nextBytes_le fun j hj _ => by
      have := State.bidx_add_nextBytes_le h.position
      have := h.buffer
      omega
  refine ⟨fb, ?_, fun j i hlo hhi hi => ?_, fun row col ch hx hno => (hsample row col ch hx).2 fun j hj hit => ?_,
    hsound⟩
  · rw [exec_encFrame_of_encActive h.state, State.frameBytes_toNat, hrun, endEncFrame_ok, hbytes, ← Nat.cast_add,
      BitVec.ofInt_natCast]
    rfl
  · have hlane := (hsample _ _ _ (pixExists_lane h.eligible j hi)).1 (j - s.bidx.toNat) (by omega)
    rw [Nat.add_sub_cancel' hlo, show (8 * (j % 8) + i) % 8 = i by omega] at hlane
    exact hlane rfl rfl (by omega)
  · exact hno (s.bidx.toNat + j) (col % 8) (by omega) (by omega) (by omega) (by omega)

theorem State.afterEncFrame_bidx {s : State} (h : s.bidx.toNat ≤ 4 + s.hdr.toNat) (fb : Memory Nat) :
    (s.afterEncFrame fb).bidx.toNat = s.bidx.toNat + s.nextBytes := State.bidx_add_nextBytes_toNat h

/-- Settles O20. -/
theorem encFrameEmbedsTheNextBytes : Obligations.EncFrameEmbedsTheNextBytes := by
  intro s hs he hn hb hp
  obtain ⟨fb, hrun, hembed⟩ := exec_encFrame_of_ready ⟨hs, he, hn, hb, hp⟩
  refine ⟨_, hrun, rfl, State.afterEncFrame_bidx hp fb, fun k i hlo hhi hi => ?_, hembed.others⟩
  have hbit : laneBit (s.streamByte k) i % 2 = ((s.streamByte k).getLsbD (7 - i)).toNat := by
    rw [Nat.mod_eq_of_lt (laneBit_lt _ _), laneBit_eq]
  exact (hembed.lanes k i hlo hhi hi).trans (congrArg (2 * (_ / 2) + ·) hbit)

/-- Bit `7 - i` of header byte `k` (20_memory R44). -/
theorem headerByte_getLsbD (hdr : Word) {k i : Nat} (hi : i < 8) :
    (headerByte hdr k).getLsbD (7 - i) = hdr.getLsbD (8 * (3 - k) + (7 - i)) := by
  rw [headerByte, BitVec.getLsbD_setWidth, BitVec.getLsbD_ushiftRight, decide_eq_true (by omega), Bool.true_and]

/-- Settles O23. Column `31 - b` is lane `(31 - b) % 8` of header byte `(31 - b) / 8`. -/
theorem headerBitsLieMsbFirst : Obligations.HeaderBitsLieMsbFirst := by
  intro s t hs he hn hb hzero h b hlt
  have hbidx : s.bidx.toNat = 0 := by simp [hzero]
  obtain ⟨fb, hrun, hembed⟩ := exec_encFrame_of_ready ⟨hs, he, hn, hb, by omega⟩
  obtain rfl := Host.Outcome.next.inj (hrun.symm.trans h)
  have hlane := hembed.lanes ((31 - b) / 8) ((31 - b) % 8) (by omega)
    (by simp only [State.nextBytes]; omega) (by omega)
  rw [show (31 - b) / 8 % 16 / 8 = 0 by omega, show 8 * ((31 - b) / 8 % 8) + (31 - b) % 8 = 31 - b by omega,
    Nat.add_zero] at hlane
  have hbyte : s.streamByte ((31 - b) / 8) = headerByte s.hdr ((31 - b) / 8) := if_pos (by omega)
  calc (s.withFb fb).sampleAt (s.height.toNat - 2) (31 - b) 0 % 2
      = laneBit (headerByte s.hdr ((31 - b) / 8)) ((31 - b) % 8) := by
        rw [hlane, withLsb_mod_two, Nat.mod_eq_of_lt (laneBit_lt _ _), hbyte]
    _ = (s.hdr.getLsbD b).toNat := by
        rw [laneBit_eq, headerByte_getLsbD _ (by omega),
          show 8 * (3 - (31 - b) / 8) + (7 - (31 - b) % 8) = b by omega]

-- What ENC_FRAME can touch, in any state (42_encoder R105).

/-- `t` is `s` but for the record and for bit 0 of samples in SLOTSET. -/
structure State.lsbsChanged (s t : State) : Prop where
  rest : t = { s with fb := t.fb, accesses := t.accesses }
  outside : ∀ row col ch, s.pixExists row col ch = true → ¬ s.inSlotSet row col ch →
    t.sampleAt row col ch = s.sampleAt row col ch
  upper : ∀ row col ch, s.pixExists row col ch = true → t.sampleAt row col ch / 2 = s.sampleAt row col ch / 2

theorem State.lsbsChanged_refl (s : State) (acc : List CoreAccess) : s.lsbsChanged { s with accesses := acc } :=
  ⟨rfl, fun _ _ _ _ _ => rfl, fun _ _ _ _ => rfl⟩

theorem State.lsbsChanged.trans {s t u : State} (h : s.lsbsChanged t) (h' : t.lsbsChanged u) : s.lsbsChanged u := by
  have hx : ∀ row col ch, t.pixExists row col ch = s.pixExists row col ch := by rw [h.rest]; exact fun _ _ _ => rfl
  have hin : ∀ row col ch, t.inSlotSet row col ch ↔ s.inSlotSet row col ch := by
    rw [h.rest]; exact fun _ _ _ => Iff.rfl
  refine ⟨h'.rest.trans (by rw [h.rest]), fun row col ch he hout => ?_, fun row col ch he => ?_⟩
  · rw [h'.outside row col ch ((hx ..).trans he) (mt (hin ..).1 hout), h.outside row col ch he hout]
  · rw [h'.upper row col ch ((hx ..).trans he), h.upper row col ch he]

/-- One read-modify-write of a lane inside SLOTSET. -/
theorem State.lsbsChanged_lane {s : State} {row col ch bit : Nat} (hx : s.pixExists row col ch = true)
    (hin : s.inSlotSet row col ch) (acc : List CoreAccess) :
    s.lsbsChanged { s.setSample row col ch (withLsb (s.sampleAt row col ch) bit) with accesses := acc } := by
  obtain ⟨-, hcol, hch⟩ := (s.pixExists_iff row col ch).1 hx
  have hsample : ∀ row' col' ch', s.pixExists row' col' ch' = true →
      (s.setSample row col ch (withLsb (s.sampleAt row col ch) bit)).sampleAt row' col' ch' =
        if row' = row ∧ col' = col ∧ ch' = ch then withLsb (s.sampleAt row col ch) bit
        else s.sampleAt row' col' ch' := fun row' col' ch' hx' =>
    State.sampleAt_setSample _ hcol hch ((s.pixExists_iff _ _ _).1 hx').2.1 ((s.pixExists_iff _ _ _).1 hx').2.2
  refine ⟨rfl, fun row' col' ch' hx' hout => (hsample _ _ _ hx').trans (if_neg ?_),
    fun row' col' ch' hx' => (congrArg (· / 2) (hsample _ _ _ hx')).trans ?_⟩
  · rintro ⟨rfl, rfl, rfl⟩
    exact hout hin
  · split_ifs with hhit
    · obtain ⟨rfl, rfl, rfl⟩ := hhit
      exact withLsb_div_two _ _
    · rfl

theorem embedLanes_lsbsChanged {l : SlotLoc} {b : Byte} {is : List Nat} {s t : State}
    (hin : ∀ i ∈ is, s.inSlotSet l.row (l.col i) l.channel) (h : embedLanes l b is s = .ok t) : s.lsbsChanged t := by
  induction is generalizing s with
  | nil =>
    obtain rfl := Except.ok.inj h
    exact s.lsbsChanged_refl _
  | cons i rest ih =>
    by_cases hx : s.pixExists l.row (l.col i) l.channel = true
    · have hx' : (s.note (.pixRead l.row (l.col i) l.channel)).pixExists l.row (l.col i) l.channel = true := hx
      simp only [embedLanes, corePixRead_eq hx, corePixWrite_eq _ hx'] at h
      have hlane := State.lsbsChanged_lane (bit := laneBit b i) hx (hin i List.mem_cons_self)
        (s.accesses ++ [.pixRead l.row (l.col i) l.channel] ++ [.pixWrite l.row (l.col i) l.channel])
      exact hlane.trans (ih (fun j hj => hin j (List.mem_cons_of_mem _ hj)) h)
    · simp [embedLanes, corePixRead, hx] at h

theorem embedByte_lsbsChanged {slot : Nat} {b : Byte} {s t : State} (h : embedByte slot b s = .ok t) :
    s.lsbsChanged t := by
  unfold embedByte at h
  split_ifs at h with hH
  refine embedLanes_lsbsChanged (fun i hi => ?_) h
  have hi8 := mem_lanes.1 hi
  have hH2 : 2 ≤ s.height.toNat := Nat.not_lt.1 hH
  rw [State.inSlotSet, slotFor_row, slotFor_col, slotFor_channel]
  omega

theorem embedBytes_lsbsChanged {k n : Nat} {s t : State} (h : embedBytes k n s = .ok t) : s.lsbsChanged t := by
  induction n generalizing k s with
  | zero =>
    obtain rfl := Except.ok.inj h
    exact s.lsbsChanged_refl _
  | succ n ih =>
    by_cases hb : s.byteExists k
    · obtain ⟨acc, hbyte⟩ := (coreStreamByte_cases k s).1 hb
      simp only [embedBytes, hbyte] at h
      cases he : embedByte (k % Config.slotsPerFrame) (s.streamByte k) { s with accesses := acc } with
      | ok u =>
        simp only [he] at h
        exact (s.lsbsChanged_refl acc).trans ((embedByte_lsbsChanged he).trans (ih h))
      | error f => simp [he] at h
    · simp [embedBytes, (coreStreamByte_cases k s).2 hb] at h

/-- The next state of an ENC_FRAME that completes in ENC_ACTIVE: the loop's, with BIDX and FIDX moved on. -/
theorem exec_encFrame_next {s t : State} (hs : s.state = .encActive) (h : exec .encFrame s = .next t) :
    ∃ u, embedBytes s.bidx.toNat s.nextBytes s = .ok u ∧
      t = { u with bidx := BitVec.ofInt 33 (s.bidx.toNat + s.frameBytes), fidx := s.fidx + 1 } := by
  rw [exec_encFrame_of_encActive hs, State.frameBytes_toNat] at h
  cases he : embedBytes s.bidx.toNat s.nextBytes s with
  | ok u =>
    rw [he, endEncFrame_ok] at h
    exact ⟨u, rfl, (Host.Outcome.next.inj h).symm⟩
  | error f => simp [he] at h

/-- Settles O22. In ENC_ACTIVE the loop changes bit 0 of SLOTSET samples only; elsewhere no memory is touched. -/
theorem encFrameIsLocal : Obligations.EncFrameIsLocal := by
  intro s t h
  have hsame : ∀ u : State, u.fb = s.fb → u.width = s.width → u.channels = s.channels → u.params = s.params →
      u.pbuf = s.pbuf → exec .encFrame s = .next u →
      (∀ row col ch, s.pixExists row col ch = true →
        (¬ s.inSlotSet row col ch → t.sampleAt row col ch = s.sampleAt row col ch) ∧
        t.sampleAt row col ch / 2 = s.sampleAt row col ch / 2) ∧ (∀ i, t.payloadAt i = s.payloadAt i) := by
    intro u hf hw hc hp hb hu
    obtain rfl := Host.Outcome.next.inj (hu.symm.trans h)
    have hsample := State.sampleAt_congr hf hw hc hp
    exact ⟨fun row col ch _ => ⟨fun _ => hsample _ _ _, congrArg (· / 2) (hsample _ _ _)⟩,
      State.payloadAt_congr hb⟩
  by_cases herr : s.state = .error
  · exact hsame s rfl rfl rfl rfl rfl (exec_of_error herr (by decide))
  by_cases hs : s.state = .encActive
  · obtain ⟨u, hu, rfl⟩ := exec_encFrame_next hs h
    have hlsb := embedBytes_lsbsChanged hu
    refine ⟨fun row col ch hx => ⟨hlsb.outside row col ch hx, hlsb.upper row col ch hx⟩, fun i => ?_⟩
    exact State.payloadAt_congr (s := s) (by rw [hlsb.rest]) i
  · exact hsame (s.raise .illegalCommand) rfl rfl rfl rfl rfl (exec_encFrame_of_not_encActive hs herr)

-- Where it stops (log 9).

/-- A byte that has its slot and its source is embedded, and the loop goes on with the next. -/
theorem embedBytes_succ {k : Nat} {s : State} (hslot : s.slotExists k) (hbyte : s.byteExists k) (n : Nat) :
    ∃ (fb : Memory Nat) (acc : List CoreAccess),
      embedBytes k (n + 1) s = embedBytes (k + 1) n { s with fb := fb, accesses := acc } := by
  obtain ⟨acc, e1⟩ := (coreStreamByte_cases k s).1 hbyte
  obtain ⟨fb, acc', e2⟩ := (embedByte_cases (k % Config.slotsPerFrame) (s.streamByte k) { s with accesses := acc }).1
    ((s.slotExists_mod k).2 hslot)
  exact ⟨fb, acc', by simp only [embedBytes, e1, e2]⟩

/-- After the bytes that have their slot and their source, the loop stands at the next one. -/
theorem embedBytes_after {k n j : Nat} {s : State} (hj : j ≤ n)
    (h : ∀ j' < j, s.slotExists (k + j') ∧ s.byteExists (k + j')) :
    ∃ (fb : Memory Nat) (acc : List CoreAccess),
      embedBytes k n s = embedBytes (k + j) (n - j) { s with fb := fb, accesses := acc } := by
  induction j with
  | zero => exact ⟨s.fb, s.accesses, rfl⟩
  | succ j ih =>
    obtain ⟨fb, acc, hrun⟩ := ih (by omega) fun j' hj' => h j' (by omega)
    obtain ⟨hslot, hbyte⟩ := h j (by omega)
    obtain ⟨fb', acc', hnext⟩ := embedBytes_succ (s := { s with fb := fb, accesses := acc }) hslot hbyte (n - (j + 1))
    refine ⟨fb', acc', hrun.trans ?_⟩
    rw [show n - j = n - (j + 1) + 1 by omega, hnext, Nat.add_assoc]

theorem embedBytes_no_byte {k n : Nat} {s : State} (h : ¬ s.byteExists k) :
    embedBytes k (n + 1) s = .error .noSuchPayloadByte := by
  simp only [embedBytes, (coreStreamByte_cases k s).2 h]

theorem embedBytes_no_slot {k n : Nat} {s : State} (hbyte : s.byteExists k) (hslot : ¬ s.slotExists k) :
    embedBytes k (n + 1) s = .error .noSuchPixel := by
  obtain ⟨acc, e1⟩ := (coreStreamByte_cases k s).1 hbyte
  have e2 := (embedByte_cases (k % Config.slotsPerFrame) (s.streamByte k) { s with accesses := acc }).2
    (mt (s.slotExists_mod k).1 hslot)
  simp only [embedBytes, e1, e2]

/-- The loop completes only where every byte has its slot and its source. -/
theorem exists_of_embedBytes_ok {k n : Nat} {s t : State} (h : embedBytes k n s = .ok t) :
    ∀ j, k ≤ j → j < k + n → s.slotExists j ∧ s.byteExists j := by
  induction n generalizing k s with
  | zero => exact fun j _ _ => by omega
  | succ n ih =>
    have hbyte : s.byteExists k := by_contra fun hb => by simp [embedBytes_no_byte hb] at h
    have hslot : s.slotExists k := by_contra fun hs => by simp [embedBytes_no_slot hbyte hs] at h
    obtain ⟨fb, acc, hnext⟩ := embedBytes_succ hslot hbyte n
    intro j hlo hhi
    rcases Nat.eq_or_lt_of_le hlo with rfl | hlt
    · exact ⟨hslot, hbyte⟩
    · exact ih (s := { s with fb := fb, accesses := acc }) (hnext ▸ h) j hlt (by omega)

/-- ENC_FRAME in ENC_ACTIVE completes exactly where its bytes have their slots and sources. -/
theorem exec_encFrame_completes_iff {s : State} (hs : s.state = .encActive) :
    (∃ t, exec .encFrame s = .next t) ↔
      ∀ k, s.bidx.toNat ≤ k → k < s.bidx.toNat + s.nextBytes → s.slotExists k ∧ s.byteExists k := by
  constructor
  · rintro ⟨t, h⟩
    obtain ⟨u, hu, -⟩ := exec_encFrame_next hs h
    exact exists_of_embedBytes_ok hu
  · intro h
    obtain ⟨fb, acc, hrun⟩ := embedBytes_after (k := s.bidx.toNat) (s := s) (le_refl s.nextBytes)
      fun j hj => h _ (by omega) (by omega)
    rw [Nat.sub_self] at hrun
    exact ⟨_, by rw [exec_encFrame_of_encActive hs, State.frameBytes_toNat, hrun, embedBytes, endEncFrame_ok]⟩

/-- The first byte that lacks its slot or its source decides the fault. -/
theorem exec_encFrame_stops {s : State} {k : Nat} (hs : s.state = .encActive) (hlo : s.bidx.toNat ≤ k)
    (hhi : k < s.bidx.toNat + s.nextBytes)
    (hbefore : ∀ k', s.bidx.toNat ≤ k' → k' < k → s.slotExists k' ∧ s.byteExists k') :
    (¬ s.byteExists k → exec .encFrame s = .fault .noSuchPayloadByte) ∧
      (s.byteExists k → ¬ s.slotExists k → exec .encFrame s = .fault .noSuchPixel) := by
  obtain ⟨j, rfl⟩ := Nat.exists_eq_add_of_le hlo
  obtain ⟨fb, acc, hrun⟩ := embedBytes_after (k := s.bidx.toNat) (n := s.nextBytes) (j := j) (s := s) (by omega)
    fun j' hj' => hbefore _ (by omega) (by omega)
  obtain ⟨n, hn⟩ : ∃ n, s.nextBytes - j = n + 1 := ⟨s.nextBytes - j - 1, by omega⟩
  rw [exec_encFrame_of_encActive hs, State.frameBytes_toNat, hrun, hn]
  refine ⟨fun hb => ?_, fun hb hslot => ?_⟩
  · rw [embedBytes_no_byte (s := { s with fb := fb, accesses := acc }) hb, endEncFrame_error]
  · rw [embedBytes_no_slot (s := { s with fb := fb, accesses := acc }) hb hslot, endEncFrame_error]

end Sys2Proof.Machine
end

section
/-! PROOF. DEC_FRAME (43_decoder R120 to R124): its next state from DEC_HEADER and from DEC_PAYLOAD, with every byte of
PBUF. -/

namespace Sys2Proof.Machine

-- PBUF after a frame.

/-- PBUF after the bytes of the slots `slot`, `slot + 1`, … of `s` have been stored at the `n` indices from `lo` on:
every other byte is as it was. -/
structure State.storesSlots (s : State) (slot lo n : Nat) (pb : Memory Byte) : Prop where
  stored : ∀ j < n, (s.withPbuf pb).payloadAt (lo + j) = s.slotByte (slot + j)
  others : ∀ i, i < lo ∨ lo + n ≤ i → (s.withPbuf pb).payloadAt i = s.payloadAt i
  sound : s.pbufOk → (s.withPbuf pb).pbufOk

theorem State.storesSlots_zero (s : State) (slot lo : Nat) : s.storesSlots slot lo 0 s.pbuf :=
  ⟨fun j hj => absurd hj (Nat.not_lt_zero j), fun _ _ => rfl, id⟩

/-- The slot loop in DEC_PAYLOAD over the `m` slots from `slot` on. -/
theorem decSlots_storesSlots (m slot : Nat) {s : State} (he : s.eligible = true) (hst : s.state = .decPayload)
    (hlo : 4 ≤ s.bidx.toNat) (hhi : s.bidx.toNat < 4 + s.hdr.toNat) (hb : s.hdr.toNat ≤ s.params.pbufBytes) {n : Nat}
    (hn : n = min m (4 + s.hdr.toNat - s.bidx.toNat)) :
    ∃ pb, decSlots (List.range' slot m) s = .ok (if s.bidx.toNat + n = 4 + s.hdr.toNat then .leave else .goOn,
        { s with
          pbuf := pb
          bidx := BitVec.ofNat 33 (s.bidx.toNat + n)
          state := if s.bidx.toNat + n = 4 + s.hdr.toNat then .decDone else .decPayload
          accesses := s.accesses ++ payloadTrace s.height.toNat slot s.bidx.toNat n }) ∧
      s.storesSlots slot (s.bidx.toNat - 4) n pb := by
  subst hn
  obtain ⟨pb, hrun, hpay, hsound, -⟩ := decSlots_payload m slot s he hst hlo hhi hb
  rw [State.total_eq] at hrun
  refine ⟨pb, hrun, fun j hj => ?_, fun i hi => ?_, hsound⟩
  · rw [hpay, State.total_eq, if_pos (by omega), Nat.add_sub_cancel_left]
  · rw [hpay, State.total_eq, if_neg (by omega)]

/-- Where the loop ends for the slots or for the payload, FIDX counts the frame. -/
theorem endDecFrame_ite (p : Prop) [Decidable p] (t : State) :
    endDecFrame (.ok (if p then .leave else .goOn, t)) = .next { t with fidx := t.fidx + 1 } := by
  split <;> rfl

-- From DEC_PAYLOAD.

/-- What a DEC_FRAME in DEC_PAYLOAD rests on (10_state R31 items 4 and 8). -/
structure State.payloadReady (s : State) : Prop where
  state : s.state = .decPayload
  eligible : s.eligible = true
  afterHeader : 4 ≤ s.bidx.toNat
  position : s.bidx.toNat < 4 + s.hdr.toNat
  buffer : s.hdr.toNat ≤ s.params.pbufBytes

/-- The state after a DEC_FRAME in DEC_PAYLOAD that leaves `pb` in PBUF. -/
def State.afterPayloadFrame (s : State) (pb : Memory Byte) : State :=
  { s with
    pbuf := pb
    bidx := BitVec.ofNat 33 (s.bidx.toNat + s.nextBytes)
    fidx := s.fidx + 1
    state := if s.bidx.toNat + s.nextBytes = 4 + s.hdr.toNat then .decDone else .decPayload
    accesses := s.accesses ++ decTrace s.height.toNat s.bidx.toNat s.nextBytes }

theorem exec_decFrame_of_payloadReady {s : State} (h : s.payloadReady) :
    ∃ pb, exec .decFrame s = .next (s.afterPayloadFrame pb) ∧
      s.storesSlots 0 (s.bidx.toNat - 4) s.nextBytes pb := by
  obtain ⟨pb, hrun, hstores⟩ := decSlots_storesSlots 16 0 h.eligible h.state h.afterHeader h.position h.buffer
    (n := s.nextBytes) rfl
  refine ⟨pb, ?_, hstores⟩
  rw [exec_decFrame_of_decoding (.inr h.state), canonicalSlots_eq_range, hrun, endDecFrame_ite,
    ← decTrace_payload _ _ h.afterHeader]
  rfl

/-- Settles O26. -/
theorem decFrameReadsThePayload : Obligations.DecFrameReadsThePayload := by
  intro s hs he hlo hhi hb
  obtain ⟨pb, hrun, hstores⟩ := exec_decFrame_of_payloadReady ⟨hs, he, hlo, hhi, hb⟩
  have hbidx : (s.afterPayloadFrame pb).bidx.toNat = s.bidx.toNat + s.nextBytes :=
    State.bidx_add_nextBytes_toNat hhi.le
  refine ⟨_, hrun, ?_, hbidx, fun j hj => ?_, hstores.others⟩
  · rw [hbidx]
    rfl
  · exact (hstores.stored j hj).trans (by rw [Nat.zero_add])

-- From DEC_HEADER.

/-- What a DEC_FRAME in DEC_HEADER rests on (10_state R31 items 3 and 8). -/
structure State.headerReady (s : State) : Prop where
  state : s.state = .decHeader
  eligible : s.eligible = true
  bidx : s.bidx = 0
  hdr : s.hdr = 0

/-- The length that slots 0 to 3 of FB declare, big-endian (43_decoder R123). -/
def State.slotLength (s : State) : Nat :=
  (s.slotByte 0).toNat * 2 ^ 24 + (s.slotByte 1).toNat * 2 ^ 16 + (s.slotByte 2).toNat * 2 ^ 8 + (s.slotByte 3).toNat

theorem State.slotLength_lt (s : State) : s.slotLength < 2 ^ 32 := by
  have h0 := (s.slotByte 0).isLt
  have h1 := (s.slotByte 1).isLt
  have h2 := (s.slotByte 2).isLt
  have h3 := (s.slotByte 3).isLt
  simp only [State.slotLength]
  omega

theorem State.headerValue_eq (s : State) :
    headerValue (s.slotByte 0) (s.slotByte 1) (s.slotByte 2) (s.slotByte 3) = BitVec.ofNat 32 s.slotLength := by
  apply BitVec.eq_of_toNat_eq
  rw [headerValue_toNat, BitVec.toNat_ofNat]
  exact (Nat.mod_eq_of_lt s.slotLength_lt).symm

/-- The state at the fourth byte, before its length is compared with the buffer. -/
def State.withHeader (s : State) : State :=
  { s with
    hdr := headerValue (s.slotByte 0) (s.slotByte 1) (s.slotByte 2) (s.slotByte 3)
    bidx := 4
    accesses := s.accesses ++ decTrace s.height.toNat 0 4 }

theorem State.withHeader_hdr (s : State) : s.withHeader.hdr.toNat = s.slotLength := headerValue_toNat _ _ _ _

/-- DEC_FRAME in DEC_HEADER is the completion of the header and, where that goes on, the loop over the other twelve
slots. -/
theorem exec_decFrame_of_headerReady {s t : State} {e : LoopEnd} (h : s.headerReady)
    (hc : completeHeader s.withHeader = (e, t)) :
    exec .decFrame s = endDecFrame (if e = .goOn then decSlots (List.range' 4 12) t else .ok (e, t)) := by
  have hc' : completeHeader { s with
      hdr := headerValue (s.slotByte 0) (s.slotByte 1) (s.slotByte 2) (s.slotByte 3)
      bidx := 4
      accesses := s.accesses ++ decTrace s.height.toNat 0 4 } = (e, t) := hc
  rw [exec_decFrame_of_decoding (.inl h.state), canonicalSlots_eq,
    decSlots_header _ s h.eligible h.state h.bidx h.hdr, hc']
  cases e <;> rfl

/-- A declared length over the buffer: BufferExceeded, with the header left in HDR (43_decoder R123). -/
theorem exec_decFrame_over_buffer {s : State} (h : s.headerReady) (hover : s.params.pbufBytes < s.slotLength) :
    exec .decFrame s = .next (s.withHeader.raise .bufferExceeded) :=
  exec_decFrame_of_headerReady h (if_pos (s.withHeader_hdr.symm ▸ hover))

/-- The bytes that the frame with the header yields: `min(16, 4 + N)`. -/
def State.headerBytes (s : State) : Nat := min 16 (4 + s.slotLength)

/-- The state after a DEC_FRAME in DEC_HEADER that does not raise and leaves `pb` in PBUF. -/
def State.afterHeaderFrame (s : State) (pb : Memory Byte) : State :=
  { s with
    hdr := BitVec.ofNat 32 s.slotLength
    bidx := BitVec.ofNat 33 s.headerBytes
    fidx := s.fidx + 1
    state := if 4 + s.slotLength ≤ 16 then .decDone else .decPayload
    pbuf := pb
    accesses := s.accesses ++ decTrace s.height.toNat 0 s.headerBytes }

@[simp] theorem State.afterHeaderFrame_pbuf (s : State) (pb : Memory Byte) : (s.afterHeaderFrame pb).pbuf = pb := rfl

theorem State.payloadAt_afterHeaderFrame (s : State) (pb : Memory Byte) (i : Nat) :
    (s.afterHeaderFrame pb).payloadAt i = (s.withPbuf pb).payloadAt i :=
  State.payloadAt_congr ((s.afterHeaderFrame_pbuf pb).trans (s.withPbuf_pbuf pb).symm) i

/-- No payload is declared: the decode is complete with the header. -/
theorem exec_decFrame_empty {s : State} (h : s.headerReady) (hzero : s.slotLength = 0) :
    exec .decFrame s = .next (s.afterHeaderFrame s.pbuf) := by
  have hhdr : s.withHeader.hdr = 0 := BitVec.eq_of_toNat_eq (s.withHeader_hdr.trans hzero)
  have hn : s.headerBytes = 4 := by simp [State.headerBytes, hzero]
  have hc : completeHeader s.withHeader = (.leave, { s.withHeader with state := .decDone }) := by
    rw [completeHeader, if_neg (by rw [s.withHeader_hdr, hzero]; exact Nat.not_lt_zero _), if_pos hhdr]
  rw [exec_decFrame_of_headerReady h hc, if_neg (by decide), endDecFrame_leave, State.afterHeaderFrame, hn,
    if_pos (by omega), ← s.headerValue_eq]
  rfl

/-- A payload is declared that fits the buffer: the other slots give its first bytes. -/
theorem exec_decFrame_payload_follows {s : State} (h : s.headerReady) (hfits : s.slotLength ≤ s.params.pbufBytes)
    (hpos : 0 < s.slotLength) :
    ∃ pb, exec .decFrame s = .next (s.afterHeaderFrame pb) ∧ s.storesSlots 4 0 (s.headerBytes - 4) pb := by
  have hhdr : s.withHeader.hdr ≠ 0 := fun e => by
    have := s.withHeader_hdr
    rw [e] at this
    simp at this
    omega
  have hc : completeHeader s.withHeader = (.goOn, { s.withHeader with state := .decPayload }) := by
    rw [completeHeader, if_neg (by rw [s.withHeader_hdr]; exact Nat.not_lt.2 hfits), if_neg hhdr]
  set u : State := { s.withHeader with state := .decPayload } with hu
  have hub : u.bidx.toNat = 4 := rfl
  have huh : u.hdr.toNat = s.slotLength := s.withHeader_hdr
  have hmin : s.headerBytes - 4 = min 12 (4 + u.hdr.toNat - u.bidx.toNat) := by
    rw [huh, hub, State.headerBytes]
    omega
  have hsum : u.bidx.toNat + (s.headerBytes - 4) = s.headerBytes := by
    rw [hub, State.headerBytes]
    omega
  have hend : s.headerBytes = 4 + u.hdr.toNat ↔ 4 + s.slotLength ≤ 16 := by
    rw [huh, State.headerBytes]
    omega
  obtain ⟨pb, hrun, hstores⟩ := decSlots_storesSlots 12 4 h.eligible (s := u) rfl hub.ge (by omega)
    (huh.trans_le hfits) hmin
  refine ⟨pb, ?_, hstores.stored, hstores.others, hstores.sound⟩
  rw [exec_decFrame_of_headerReady h hc, if_pos rfl, hrun, endDecFrame_ite, hsum, State.afterHeaderFrame,
    decTrace_header _ (by omega : 4 ≤ s.headerBytes), ← List.append_assoc, ← s.headerValue_eq]
  simp only [hend, hub]
  rfl

theorem exec_decFrame_within_buffer {s : State} (h : s.headerReady) (hfits : s.slotLength ≤ s.params.pbufBytes) :
    ∃ pb, exec .decFrame s = .next (s.afterHeaderFrame pb) ∧ s.storesSlots 4 0 (s.headerBytes - 4) pb := by
  rcases Nat.eq_zero_or_pos s.slotLength with hzero | hpos
  · have hn : s.headerBytes - 4 = 0 := by simp [State.headerBytes, hzero]
    exact ⟨s.pbuf, exec_decFrame_empty h hzero, hn ▸ s.storesSlots_zero 4 0⟩
  · exact exec_decFrame_payload_follows h hfits hpos

/-- Settles O25. -/
theorem decFrameReadsTheHeader : Obligations.DecFrameReadsTheHeader := by
  intro s N hs he hb hh hN
  obtain rfl : N = s.slotLength := hN
  have hready : s.headerReady := ⟨hs, he, hb, hh⟩
  refine ⟨fun hover => ?_, fun hfits => ?_⟩
  · rw [exec_decFrame_over_buffer hready hover, ← s.headerValue_eq]
    rfl
  · obtain ⟨pb, hrun, hstores⟩ := exec_decFrame_within_buffer hready hfits
    have hpay : ∀ i, (s.afterHeaderFrame pb).payloadAt i = (s.withPbuf pb).payloadAt i :=
      s.payloadAt_afterHeaderFrame pb
    rw [State.headerBytes] at hstores
    refine ⟨_, hrun, rfl, fun i hi => ?_, fun i hi => ?_⟩
    · rw [hpay, ← hstores.stored i hi, Nat.zero_add]
    · rw [hpay, hstores.others i (.inr (by rwa [Nat.zero_add]))]

end Sys2Proof.Machine
end

section
/-! PROOF. DEC_FRAME in every state: what it leaves unchanged, what it does not read (43_decoder R120, R121;
60_exceptions R167 (a)), and where it stops for a missing location (log 9). -/

namespace Sys2Proof.Machine

-- The frame: STATE, ERR, HDR, BIDX, PBUF and the record are all that the slot loop writes.

/-- `t` is `s` but for what the slot loop of DEC_FRAME writes. -/
def State.loopsTo (s t : State) : Prop :=
  t = { s with
    state := t.state, err := t.err, hdr := t.hdr, bidx := t.bidx, pbuf := t.pbuf, accesses := t.accesses }

theorem State.loopsTo_refl (s : State) : s.loopsTo s := rfl

theorem State.loopsTo.trans {s t u : State} (h : s.loopsTo t) (h' : t.loopsTo u) : s.loopsTo u :=
  Eq.trans h' (by rw [h])

theorem extractLanes_loopsTo {l : SlotLoc} {is : List Nat} {b : Byte} {s : State} {p : Byte × State}
    (h : extractLanes l is b s = .ok p) : s.loopsTo p.2 := by
  induction is generalizing b s with
  | nil =>
    obtain rfl := Except.ok.inj h
    exact s.loopsTo_refl
  | cons i rest ih =>
    by_cases hx : s.pixExists l.row (l.col i) l.channel = true
    · simp only [extractLanes, corePixRead_eq hx] at h
      exact State.loopsTo.trans (t := s.note (.pixRead l.row (l.col i) l.channel)) rfl (ih h)
    · simp [extractLanes, corePixRead, hx] at h

theorem extractByte_loopsTo {slot : Nat} {s : State} {p : Byte × State} (h : extractByte slot s = .ok p) :
    s.loopsTo p.2 := by
  unfold extractByte at h
  split_ifs at h
  exact extractLanes_loopsTo h

theorem completeHeader_loopsTo (s : State) : s.loopsTo (completeHeader s).2 := by
  unfold completeHeader
  split
  · rfl
  · split <;> rfl

theorem takeHeaderByte_loopsTo (b : Byte) (s : State) : s.loopsTo (takeHeaderByte b s).2 := by
  unfold takeHeaderByte
  dsimp only
  split
  · exact State.loopsTo.trans (t := { s with hdr := shiftIntoHdr s.hdr b, bidx := s.bidx + 1 }) rfl
      (completeHeader_loopsTo _)
  · rfl

theorem takePayloadByte_loopsTo {b : Byte} {s : State} {p : LoopEnd × State} (h : takePayloadByte b s = .ok p) :
    s.loopsTo p.2 := by
  unfold takePayloadByte corePayWrite at h
  by_cases hx : (decide (4 ≤ s.bidx.toNat) && s.payExists (s.bidx.toNat - 4)) = true
  · simp only [hx, if_true] at h
    split at h <;> (obtain rfl := Except.ok.inj h; rfl)
  · simp [hx] at h

theorem decSlot_loopsTo {slot : Nat} {s : State} {p : LoopEnd × State} (h : decSlot slot s = .ok p) :
    s.loopsTo p.2 := by
  unfold decSlot at h
  cases hx : extractByte slot s with
  | error f => simp [hx] at h
  | ok q =>
    simp only [hx] at h
    refine (extractByte_loopsTo hx).trans ?_
    split at h
    · obtain rfl := Except.ok.inj h
      exact takeHeaderByte_loopsTo q.1 q.2
    · exact takePayloadByte_loopsTo h

theorem decSlots_loopsTo {slots : List Nat} {s : State} {p : LoopEnd × State} (h : decSlots slots s = .ok p) :
    s.loopsTo p.2 := by
  induction slots generalizing s with
  | nil =>
    obtain rfl := Except.ok.inj h
    exact s.loopsTo_refl
  | cons slot rest ih =>
    unfold decSlots at h
    cases hd : decSlot slot s with
    | error f => simp [hd] at h
    | ok q =>
      obtain ⟨e, u⟩ := q
      refine (decSlot_loopsTo hd).trans ?_
      cases e with
      | goOn =>
        simp only [hd] at h
        exact ih h
      | leave | raised =>
        simp only [hd] at h
        obtain rfl := Except.ok.inj h
        exact State.loopsTo_refl _

/-- The next state of a DEC_FRAME that completes in DEC_HEADER or DEC_PAYLOAD, by the state at the end of its loop. -/
theorem exec_decFrame_next {s t : State} (hs : s.state = .decHeader ∨ s.state = .decPayload)
    (h : exec .decFrame s = .next t) :
    ∃ e u, decSlots canonicalSlots s = .ok (e, u) ∧ t = if e = .raised then u else { u with fidx := u.fidx + 1 } := by
  rw [exec_decFrame_of_decoding hs] at h
  cases hd : decSlots canonicalSlots s with
  | error f => simp [hd] at h
  | ok p =>
    obtain ⟨e, u⟩ := p
    rw [hd] at h
    refine ⟨e, u, rfl, ?_⟩
    cases e <;> exact (Host.Outcome.next.inj h).symm

/-- DEC_FRAME never writes FB, the configuration, or a result register. -/
theorem exec_decFrame_frame {s t : State} (h : exec .decFrame s = .next t) :
    t = { s with
      state := t.state, err := t.err, hdr := t.hdr, bidx := t.bidx, fidx := t.fidx, pbuf := t.pbuf
      accesses := t.accesses } := by
  cases exec_effect s .decFrame with
  | extracted _ hs _ =>
    obtain ⟨e, u, hd, rfl⟩ := exec_decFrame_next hs h
    have hu : s.loopsTo u := decSlots_loopsTo hd
    rw [hu]
    split <;> rfl
  | ignored _ _ h' | illegal _ _ h' | nothing _ _ h' | raised _ _ _ _ _ _ _ h' =>
    obtain rfl := Host.Outcome.next.inj (h'.symm.trans h)
    rfl
  | cleared hi _ | queried hi _ _ | planned hi _ _ | encodeStarted hi _ _ _ _ | decodeStarted hi _ _ _
  | embedded hi _ _ | encodeEnded hi _ _ _ => cases hi

-- What it does not read: FB but for the LSBs of SLOTSET, FRAME_COUNT, and PLEN_IN.

/-- The state with another FB, another FRAME_COUNT and another PLEN_IN. -/
def State.reframed (s : State) (m : Memory Nat) (f l : BitVec 32) : State :=
  { s with fb := m, frameCount := f, plenIn := l }

/-- `m` in place of FB has the same LSBs in SLOTSET (20_memory R54). -/
def State.sameLsbs (s : State) (m : Memory Nat) : Prop :=
  ∀ row col ch, s.inSlotSet row col ch → (s.withFb m).sampleAt row col ch % 2 = s.sampleAt row col ch % 2

theorem extractLanes_reframed {m : Memory Nat} (f l : BitVec 32) {loc : SlotLoc} {is : List Nat} (b : Byte) {s : State}
    (hm : s.sameLsbs m) (hin : ∀ i ∈ is, s.inSlotSet loc.row (loc.col i) loc.channel) :
    extractLanes loc is b (s.reframed m f l) =
      (extractLanes loc is b s).map fun p => (p.1, p.2.reframed m f l) := by
  induction is generalizing b s with
  | nil => rfl
  | cons i rest ih =>
    by_cases hx : s.pixExists loc.row (loc.col i) loc.channel = true
    · have hx' : (s.reframed m f l).pixExists loc.row (loc.col i) loc.channel = true := hx
      have hbit : (s.reframed m f l).sampleAt loc.row (loc.col i) loc.channel % 2 =
          s.sampleAt loc.row (loc.col i) loc.channel % 2 := hm _ _ _ (hin i List.mem_cons_self)
      simp only [extractLanes, corePixRead_eq hx, corePixRead_eq hx', hbit]
      exact ih (s := s.note _) _ hm fun j hj => hin j (List.mem_cons_of_mem _ hj)
    · have hx' : ¬ (s.reframed m f l).pixExists loc.row (loc.col i) loc.channel = true := hx
      simp only [extractLanes, corePixRead, if_neg hx, if_neg hx']
      rfl

theorem extractByte_reframed {m : Memory Nat} (f l : BitVec 32) (slot : Nat) {s : State} (hm : s.sameLsbs m) :
    extractByte slot (s.reframed m f l) = (extractByte slot s).map fun p => (p.1, p.2.reframed m f l) := by
  have hheight : (s.reframed m f l).height = s.height := rfl
  simp only [extractByte, hheight]
  split_ifs with hH
  · rfl
  · refine extractLanes_reframed f l 0 hm fun i hi => ?_
    have hi8 := mem_lanes.1 hi
    have hH2 : 2 ≤ s.height.toNat := Nat.not_lt.1 hH
    rw [State.inSlotSet, slotFor_row, slotFor_col, slotFor_channel]
    omega

theorem completeHeader_reframed (m : Memory Nat) (f l : BitVec 32) (s : State) :
    completeHeader (s.reframed m f l) = ((completeHeader s).1, (completeHeader s).2.reframed m f l) := by
  have hcases : ∀ u : State, completeHeader u =
      if u.params.pbufBytes < u.hdr.toNat then (.raised, u.raise .bufferExceeded)
      else if u.hdr = 0 then (.leave, { u with state := .decDone }) else (.goOn, { u with state := .decPayload }) :=
    fun _ => rfl
  by_cases hover : s.params.pbufBytes < s.hdr.toNat
  · rw [(hcases s).trans (if_pos hover), (hcases (s.reframed m f l)).trans (if_pos hover)]
    rfl
  · by_cases hzero : s.hdr = 0
    · rw [(hcases s).trans ((if_neg hover).trans (if_pos hzero)),
        (hcases (s.reframed m f l)).trans ((if_neg hover).trans (if_pos hzero))]
      rfl
    · rw [(hcases s).trans ((if_neg hover).trans (if_neg hzero)),
        (hcases (s.reframed m f l)).trans ((if_neg hover).trans (if_neg hzero))]
      rfl

theorem takeHeaderByte_reframed (m : Memory Nat) (f l : BitVec 32) (b : Byte) (s : State) :
    takeHeaderByte b (s.reframed m f l) = ((takeHeaderByte b s).1, (takeHeaderByte b s).2.reframed m f l) := by
  have hcases : ∀ u : State, takeHeaderByte b u =
      if u.bidx + 1 = 4 then completeHeader { u with hdr := shiftIntoHdr u.hdr b, bidx := u.bidx + 1 }
      else (.goOn, { u with hdr := shiftIntoHdr u.hdr b, bidx := u.bidx + 1 }) := fun _ => rfl
  by_cases hfour : s.bidx + 1 = 4
  · rw [(hcases s).trans (if_pos hfour), (hcases (s.reframed m f l)).trans (if_pos hfour)]
    exact completeHeader_reframed m f l { s with hdr := shiftIntoHdr s.hdr b, bidx := s.bidx + 1 }
  · rw [(hcases s).trans (if_neg hfour), (hcases (s.reframed m f l)).trans (if_neg hfour)]
    rfl

theorem corePayWrite_reframed (m : Memory Nat) (f l : BitVec 32) (k : Nat) (b : Byte) (s : State) :
    corePayWrite k b (s.reframed m f l) = (corePayWrite k b s).map (·.reframed m f l) := by
  unfold corePayWrite
  by_cases hx : (decide (4 ≤ k) && s.payExists (k - 4)) = true
  · rw [if_pos hx, if_pos (by exact hx)]
    rfl
  · rw [if_neg hx, if_neg (by exact hx)]
    rfl

theorem takePayloadByte_of_written {b : Byte} {s u : State} (h : corePayWrite s.bidx.toNat b s = .ok u) :
    takePayloadByte b s = .ok (if (u.bidx + 1).toNat = u.total then
      (.leave, { u with bidx := u.bidx + 1, state := .decDone }) else (.goOn, { u with bidx := u.bidx + 1 })) := by
  rw [takePayloadByte, h]
  exact (apply_ite Except.ok _ _ _).symm

theorem takePayloadByte_reframed (m : Memory Nat) (f l : BitVec 32) (b : Byte) (s : State) :
    takePayloadByte b (s.reframed m f l) = (takePayloadByte b s).map fun p => (p.1, p.2.reframed m f l) := by
  have hwrite := corePayWrite_reframed m f l s.bidx.toNat b s
  cases h : corePayWrite s.bidx.toNat b s with
  | error r =>
    rw [h] at hwrite
    simp only [takePayloadByte, h, show (s.reframed m f l).bidx = s.bidx from rfl, hwrite]
    rfl
  | ok u =>
    rw [h] at hwrite
    rw [takePayloadByte_of_written h, takePayloadByte_of_written (s := s.reframed m f l) hwrite]
    by_cases hend : (u.bidx + 1).toNat = u.total
    · rw [if_pos hend, if_pos (by exact hend)]
      rfl
    · rw [if_neg hend, if_neg (by exact hend)]
      rfl

theorem decSlot_reframed {m : Memory Nat} (f l : BitVec 32) (slot : Nat) {s : State} (hm : s.sameLsbs m) :
    decSlot slot (s.reframed m f l) = (decSlot slot s).map fun p => (p.1, p.2.reframed m f l) := by
  simp only [decSlot, extractByte_reframed f l slot hm]
  cases extractByte slot s with
  | error r => rfl
  | ok p =>
    have hstate : (p.2.reframed m f l).state = p.2.state := rfl
    simp only [Except.map, hstate]
    split_ifs
    · rw [takeHeaderByte_reframed]
    · exact takePayloadByte_reframed m f l p.1 p.2

theorem decSlots_reframed {m : Memory Nat} (f l : BitVec 32) (slots : List Nat) {s : State} (hm : s.sameLsbs m) :
    decSlots slots (s.reframed m f l) = (decSlots slots s).map fun p => (p.1, p.2.reframed m f l) := by
  induction slots generalizing s with
  | nil => rfl
  | cons slot rest ih =>
    simp only [decSlots, decSlot_reframed f l slot hm]
    cases hd : decSlot slot s with
    | error r => rfl
    | ok p =>
      obtain ⟨e, u⟩ := p
      have hu : u.sameLsbs m := by rw [show s.loopsTo u from decSlot_loopsTo hd]; exact hm
      cases e with
      | goOn => exact ih hu
      | leave | raised => rfl

/-- DEC_FRAME runs the same on another FB with the same LSBs in SLOTSET, another FRAME_COUNT and another PLEN_IN. -/
theorem exec_decFrame_reframed {m : Memory Nat} (f l : BitVec 32) {s t : State} (hm : s.sameLsbs m)
    (h : exec .decFrame s = .next t) : exec .decFrame (s.reframed m f l) = .next (t.reframed m f l) := by
  by_cases hs : s.state = .decHeader ∨ s.state = .decPayload
  · obtain ⟨e, u, hd, rfl⟩ := exec_decFrame_next hs h
    rw [exec_decFrame_of_decoding (s := s.reframed m f l) hs, decSlots_reframed f l _ hm, hd]
    cases e <;> rfl
  · by_cases hd : s.state = .decDone
    · obtain rfl := Host.Outcome.next.inj ((exec_decFrame_of_decDone hd).symm.trans h)
      exact exec_decFrame_of_decDone (s := s.reframed m f l) hd
    · by_cases herr : s.state = .error
      · obtain rfl := Host.Outcome.next.inj ((exec_of_error herr (by decide)).symm.trans h)
        exact exec_of_error (s := s.reframed m f l) herr (by decide)
      · obtain ⟨hh, hp⟩ := not_or.1 hs
        obtain rfl := Host.Outcome.next.inj ((exec_decFrame_of_not_decoding hd hh hp herr).symm.trans h)
        exact exec_decFrame_of_not_decoding (s := s.reframed m f l) hd hh hp herr

/-- Settles O29. -/
theorem decFrameReadsOnlySlotLsbs : Obligations.DecFrameReadsOnlySlotLsbs := by
  intro s t m _ hm h
  have hframe := exec_decFrame_frame h
  have hrun := exec_decFrame_reframed s.frameCount s.plenIn hm h
  refine ⟨by rw [hframe], hrun.trans ?_⟩
  rw [hframe]
  rfl

/-- Settles O30. DEC_START copies no register; DEC_FRAME runs the same on its own FB. -/
theorem decoderIgnoresFrameCount : Obligations.DecoderIgnoresFrameCount := by
  rintro s t i f l (rfl | rfl) h
  · by_cases herr : s.state = .error
    · obtain rfl := Host.Outcome.next.inj ((exec_decStart_of_error herr).symm.trans h)
      exact exec_decStart_of_error (s := { s with frameCount := f, plenIn := l }) herr
    · by_cases hs : s.state = .idle
      · cases he : s.eligible with
        | true =>
          obtain rfl := Host.Outcome.next.inj ((exec_decStart_of_eligible hs he).symm.trans h)
          exact exec_decStart_of_eligible (s := { s with frameCount := f, plenIn := l }) hs he
        | false =>
          obtain rfl := Host.Outcome.next.inj ((exec_decStart_of_ineligible hs he).symm.trans h)
          exact exec_decStart_of_ineligible (s := { s with frameCount := f, plenIn := l }) hs he
      · obtain rfl := Host.Outcome.next.inj ((exec_decStart_of_not_idle hs herr).symm.trans h)
        exact exec_decStart_of_not_idle (s := { s with frameCount := f, plenIn := l }) hs herr
  · have hrun := exec_decFrame_reframed f l (m := s.fb) (fun _ _ _ _ => rfl) h
    refine hrun.trans ?_
    rw [exec_decFrame_frame h]
    rfl

-- Where it stops (log 9).

theorem decSlots_cons_error {slot : Nat} {rest : List Nat} {s : State} {f : Fault} (h : decSlot slot s = .error f) :
    decSlots (slot :: rest) s = .error f := by
  rw [decSlots, h]

/-- In DEC_PAYLOAD a slot's byte is taken as a payload byte. -/
theorem decSlot_decPayload (slot : Nat) {s : State} (he : s.eligible = true) (hs : s.state = .decPayload) :
    decSlot slot s = takePayloadByte (s.slotByte slot)
      { s with accesses := s.accesses ++ extractTrace (slotFor slot s.height.toNat) } := by
  simp only [decSlot, extractByte_spec slot s he, hs, reduceCtorEq, if_false]

/-- A payload byte without a place in PBUF stops the loop. -/
theorem decSlot_no_byte (slot : Nat) {s : State} (he : s.eligible = true) (hs : s.state = .decPayload)
    (hb : ¬ (4 ≤ s.bidx.toNat ∧ s.bidx.toNat - 4 < s.params.pbufBytes)) :
    decSlot slot s = .error .noSuchPayloadByte := by
  rw [decSlot_decPayload slot he hs, takePayloadByte, corePayWrite, if_neg (by simpa [State.payExists] using hb)]

/-- A payload byte with a place in PBUF is stored, and the loop ends with the stream or goes on. -/
theorem decSlot_stored (slot : Nat) {s : State} (he : s.eligible = true) (hs : s.state = .decPayload)
    (hlo : 4 ≤ s.bidx.toNat) (hb : s.bidx.toNat - 4 < s.params.pbufBytes) (hhi : s.bidx.toNat < 4 + s.hdr.toNat) :
    ∃ t, t.eligible = true ∧ t.bidx.toNat = s.bidx.toNat + 1 ∧ t.hdr = s.hdr ∧ t.params = s.params ∧
      (s.bidx.toNat + 1 = 4 + s.hdr.toNat → decSlot slot s = .ok (.leave, t)) ∧
      (s.bidx.toNat + 1 ≠ 4 + s.hdr.toNat → decSlot slot s = .ok (.goOn, t) ∧ t.state = .decPayload) := by
  have hhdr := s.hdr.isLt
  have hsucc : (s.bidx + 1).toNat = s.bidx.toNat + 1 := bidx_succ (by omega)
  rw [decSlot_decPayload slot he hs, takePayloadByte_of_written (corePayWrite_eq
    (s := { s with accesses := s.accesses ++ extractTrace (slotFor slot s.height.toNat) }) _ hlo
    ((s.payExists_iff _).2 hb))]
  by_cases hend : s.bidx.toNat + 1 = 4 + s.hdr.toNat
  · rw [if_pos (by exact hsucc.trans hend)]
    refine ⟨_, ?_, ?_, ?_, ?_, fun _ => rfl, fun h => absurd hend h⟩
    exacts [he, hsucc, rfl, rfl]
  · rw [if_neg (by exact fun e => hend (hsucc.symm.trans e))]
    refine ⟨_, ?_, ?_, ?_, ?_, fun h => absurd h hend, fun _ => ⟨rfl, ?_⟩⟩
    exacts [he, hsucc, rfl, rfl, hs]

/-- The loop over `m` slots completes where the bytes it takes fit PBUF, and else stops. -/
theorem decSlots_fits (m slot : Nat) {s : State} (he : s.eligible = true) (hs : s.state = .decPayload)
    (hlo : 4 ≤ s.bidx.toNat) (hhi : s.bidx.toNat < 4 + s.hdr.toNat) :
    (s.bidx.toNat - 4 + min m (4 + s.hdr.toNat - s.bidx.toNat) ≤ s.params.pbufBytes →
      ∃ p, decSlots (List.range' slot m) s = .ok p) ∧
    (0 < m → s.params.pbufBytes < s.bidx.toNat - 4 + min m (4 + s.hdr.toNat - s.bidx.toNat) →
      decSlots (List.range' slot m) s = .error .noSuchPayloadByte) := by
  induction m generalizing slot s with
  | zero => exact ⟨fun _ => ⟨_, rfl⟩, fun h => absurd h (Nat.lt_irrefl 0)⟩
  | succ m ih =>
    rw [List.range'_succ]
    by_cases hb : s.bidx.toNat - 4 < s.params.pbufBytes
    · obtain ⟨t, hte, htb, hth, htp, hleave, hgoOn⟩ := decSlot_stored slot he hs hlo hb hhi
      by_cases hend : s.bidx.toNat + 1 = 4 + s.hdr.toNat
      · exact ⟨fun _ => ⟨_, by rw [decSlots, hleave hend]⟩, fun _ hover => by omega⟩
      · obtain ⟨hgo, hts⟩ := hgoOn hend
        obtain ⟨hok, herr⟩ := ih (slot + 1) hte hts (by omega) (by rw [hth]; omega)
        rw [htb, hth, htp] at hok herr
        rw [decSlots, hgo]
        exact ⟨fun hfit => hok (by omega), fun _ hover => herr (by omega) (by omega)⟩
    · exact ⟨fun hfit => by omega, fun _ _ => decSlots_cons_error (decSlot_no_byte slot he hs fun h => hb h.2)⟩

/-- Settles O55. For ENC_FRAME the bytes decide, for DEC_FRAME the first slot and then the room in PBUF. -/
theorem missingLocationsStopTheCore : Obligations.MissingLocationsStopTheCore := by
  refine ⟨fun s => exec_encFrame_completes_iff, fun s k => exec_encFrame_stops, fun s hs hslot => ?_,
    fun s hs he hb => ?_, fun s hs he hlo hhi => ?_⟩
  · have hstop : decSlot 0 s = .error .noSuchPixel := by rw [decSlot, extractByte_missing hslot]
    rw [exec_decFrame_of_decoding hs, canonicalSlots_eq, decSlots_cons_error hstop, endDecFrame_error]
  · have hstop := decSlot_no_byte 0 he hs fun h => by omega
    rw [exec_decFrame_of_decoding (.inr hs), canonicalSlots_eq, decSlots_cons_error hstop, endDecFrame_error]
  · obtain ⟨hok, hstop⟩ := decSlots_fits 16 0 he hs hlo hhi
    rw [exec_decFrame_of_decoding (.inr hs), canonicalSlots_eq_range]
    refine ⟨⟨fun ⟨t, h⟩ => ?_, fun hfit => ?_⟩, fun hover => by rw [hstop (by decide) hover, endDecFrame_error]⟩
    · by_contra hover
      rw [hstop (by decide) (Nat.lt_of_not_le hover), endDecFrame_error] at h
      cases h
    · obtain ⟨⟨e, t⟩, h⟩ := hok hfit
      rw [h]
      cases e <;> exact ⟨_, rfl⟩

end Sys2Proof.Machine
end

section
/-! PROOF. The invariant (10_state R31), for each next state that a command or an access leads to: what of it a next
state needs. -/

namespace Sys2Proof.Machine

namespace State.Inv

variable {s : State}

-- What the invariant says of the command that comes next.

theorem err_none (h : s.Inv) (herr : s.state ≠ .error) : s.err = .none :=
  by_contra fun he => herr (h.errorIff.2 he)

theorem sampleBits_pos (h : s.Inv) : 1 ≤ s.params.sampleBits := by
  have hp := h.paramsOk
  simp only [paramsWellFormed, sampleBitsOk, Bool.and_eq_true, decide_eq_true_eq] at hp
  exact hp.1

theorem eligible_of_ne (h : s.Inv) (hidle : s.state ≠ .idle) (herr : s.state ≠ .error) : s.eligible = true :=
  h.geometry (State.operating_of_ne hidle herr)

theorem fbOk (h : s.Inv) : s.fbOk := ⟨h.fbWf, h.fbIn⟩

theorem pbufOk (h : s.Inv) : s.pbufOk := ⟨h.pbufWf, h.pbufIn⟩

theorem encReady (h : s.Inv) (hs : s.state = .encActive) : s.encReady :=
  ⟨hs, h.eligible_of_ne (by simp [hs]) (by simp [hs]), h.sampleBits_pos, h.buffer (.inl hs), (h.encActive hs).1⟩

theorem headerReady (h : s.Inv) (hs : s.state = .decHeader) : s.headerReady := by
  obtain ⟨hbidx, -, hhdr⟩ := h.decHeader hs
  exact ⟨hs, h.eligible_of_ne (by simp [hs]) (by simp [hs]), hbidx, hhdr⟩

theorem payloadReady (h : s.Inv) (hs : s.state = .decPayload) : s.payloadReady := by
  obtain ⟨hlo, hhi, -⟩ := h.decPayload hs
  exact ⟨hs, h.eligible_of_ne (by simp [hs]) (by simp [hs]), by omega, hhi, h.buffer (by simp [State.operating, hs])⟩

-- Next states that write no memory.

/-- The invariant speaks of the block and of the parameters only. -/
theorem of_block {t : State} (h : s.Inv) (hb : t.toBlock = s.toBlock) (hp : t.params = s.params) : t.Inv := by
  cases s
  cases t
  subst hb hp
  exact ⟨h.errorIff, h.encActive, h.decHeader, h.decPayload, h.decDone, h.encDone, h.idle, h.geometry, h.buffer,
    h.paramsOk, h.pbufWf, h.fbWf, h.pbufIn, h.fbIn⟩

/-- ERROR asks of the operation's registers nothing but a code in ERR. -/
theorem raise (h : s.Inv) {e : ErrCode} (he : e ≠ .none) : (s.raise e).Inv where
  errorIff := iff_of_true rfl he
  encActive := nofun
  decHeader := nofun
  decPayload := nofun
  decDone := nofun
  encDone := nofun
  idle := nofun
  geometry := by simp [State.operating]
  buffer := by simp [State.operating]
  paramsOk := h.paramsOk
  pbufWf := h.pbufWf
  fbWf := h.fbWf
  pbufIn := h.pbufIn
  fbIn := h.fbIn

/-- A state in IDLE with the four registers at their reset values. -/
theorem of_idle {t : State} (hs : t.state = .idle) (herr : t.err = .none) (hb : t.bidx = 0) (hf : t.fidx = 0)
    (hh : t.hdr = 0) (hp : paramsWellFormed t.params = true) (hpbuf : t.pbufOk) (hfb : t.fbOk) : t.Inv where
  errorIff := by simp [hs, herr]
  encActive := by simp [hs]
  decHeader := by simp [hs]
  decPayload := by simp [hs]
  decDone := by simp [hs]
  encDone := by simp [hs]
  idle := fun _ => ⟨hb, hf, hh, herr⟩
  geometry := by simp [State.operating, hs]
  buffer := by simp [State.operating, hs]
  paramsOk := hp
  pbufWf := hpbuf.1
  fbWf := hfb.1
  pbufIn := hpbuf.2
  fbIn := hfb.2

theorem toIdle (h : s.Inv) : s.toIdle.Inv := of_idle rfl rfl rfl rfl rfl h.paramsOk h.pbufOk h.fbOk

theorem withQuery (h : s.Inv) (l : SlotLoc) : (s.withQuery l).Inv :=
  ⟨h.errorIff, h.encActive, h.decHeader, h.decPayload, h.decDone, h.encDone, h.idle, h.geometry, h.buffer,
    h.paramsOk, h.pbufWf, h.fbWf, h.pbufIn, h.fbIn⟩

theorem withCapacity (h : s.Inv) (capMax : BitVec 64) (capFits : BitVec 1) :
    State.Inv { s with capMax := capMax, capFits := capFits } :=
  ⟨h.errorIff, h.encActive, h.decHeader, h.decPayload, h.decDone, h.encDone, h.idle, h.geometry, h.buffer,
    h.paramsOk, h.pbufWf, h.fbWf, h.pbufIn, h.fbIn⟩

/-- ENC_START's next state (42_encoder R102). -/
theorem encodeStarted (h : s.Inv) (hs : s.state = .idle) (he : s.eligible = true)
    (hb : s.plenIn.toNat ≤ s.params.pbufBytes) :
    State.Inv { s with hdr := s.plenIn, bidx := 0, fidx := 0, state := .encActive } where
  errorIff := iff_of_false nofun fun hne => hne (h.err_none (by simp [hs]))
  encActive := fun _ => ⟨Nat.zero_le _, rfl, .inr rfl⟩
  decHeader := nofun
  decPayload := nofun
  decDone := nofun
  encDone := nofun
  idle := nofun
  geometry := fun _ => he
  buffer := fun _ => hb
  paramsOk := h.paramsOk
  pbufWf := h.pbufWf
  fbWf := h.fbWf
  pbufIn := h.pbufIn
  fbIn := h.fbIn

/-- DEC_START's next state (43_decoder R121). -/
theorem decodeStarted (h : s.Inv) (hs : s.state = .idle) (he : s.eligible = true) :
    State.Inv { s with hdr := 0, bidx := 0, fidx := 0, state := .decHeader } where
  errorIff := iff_of_false nofun fun hne => hne (h.err_none (by simp [hs]))
  encActive := nofun
  decHeader := fun _ => ⟨rfl, rfl, rfl⟩
  decPayload := nofun
  decDone := nofun
  encDone := nofun
  idle := nofun
  geometry := fun _ => he
  buffer := fun _ => Nat.zero_le _
  paramsOk := h.paramsOk
  pbufWf := h.pbufWf
  fbWf := h.fbWf
  pbufIn := h.pbufIn
  fbIn := h.fbIn

/-- The next state of an EOS that ends an encode (44_control R142). -/
theorem encodeEnded (h : s.Inv) (hs : s.state = .encActive) (hend : s.bidx.toNat = 4 + s.hdr.toNat) :
    State.Inv { s with state := .encDone } where
  errorIff := iff_of_false nofun fun hne => hne (h.err_none (by simp [hs]))
  encActive := nofun
  decHeader := nofun
  decPayload := nofun
  decDone := nofun
  encDone := fun _ => hend
  idle := nofun
  geometry := fun _ => h.geometry (.inl hs)
  buffer := fun _ => h.buffer (.inl hs)
  paramsOk := h.paramsOk
  pbufWf := h.pbufWf
  fbWf := h.fbWf
  pbufIn := h.pbufIn
  fbIn := h.fbIn

-- Next states of the frame commands.

/-- While bytes are left FIDX is far from its end: there are at most `2^28` frames before the last (log 17). -/
theorem fidx_succ (f : BitVec 32) {n : Nat} (h : 16 * f.toNat < 4 + n) (hn : n < 2 ^ 32) :
    (f + 1).toNat = f.toNat + 1 := by
  rw [BitVec.toNat_add, show (1 : BitVec 32).toNat = 1 from rfl]
  exact Nat.mod_eq_of_lt (by omega)

/-- ENC_FRAME's next state (42_encoder R103): item 2 of the invariant moves on with BIDX and FIDX. -/
theorem afterEncFrame (h : s.Inv) (hs : s.state = .encActive) {fb : Memory Nat} (hfb : (s.withFb fb).fbOk) :
    (s.afterEncFrame fb).Inv := by
  obtain ⟨hpos, hplen, hcount⟩ := h.encActive hs
  rw [State.total_eq] at hpos hcount
  have hbidx := State.afterEncFrame_bidx hpos fb
  have hmove : (s.afterEncFrame fb).bidx.toNat = 4 + s.hdr.toNat ∨
      (s.afterEncFrame fb).bidx.toNat = 16 * (s.fidx + 1).toNat := by
    have hhdr := s.hdr.isLt
    rw [hbidx, State.nextBytes]
    by_cases hlast : 4 + s.hdr.toNat ≤ s.bidx.toNat + 16
    · exact .inl (by omega)
    · have hfidx : s.bidx.toNat = 16 * s.fidx.toNat := by omega
      rw [fidx_succ s.fidx (n := s.hdr.toNat) (by omega) hhdr]
      exact .inr (by omega)
  have hstate : (s.afterEncFrame fb).state = .encActive := hs
  exact
    { errorIff := h.errorIff
      encActive := fun _ => ⟨by rw [hbidx]; exact State.bidx_add_nextBytes_le hpos, hplen, hmove⟩
      decHeader := by simp [hstate]
      decPayload := by simp [hstate]
      decDone := by simp [hstate]
      encDone := by simp [hstate]
      idle := by simp [hstate]
      geometry := fun _ => h.geometry (.inl hs)
      buffer := fun _ => h.buffer (.inl hs)
      paramsOk := h.paramsOk
      pbufWf := h.pbufWf
      fbWf := hfb.1
      pbufIn := h.pbufIn
      fbIn := hfb.2 }

/-- A next state of DEC_FRAME that is not an error, by what items 4 and 5 of the invariant ask of it. -/
theorem decoded {hdr : BitVec 32} {bidx : BitVec 33} {fidx : BitVec 32} {st : Ctl} {pb : Memory Byte}
    (acc : List CoreAccess) (h : s.Inv) (hs : s.state = .decHeader ∨ s.state = .decPayload)
    (hst : st = .decPayload ∨ st = .decDone)
    (hpayload : st = .decPayload →
      16 ≤ bidx.toNat ∧ bidx.toNat < 4 + hdr.toNat ∧ bidx.toNat = 16 * fidx.toNat)
    (hdone : st = .decDone → bidx.toNat = 4 + hdr.toNat ∧ fidx.toNat = (4 + hdr.toNat + 15) / 16)
    (hb : hdr.toNat ≤ s.params.pbufBytes) (hpb : (s.withPbuf pb).pbufOk) :
    State.Inv { s with hdr := hdr, bidx := bidx, fidx := fidx, state := st, pbuf := pb, accesses := acc } where
  errorIff := by
    have herr : s.err = .none := h.err_none (by rcases hs with hs | hs <;> simp [hs])
    rcases hst with rfl | rfl <;> simp [herr]
  encActive := by rcases hst with rfl | rfl <;> exact nofun
  decHeader := by rcases hst with rfl | rfl <;> exact nofun
  decPayload := hpayload
  decDone := fun e => ⟨(hdone e).1, (hdone e).2, hb⟩
  encDone := by rcases hst with rfl | rfl <;> exact nofun
  idle := by rcases hst with rfl | rfl <;> exact nofun
  geometry := fun _ => h.geometry (by rcases hs with hs | hs <;> simp [State.operating, hs])
  buffer := fun _ => hb
  paramsOk := h.paramsOk
  pbufWf := hpb.1
  fbWf := h.fbWf
  pbufIn := hpb.2
  fbIn := h.fbIn

theorem afterPayloadFrame (h : s.Inv) (hs : s.state = .decPayload) {pb : Memory Byte} (hpb : (s.withPbuf pb).pbufOk) :
    (s.afterPayloadFrame pb).Inv := by
  obtain ⟨hlo, hhi, hcount⟩ := h.decPayload hs
  rw [State.total_eq] at hhi
  have hbidx := State.bidx_add_nextBytes_toNat hhi.le
  have hfidx : (s.fidx + 1).toNat = s.fidx.toNat + 1 := fidx_succ s.fidx (by omega) s.hdr.isLt
  have hn : s.nextBytes = min 16 (4 + s.hdr.toNat - s.bidx.toNat) := rfl
  refine decoded _ h (.inr hs) (by split <;> simp) (fun hst => ?_) (fun hst => ?_)
    (h.buffer (by simp [State.operating, hs])) hpb <;> split_ifs at hst with hend
  · rw [hbidx, hfidx]
    omega
  · rw [hbidx, hfidx]
    omega

theorem afterHeaderFrame (h : s.Inv) (hs : s.state = .decHeader) (hfits : s.slotLength ≤ s.params.pbufBytes)
    {pb : Memory Byte} (hpb : (s.withPbuf pb).pbufOk) : (s.afterHeaderFrame pb).Inv := by
  obtain ⟨-, hfidx0, -⟩ := h.decHeader hs
  have hfidx : (s.fidx + 1).toNat = 1 := by rw [hfidx0]; rfl
  have hhdr : (BitVec.ofNat 32 s.slotLength).toNat = s.slotLength := by
    rw [BitVec.toNat_ofNat, Nat.mod_eq_of_lt s.slotLength_lt]
  have hn : s.headerBytes = min 16 (4 + s.slotLength) := rfl
  have hbidx : (BitVec.ofNat 33 s.headerBytes).toNat = s.headerBytes := by
    rw [BitVec.toNat_ofNat]
    exact Nat.mod_eq_of_lt (by omega)
  refine decoded _ h (.inl hs) (by split <;> simp) (fun hst => ?_) (fun hst => ?_) (hhdr.trans_le hfits) hpb <;>
    split_ifs at hst with hend
  · rw [hbidx, hfidx, hhdr]
    omega
  · rw [hbidx, hfidx, hhdr]
    omega

theorem withHeader_raise (h : s.Inv) : (s.withHeader.raise .bufferExceeded).Inv where
  errorIff := iff_of_true rfl nofun
  encActive := nofun
  decHeader := nofun
  decPayload := nofun
  decDone := nofun
  encDone := nofun
  idle := nofun
  geometry := by simp [State.operating]
  buffer := by simp [State.operating]
  paramsOk := h.paramsOk
  pbufWf := h.pbufWf
  fbWf := h.fbWf
  pbufIn := h.pbufIn
  fbIn := h.fbIn

-- Next states of the host's accesses.

theorem setSample (h : s.Inv) {row col ch v : Nat} (hx : s.pixExists row col ch = true)
    (hv : v < 2 ^ s.params.sampleBits) : (s.setSample row col ch v).Inv :=
  have hfb := State.fbOk_setSample h.fbOk hx hv
  ⟨h.errorIff, h.encActive, h.decHeader, h.decPayload, h.decDone, h.encDone, h.idle, h.geometry, h.buffer,
    h.paramsOk, h.pbufWf, hfb.1, h.pbufIn, hfb.2⟩

theorem setPayload (h : s.Inv) {i : Nat} (b : Byte) (hx : s.payExists i = true) : (s.setPayload i b).Inv :=
  have hpb := State.pbufOk_setPayload b h.pbufOk hx
  ⟨h.errorIff, h.encActive, h.decHeader, h.decPayload, h.decDone, h.encDone, h.idle, h.geometry, h.buffer,
    h.paramsOk, hpb.1, h.fbWf, hpb.2, h.fbIn⟩

theorem hardwareReset (h : s.Inv) : s.hardwareReset.Inv :=
  of_idle rfl rfl rfl rfl rfl h.paramsOk ⟨Memory.wf_forget _, nofun⟩ ⟨Memory.wf_forget _, nofun⟩

end State.Inv

/-- Where the geometry is what it was FB lists what it did, and where it is new FB lists nothing (10_state R26). -/
theorem fbOk_fbAfterStore {s t : State} {changed : Bool} (h : s.fbOk) (hfb : t.fb = fbAfterStore changed s.fb)
    (hp : t.params = s.params)
    (hsame : changed = false → t.width = s.width ∧ t.height = s.height ∧ t.channels = s.channels) : t.fbOk := by
  cases changed with
  | true => rw [State.fbOk, hfb]; exact ⟨Memory.wf_forget _, nofun⟩
  | false =>
    obtain ⟨hw, hh, hc⟩ := hsame rfl
    rw [State.fbOk, hfb, hw, hh, hc, hp]
    exact h

theorem regStore_fbOk {r : Reg} {v : Word} {s t : State} (hr : regStore r v s = some t) (h : s.fbOk) : t.fbOk := by
  cases r with
  | width | height | channels =>
    obtain rfl := Option.some.inj hr
    refine fbOk_fbAfterStore h rfl rfl fun hsame => ?_
    simp only [bne_eq_false_iff_eq] at hsame
    simp [← hsame]
  | frameCount | plenIn | qidxLo | qidxHi =>
    obtain rfl := Option.some.inj hr
    exact h
  | _ => simp [regStore] at hr

/-- A configuration register stored in IDLE keeps the invariant. -/
theorem State.Inv.regStore {r : Reg} {v : Word} {s t : State} (h : s.Inv) (hs : s.state = .idle)
    (hr : Machine.regStore r v s = some t) : t.Inv := by
  obtain ⟨hbidx, hfidx, hhdr, herr⟩ := h.idle hs
  have hfb := regStore_fbOk hr h.fbOk
  have hframe := regStore_frame hr
  refine State.Inv.of_idle ?_ ?_ ?_ ?_ ?_ ?_ ?_ hfb <;> rw [hframe]
  exacts [hs, herr, hbidx, hfidx, hhdr, h.paramsOk, h.pbufOk]

/-- Settles O52. -/
theorem resetMeetsTheInvariant : Obligations.ResetMeetsTheInvariant :=
  ⟨State.Inv.of_idle rfl rfl rfl rfl rfl (by decide) ⟨rfl, nofun⟩ ⟨rfl, nofun⟩, ⟨nofun, nofun, nofun⟩⟩

end Sys2Proof.Machine
end

section
/-! PROOF. Commands from states that meet the invariant: each completes, follows the transition table, raises precisely,
and touches the locations named (44_control R144; 60_exceptions R159; 20_memory R47, R54). -/

namespace Sys2Proof.Machine

/-- All that a DEC_FRAME of a decode in progress can do: reject the declared length, read the header and what follows
it, or read payload. -/
theorem exec_decFrame_of_inv {s : State} (h : s.Inv) (hs : s.state = .decHeader ∨ s.state = .decPayload) :
    (s.state = .decHeader ∧ s.params.pbufBytes < s.slotLength ∧
      exec .decFrame s = .next (s.withHeader.raise .bufferExceeded)) ∨
    (s.state = .decHeader ∧ s.slotLength ≤ s.params.pbufBytes ∧
      ∃ pb, exec .decFrame s = .next (s.afterHeaderFrame pb) ∧ s.storesSlots 4 0 (s.headerBytes - 4) pb) ∨
    (s.state = .decPayload ∧
      ∃ pb, exec .decFrame s = .next (s.afterPayloadFrame pb) ∧ s.storesSlots 0 (s.bidx.toNat - 4) s.nextBytes pb) := by
  rcases hs with hs | hs
  · by_cases hfits : s.slotLength ≤ s.params.pbufBytes
    · exact .inr (.inl ⟨hs, hfits, exec_decFrame_within_buffer (h.headerReady hs) hfits⟩)
    · exact .inl ⟨hs, Nat.lt_of_not_le hfits, exec_decFrame_over_buffer (h.headerReady hs) (Nat.lt_of_not_le hfits)⟩
  · exact .inr (.inr ⟨hs, exec_decFrame_of_payloadReady (h.payloadReady hs)⟩)

/-- Under the invariant every command completes. -/
theorem exec_completes {s : State} (h : s.Inv) (i : Instr) : ∃ t, exec i s = .next t := by
  cases exec_effect s i with
  | ignored _ _ h' | illegal _ _ h' | nothing _ _ h' | raised _ _ _ _ _ _ _ h' | cleared _ h' | queried _ _ h'
  | planned _ _ h' | encodeStarted _ _ _ _ h' | decodeStarted _ _ _ h' | encodeEnded _ _ _ h' => exact ⟨_, h'⟩
  | embedded hi hs _ =>
    obtain ⟨fb, hrun, -⟩ := exec_encFrame_of_ready (h.encReady hs)
    exact ⟨_, hi ▸ hrun⟩
  | extracted hi hs _ =>
    subst hi
    rcases exec_decFrame_of_inv h hs with ⟨-, -, hrun⟩ | ⟨-, -, pb, hrun, -⟩ | ⟨-, pb, hrun, -⟩ <;> exact ⟨_, hrun⟩

/-- Settles O54. -/
theorem noStepStopsUnderTheInvariant : Obligations.NoStepStopsUnderTheInvariant := by
  intro s h
  cases hp : s.pending with
  | nil => exact ⟨s, step_nil hp⟩
  | cons a rest =>
    rw [step_cons hp]
    cases access_effect (s.begin rest) a with
    | answered _ _ h' | registerStored _ _ _ _ _ _ h' | byteStored _ _ _ _ _ h' | sampleStored _ _ _ _ _ _ _ h'
    | reset _ h' => exact ⟨_, h'⟩
    | command i _ _ _ h' =>
      have hinv : ((s.begin rest).answered .done).Inv := h.of_block rfl rfl
      obtain ⟨t, ht⟩ := exec_completes hinv i
      exact ⟨t, h'.trans ht⟩
    | illegal _ _ _ _ h' =>
      rw [h', illegalWord]
      split
      · exact ⟨_, rfl⟩
      · exact ⟨_, rfl⟩

-- The transition table.

theorem allows_state {c : Cell} {s t : State} {states : List Ctl} {errors : List ErrCode} (hc : c = .next states errors)
    (hs : t.state ∈ states) (herr : t.err = .none) : c.allows s t = true := by
  simp [hc, Cell.allows, hs, herr]

theorem allows_raise {c : Cell} {s t : State} {states : List Ctl} {errors : List ErrCode} (hc : c = .next states errors)
    (hs : t.state = .error) (herr : t.err ∈ errors) : c.allows s t = true := by
  simp [hc, Cell.allows, hs, herr]

/-- ERR is none of the registers that a frame of a decode writes. -/
theorem State.err_decoded (s : State) (hdr : BitVec 32) (bidx : BitVec 33) (fidx : BitVec 32) (st : Ctl)
    (pb : Memory Byte) (acc : List CoreAccess) :
    ({ s with hdr := hdr, bidx := bidx, fidx := fidx, state := st, pbuf := pb, accesses := acc } : State).err = s.err :=
  rfl

theorem State.afterHeaderFrame_err (s : State) (pb : Memory Byte) : (s.afterHeaderFrame pb).err = s.err :=
  s.err_decoded ..

theorem State.afterHeaderFrame_state (s : State) (pb : Memory Byte) :
    (s.afterHeaderFrame pb).state = if 4 + s.slotLength ≤ 16 then .decDone else .decPayload := rfl

theorem State.afterPayloadFrame_err (s : State) (pb : Memory Byte) : (s.afterPayloadFrame pb).err = s.err := rfl

theorem State.afterPayloadFrame_state (s : State) (pb : Memory Byte) : (s.afterPayloadFrame pb).state =
    if s.bidx.toNat + s.nextBytes = 4 + s.hdr.toNat then .decDone else .decPayload := rfl

theorem State.afterHeaderFrame_fidx (s : State) (pb : Memory Byte) : (s.afterHeaderFrame pb).fidx = s.fidx + 1 := rfl

theorem State.afterHeaderFrame_bidx_toNat (s : State) (pb : Memory Byte) :
    (s.afterHeaderFrame pb).bidx.toNat = s.headerBytes := by
  rw [State.afterHeaderFrame, BitVec.toNat_ofNat]
  exact Nat.mod_eq_of_lt (by rw [State.headerBytes]; omega)

theorem State.afterHeaderFrame_hdr (s : State) (pb : Memory Byte) :
    (s.afterHeaderFrame pb).hdr = BitVec.ofNat 32 s.slotLength := rfl

theorem State.afterHeaderFrame_hdr_toNat (s : State) (pb : Memory Byte) :
    (s.afterHeaderFrame pb).hdr.toNat = s.slotLength := by
  rw [s.afterHeaderFrame_hdr pb, BitVec.toNat_ofNat, Nat.mod_eq_of_lt s.slotLength_lt]

/-- DEC_FRAME of a decode in progress follows its two cells. -/
theorem decFrame_allows {s t : State} (h : s.Inv) (hs : s.state = .decHeader ∨ s.state = .decPayload)
    (ht : exec .decFrame s = .next t) : (transition .decFrame s.state).allows s t = true := by
  have herr : s.err = .none := h.err_none (by rcases hs with hs | hs <;> simp [hs])
  rcases exec_decFrame_of_inv h hs with ⟨hst, -, hrun⟩ | ⟨hst, -, pb, hrun, -⟩ | ⟨hst, pb, hrun, -⟩ <;>
    obtain rfl := Host.Outcome.next.inj (hrun.symm.trans ht) <;> rw [hst]
  · exact allows_raise (c := transition .decFrame .decHeader) rfl rfl (by simp)
  · refine allows_state (c := transition .decFrame .decHeader) rfl ?_ ((s.afterHeaderFrame_err pb).trans herr)
    rw [s.afterHeaderFrame_state pb]
    split <;> simp
  · refine allows_state (c := transition .decFrame .decPayload) rfl ?_ ((s.afterPayloadFrame_err pb).trans herr)
    rw [s.afterPayloadFrame_state pb]
    split <;> simp

/-- Settles O9. By the list of effects, each against its cell. -/
theorem everyCommandFollowsTheTransitionTable : Obligations.EveryCommandFollowsTheTransitionTable := by
  intro s i h
  obtain ⟨t, ht⟩ := exec_completes h i
  refine ⟨t, ht, ?_⟩
  have hnext {u : State} (hu : exec i s = .next u) : t = u := Host.Outcome.next.inj (ht.symm.trans hu)
  have hnone (hs : s.state = .idle ∨ s.state = .encActive) : s.err = .none :=
    h.err_none (by rcases hs with hs | hs <;> simp [hs])
  cases exec_effect s i with
  | ignored hs hi h' => simp [hnext h', hs, transition_of_error hi, Cell.allows]
  | illegal _ hc h' => simp [hnext h', hc, Cell.allows]
  | nothing hs hc h' => rw [hnext h']; exact allows_state hc (by simp) (h.err_none hs)
  | raised e _ _ _ _ hc he h' => rw [hnext h']; exact allows_raise hc rfl he
  | cleared hi h' => rw [hnext h', hi]; exact allows_state (c := transition .clear s.state) rfl (by simp) rfl
  | queried hi hs h' =>
    rw [hnext h', hi, hs]
    exact allows_state (c := transition .slotQuery .idle) rfl (by simp [hs]) (hnone (.inl hs))
  | planned hi hs h' =>
    rw [hnext h', hi, hs]
    exact allows_state (c := transition .capQuery .idle) rfl (by simp) (hnone (.inl hs))
  | encodeStarted hi hs _ _ h' =>
    rw [hnext h', hi, hs]
    exact allows_state (c := transition .encStart .idle) rfl (by simp) (hnone (.inl hs))
  | decodeStarted hi hs _ h' =>
    rw [hnext h', hi, hs]
    exact allows_state (c := transition .decStart .idle) rfl (by simp) (hnone (.inl hs))
  | embedded hi hs _ =>
    subst hi
    obtain ⟨fb, hrun, -⟩ := exec_encFrame_of_ready (h.encReady hs)
    rw [hnext hrun, hs]
    exact allows_state (c := transition .encFrame .encActive) rfl (by simp [State.afterEncFrame, hs]) (hnone (.inr hs))
  | extracted hi hs _ =>
    subst hi
    exact decFrame_allows h hs ht
  | encodeEnded hi hs _ h' =>
    rw [hnext h', hi, hs]
    exact allows_state (c := transition .eos .encActive) rfl (by simp) (hnone (.inr hs))

-- Precise errors.

/-- A command that leads to ERROR has raised, and nothing else, but for the DEC_FRAME whose header exceeds the
buffer. -/
theorem exec_to_error {s t : State} {i : Instr} (h : s.Inv) (hne : s.state ≠ .error) (ht : exec i s = .next t)
    (herr : t.state = .error) :
    (t = s.raise t.err ∧ (t.err ≠ .bufferExceeded ∨ i ≠ .decFrame)) ∨
      (i = .decFrame ∧ s.state = .decHeader ∧ s.params.pbufBytes < s.slotLength ∧
        t = s.withHeader.raise .bufferExceeded) := by
  have hnext {u : State} (hu : exec i s = .next u) : u = t := Host.Outcome.next.inj (hu.symm.trans ht)
  have hnot {u : State} (hu : exec i s = .next u) (hstate : u.state ≠ .error) : False :=
    hstate (hnext hu ▸ herr)
  cases exec_effect s i with
  | ignored hs _ _ => exact absurd hs hne
  | illegal _ _ h' => obtain rfl := hnext h'; exact .inl ⟨rfl, .inl nofun⟩
  | raised _ _ _ hi _ _ _ h' => obtain rfl := hnext h'; exact .inl ⟨rfl, .inr hi⟩
  | nothing hs _ h' => exact (hnot h' hs).elim
  | queried _ _ h' | planned _ _ h' => exact (hnot h' hne).elim
  | cleared _ h' | encodeStarted _ _ _ _ h' | decodeStarted _ _ _ h' | encodeEnded _ _ _ h' =>
    exact (hnot h' nofun).elim
  | embedded hi hs _ =>
    subst hi
    obtain ⟨fb, hrun, -⟩ := exec_encFrame_of_ready (h.encReady hs)
    exact (hnot hrun hne).elim
  | extracted hi hs _ =>
    subst hi
    rcases exec_decFrame_of_inv h hs with ⟨hst, hover, hrun⟩ | ⟨-, -, pb, hrun, -⟩ | ⟨-, pb, hrun, -⟩
    · exact .inr ⟨rfl, hst, hover, (hnext hrun).symm⟩
    · exact (hnot hrun (by rw [s.afterHeaderFrame_state pb]; split <;> nofun)).elim
    · exact (hnot hrun (by rw [s.afterPayloadFrame_state pb]; split <;> nofun)).elim

/-- Settles O34. -/
theorem errorsArePrecise : Obligations.ErrorsArePrecise := by
  intro s t i h hne ht herr
  rcases exec_to_error h hne ht herr with ⟨hraise, hkind⟩ | ⟨rfl, hst, hover, rfl⟩
  · refine ⟨by rw [hraise]; rfl, by rw [hraise]; rfl, by rw [hraise]; rfl, fun hbuf => ?_, fun _ => hraise⟩
    exact absurd hbuf fun ⟨h1, h2⟩ => hkind.elim (absurd h1) (absurd h2)
  · refine ⟨rfl, rfl, rfl, fun _ => ⟨hst, rfl, s.withHeader_hdr.symm ▸ hover, rfl⟩, fun hkind => ?_⟩
    exact hkind.elim (absurd rfl) (absurd rfl)

-- The record of accesses.

/-- What a command appends to the record: nothing, or the accesses of the frame bytes by which it moves BIDX. -/
theorem exec_accesses {s t : State} {i : Instr} (h : s.Inv) (ht : exec i s = .next t) :
    (t.accesses = s.accesses ∧ (i = .encFrame ∨ i = .decFrame → t.bidx = s.bidx)) ∨
      (i = .encFrame ∧ s.state = .encActive ∧ s.bidx.toNat + s.nextBytes = t.bidx.toNat ∧
        t.accesses = s.accesses ++ encTrace s.height.toNat s.bidx.toNat s.nextBytes) ∨
      (i = .decFrame ∧ (s.state = .decHeader ∨ s.state = .decPayload) ∧
        ∃ n ≤ 16, s.bidx.toNat + n = t.bidx.toNat ∧
          t.accesses = s.accesses ++ decTrace s.height.toNat s.bidx.toNat n ∧
          (s.bidx.toNat + n ≤ 4 ∨ s.bidx.toNat + n ≤ 4 + s.params.pbufBytes)) := by
  have hnext {u : State} (hu : exec i s = .next u) : u = t := Host.Outcome.next.inj (hu.symm.trans ht)
  cases exec_effect s i with
  | ignored _ _ h' | illegal _ _ h' | nothing _ _ h' | raised _ _ _ _ _ _ _ h' | queried _ _ h' | planned _ _ h'
  | encodeEnded _ _ _ h' => obtain rfl := hnext h'; exact .inl ⟨rfl, fun _ => rfl⟩
  | cleared hi h' | encodeStarted hi _ _ _ h' | decodeStarted hi _ _ h' =>
    obtain rfl := hnext h'
    exact .inl ⟨rfl, by simp [hi]⟩
  | embedded hi hs _ =>
    subst hi
    have hready := h.encReady hs
    obtain ⟨fb, hrun, -⟩ := exec_encFrame_of_ready hready
    obtain rfl := hnext hrun
    exact .inr (.inl ⟨rfl, hs, (State.afterEncFrame_bidx hready.position fb).symm, rfl⟩)
  | extracted hi hs _ =>
    subst hi
    refine .inr (.inr ⟨rfl, hs, ?_⟩)
    rcases exec_decFrame_of_inv h hs with ⟨hst, -, hrun⟩ | ⟨hst, hfits, pb, hrun, -⟩ | ⟨hst, pb, hrun, -⟩
    · obtain rfl := hnext hrun
      have hzero : s.bidx.toNat = 0 := by rw [(h.decHeader hst).1]; rfl
      exact ⟨4, by decide, by rw [hzero]; rfl, by rw [hzero]; rfl, .inl (by rw [hzero])⟩
    · obtain rfl := hnext hrun
      have hzero : s.bidx.toNat = 0 := by rw [(h.decHeader hst).1]; rfl
      have hn : s.headerBytes = min 16 (4 + s.slotLength) := rfl
      have hbidx := s.afterHeaderFrame_bidx_toNat pb
      refine ⟨s.headerBytes, by omega, by rw [hbidx, hzero, Nat.zero_add], by rw [hzero]; rfl, .inr (by omega)⟩
    · obtain rfl := hnext hrun
      have hready := h.payloadReady hst
      have hle := State.bidx_add_nextBytes_le hready.position.le
      have hbuf := hready.buffer
      exact ⟨s.nextBytes, s.nextBytes_le, (State.bidx_add_nextBytes_toNat hready.position.le).symm, rfl,
        .inr (by omega)⟩

/-- Settles O48. -/
theorem frameAccessesAreCounted : Obligations.FrameAccessesAreCounted := by
  refine fun s t h => ⟨fun ht => ?_, fun ht => ?_⟩
  · rcases exec_accesses h ht with ⟨hacc, hbidx⟩ | ⟨-, -, hn, hacc⟩ | ⟨hi, -⟩
    · refine ⟨[], by simp [hacc], ?_⟩
      simp [hbidx (.inl rfl)]
    · obtain ⟨h1, h2, h3, h4⟩ := encTrace_counts s.height.toNat s.bidx.toNat s.nextBytes
      exact ⟨_, hacc, by omega, by rw [h1]; omega, by rw [h2]; omega, by rw [h3]; omega, h4⟩
    · cases hi
  · rcases exec_accesses h ht with ⟨hacc, hbidx⟩ | ⟨hi, -⟩ | ⟨-, -, n, -, hn, hacc, -⟩
    · refine ⟨[], by simp [hacc], ?_⟩
      simp [hbidx (.inr rfl)]
    · cases hi
    · obtain ⟨h1, h2, h3, h4⟩ := decTrace_counts s.height.toNat s.bidx.toNat n
      exact ⟨_, hacc, by omega, by rw [h1]; omega, h2, h3, by rw [h4]; omega⟩

/-- Every lane of every slot lies in SLOTSET (20_memory R54). -/
theorem inSlotSet_slot {s : State} (he : s.eligible = true) (k : Nat) {i : Nat} (hi : i ∈ lanes) :
    s.inSlotSet (slotFor k s.height.toNat).row ((slotFor k s.height.toNat).col i)
      (slotFor k s.height.toNat).channel := by
  have hi8 := mem_lanes.1 hi
  have hH := (s.eligible_iff.1 he).2.1
  rw [State.inSlotSet, slotFor_row, slotFor_col, slotFor_channel]
  omega

theorem mayTouch_embedTrace {s : State} (he : s.eligible = true) (k : Nat) :
    ∀ a ∈ embedTrace (slotFor k s.height.toNat), s.mayTouch a := by
  intro a ha
  obtain ⟨i, hi, hmem⟩ := List.mem_flatMap.1 ha
  simp only [List.mem_cons, List.not_mem_nil, or_false] at hmem
  rcases hmem with rfl | rfl <;> exact inSlotSet_slot he k hi

theorem mayTouch_extractTrace {s : State} (he : s.eligible = true) (k : Nat) :
    ∀ a ∈ extractTrace (slotFor k s.height.toNat), s.mayTouch a := by
  intro a ha
  obtain ⟨i, hi, rfl⟩ := List.mem_map.1 ha
  exact inSlotSet_slot he k hi

/-- The accesses of the bytes `k` to `k + n - 1` of an encode stay in SLOTSET and in PBUF. -/
theorem mayTouch_encTrace {s : State} (he : s.eligible = true) {k n : Nat} (hb : k + n ≤ 4 + s.params.pbufBytes) :
    ∀ a ∈ encTrace s.height.toNat k n, s.mayTouch a := by
  intro a ha
  obtain ⟨j, hj, hmem⟩ := List.mem_flatMap.1 ha
  have hjn := List.mem_range.1 hj
  rcases List.mem_append.1 hmem with hpay | hslot
  · split_ifs at hpay with hk
    · cases hpay
    · obtain rfl := List.mem_singleton.1 hpay
      show k + j - 4 < s.params.pbufBytes
      omega
  · exact mayTouch_embedTrace he _ a hslot

/-- The same for the bytes of a decode, of which those of the header have no place in PBUF. -/
theorem mayTouch_decTrace {s : State} (he : s.eligible = true) {k n : Nat}
    (hb : k + n ≤ 4 ∨ k + n ≤ 4 + s.params.pbufBytes) : ∀ a ∈ decTrace s.height.toNat k n, s.mayTouch a := by
  intro a ha
  obtain ⟨j, hj, hmem⟩ := List.mem_flatMap.1 ha
  have hjn := List.mem_range.1 hj
  rcases List.mem_append.1 hmem with hslot | hpay
  · exact mayTouch_extractTrace he _ a hslot
  · split_ifs at hpay with hk
    · cases hpay
    · obtain rfl := List.mem_singleton.1 hpay
      show k + j - 4 < s.params.pbufBytes
      omega

/-- Settles O49. -/
theorem coreTouchesOnlySlotSet : Obligations.CoreTouchesOnlySlotSet := by
  intro s t i h ht
  rcases exec_accesses h ht with ⟨hacc, -⟩ | ⟨rfl, hs, -, hacc⟩ | ⟨rfl, hs, n, -, -, hacc, hb⟩
  · exact ⟨[], by simp [hacc], nofun, fun _ _ => rfl⟩
  · have hready := h.encReady hs
    have hle := State.bidx_add_nextBytes_le hready.position
    have hbuf := hready.buffer
    exact ⟨_, hacc, mayTouch_encTrace hready.eligible (by omega), fun hi => absurd rfl hi⟩
  · have he := h.eligible_of_ne (by rcases hs with hs | hs <;> simp [hs]) (by rcases hs with hs | hs <;> simp [hs])
    exact ⟨_, hacc, mayTouch_decTrace he hb, fun _ hi => absurd rfl hi⟩

end Sys2Proof.Machine
end

section
/-! PROOF. Every step keeps the invariant, and PBUF holds the payload bytes that the decode has read (10_state R31,
log 17). -/

namespace Sys2Proof.Machine

-- What PBUF holds, along a step.

/-- Where no decode has begun, or it has been given up, nothing is said of PBUF. -/
theorem State.holdsRead_of_ne {s : State} (hh : s.state ≠ .decHeader) (hp : s.state ≠ .decPayload)
    (hd : s.state ≠ .decDone) (read : List Byte) : s.HoldsRead read :=
  ⟨fun e => absurd e hh, fun e => absurd e hp, fun e => absurd e hd⟩

/-- What is said of PBUF speaks of STATE, BIDX, HDR and PBUF only. -/
theorem State.HoldsRead.congr {s t : State} {read : List Byte} (h : s.HoldsRead read) (hst : t.state = s.state)
    (hbidx : t.bidx = s.bidx) (hhdr : t.hdr = s.hdr) (hpbuf : t.pbuf = s.pbuf) : t.HoldsRead read := by
  have hstream (hs : s.holdsStream read) : t.holdsStream read := by
    obtain ⟨hlen, hpay⟩ := hs
    exact ⟨hhdr ▸ hlen, fun i hi => (State.payloadAt_congr hpbuf i).trans (hpay i hi)⟩
  refine ⟨fun e => h.decHeader (hst ▸ e), fun e => ?_, fun e => ?_⟩
  · obtain ⟨hlen, hs⟩ := h.decPayload (hst ▸ e)
    exact ⟨hbidx ▸ hlen, hstream hs⟩
  · obtain ⟨hlen, hs⟩ := h.decDone (hst ▸ e)
    exact ⟨by rw [hlen, State.total_eq, State.total_eq, hhdr], hstream hs⟩

/-- A next state for which the claim on steps holds: the invariant, and what is said of PBUF with the bytes read on the
way. -/
def State.keepsTo (s t : State) : Prop :=
  t.Inv ∧ ∀ read : List Byte, s.HoldsRead read → t.HoldsRead (s.readAfter t read)

/-- A next state outside a decode. -/
theorem State.keepsTo_of_ne {s t : State} (h : t.Inv) (hh : t.state ≠ .decHeader) (hp : t.state ≠ .decPayload)
    (hd : t.state ≠ .decDone) : s.keepsTo t :=
  ⟨h, fun _ _ => State.holdsRead_of_ne hh hp hd _⟩

theorem State.keepsTo_of_idle {s t : State} (h : t.Inv) (hs : t.state = .idle) : s.keepsTo t :=
  State.keepsTo_of_ne h (by simp [hs]) (by simp [hs]) (by simp [hs])

/-- A next state with the same STATE, BIDX, HDR and PBUF: no stream byte has been read. -/
theorem State.keepsTo_of_same {s t : State} (h : t.Inv) (hst : t.state = s.state) (hbidx : t.bidx = s.bidx)
    (hhdr : t.hdr = s.hdr) (hpbuf : t.pbuf = s.pbuf) : s.keepsTo t := by
  refine ⟨h, fun read hread => ?_⟩
  by_cases hidle : s.state = .idle
  · exact State.holdsRead_of_ne (by simp [hst, hidle]) (by simp [hst, hidle]) (by simp [hst, hidle]) _
  · rw [State.readAfter_of_bidx hidle hbidx]
    exact hread.congr hst hbidx hhdr hpbuf

/-- The claim speaks of the block and the parameters of the state before the step only. -/
theorem State.keepsTo_congr {s u t : State} (hb : u.toBlock = s.toBlock) (hp : u.params = s.params)
    (h : u.keepsTo t) : s.keepsTo t := by
  have hst : u.state = s.state := congrArg Block.state hb
  have hbidx : u.bidx = s.bidx := congrArg Block.bidx hb
  have hbytes : u.slotByte = s.slotByte := funext fun slot =>
    State.slotByte_congr (congrArg Block.fb hb) (congrArg Block.width hb) (congrArg Block.height hb)
      (congrArg Block.channels hb) hp slot
  refine ⟨h.1, fun read hread => ?_⟩
  have hread' := h.2 read (hread.congr hst hbidx (congrArg Block.hdr hb) (congrArg Block.pbuf hb))
  simpa only [State.readAfter, State.slotBytes, hst, hbidx, hbytes] using hread'

-- The frames of a decode.

/-- A frame of a decode, from what it adds to the bytes read. -/
theorem State.holdsRead_of_stream {t : State} {read : List Byte} (hst : t.state = .decPayload ∨ t.state = .decDone)
    (hlen : read.length = t.bidx.toNat) (hdone : t.state = .decDone → t.bidx.toNat = t.total)
    (hs : t.holdsStream read) : t.HoldsRead read :=
  ⟨fun e => by simp [e] at hst, fun _ => ⟨hlen, hs⟩, fun e => ⟨hlen.trans (hdone e), hs⟩⟩

/-- After the frame with the header: the bytes read are those of its first slots. -/
theorem State.holdsStream_afterHeaderFrame {s : State} {pb : Memory Byte}
    (hpb : s.storesSlots 4 0 (s.headerBytes - 4) pb) :
    (s.afterHeaderFrame pb).holdsStream (s.slotBytes s.headerBytes) := by
  have hbytes : 4 ≤ s.headerBytes := by rw [State.headerBytes]; omega
  refine ⟨?_, fun i hi => ?_⟩
  · rw [s.afterHeaderFrame_hdr_toNat pb, s.slotBytes_getD (by omega), s.slotBytes_getD (by omega),
      s.slotBytes_getD (by omega), s.slotBytes_getD (by omega), State.slotLength]
  · rw [State.slotBytes_length] at hi
    rw [s.payloadAt_afterHeaderFrame pb, s.slotBytes_getD hi, ← hpb.stored i (by omega), Nat.zero_add]

/-- In a decode every byte by which BIDX moves has been read. -/
theorem State.readAfter_of_decoding {s t : State} (hs : s.state = .decHeader ∨ s.state = .decPayload) (n : Nat)
    (hbidx : t.bidx.toNat = s.bidx.toNat + n) (read : List Byte) : s.readAfter t read = read ++ s.slotBytes n := by
  rcases hs with hs | hs <;> rw [State.readAfter, hs, hbidx, Nat.add_sub_cancel_left]

theorem State.keepsTo_afterHeaderFrame {s : State} {pb : Memory Byte} (h : s.Inv) (hs : s.state = .decHeader)
    (hfits : s.slotLength ≤ s.params.pbufBytes) (hpb : s.storesSlots 4 0 (s.headerBytes - 4) pb) :
    s.keepsTo (s.afterHeaderFrame pb) := by
  have hinv := h.afterHeaderFrame hs hfits (hpb.sound h.pbufOk)
  have hbidx := s.afterHeaderFrame_bidx_toNat pb
  refine ⟨hinv, fun read hread => ?_⟩
  have hzero : s.bidx.toNat = 0 := by rw [(h.decHeader hs).1]; rfl
  rw [State.readAfter_of_decoding (.inl hs) s.headerBytes (by rw [hbidx, hzero, Nat.zero_add]), hread.decHeader hs,
    List.nil_append]
  refine State.holdsRead_of_stream ?_ (by rw [State.slotBytes_length, hbidx]) (fun e => (hinv.decDone e).1)
    (State.holdsStream_afterHeaderFrame hpb)
  rw [s.afterHeaderFrame_state pb]
  split <;> simp

/-- After a later frame: the bytes read before, and after them those of its first slots. -/
theorem State.holdsStream_afterPayloadFrame {s : State} {pb : Memory Byte} {read : List Byte}
    (hlo : 16 ≤ s.bidx.toNat) (hlen : read.length = s.bidx.toNat) (hread : s.holdsStream read)
    (hpb : s.storesSlots 0 (s.bidx.toNat - 4) s.nextBytes pb) :
    (s.afterPayloadFrame pb).holdsStream (read ++ s.slotBytes s.nextBytes) := by
  obtain ⟨hhdr, hpay⟩ := hread
  have hbefore {j : Nat} (hj : j < read.length) : (read ++ s.slotBytes s.nextBytes).getD j 0 = read.getD j 0 :=
    List.getD_append _ _ _ _ hj
  have hpbuf (i : Nat) : (s.afterPayloadFrame pb).payloadAt i = (s.withPbuf pb).payloadAt i :=
    State.payloadAt_congr rfl i
  refine ⟨?_, fun i hi => ?_⟩
  · rw [hbefore (by omega), hbefore (by omega), hbefore (by omega), hbefore (by omega)]
    exact hhdr
  · rw [hpbuf]
    rw [List.length_append, State.slotBytes_length] at hi
    by_cases hold : 4 + i < read.length
    · rw [hbefore hold, hpb.others i (.inl (by omega)), hpay i hold]
    · obtain ⟨j, rfl⟩ : ∃ j, i = s.bidx.toNat - 4 + j := ⟨i - (s.bidx.toNat - 4), by omega⟩
      have hidx : 4 + (s.bidx.toNat - 4 + j) - read.length = j := by omega
      rw [List.getD_append_right _ _ _ _ (by omega), hidx, hpb.stored j (by omega), s.slotBytes_getD (by omega),
        Nat.zero_add]

theorem State.keepsTo_afterPayloadFrame {s : State} {pb : Memory Byte} (h : s.Inv) (hs : s.state = .decPayload)
    (hpb : s.storesSlots 0 (s.bidx.toNat - 4) s.nextBytes pb) : s.keepsTo (s.afterPayloadFrame pb) := by
  have hinv := h.afterPayloadFrame hs (hpb.sound h.pbufOk)
  obtain ⟨hlo, hhi, -⟩ := h.decPayload hs
  have hbidx : (s.afterPayloadFrame pb).bidx.toNat = s.bidx.toNat + s.nextBytes :=
    State.bidx_add_nextBytes_toNat (s.total_eq ▸ hhi).le
  refine ⟨hinv, fun read hread => ?_⟩
  obtain ⟨hlen, hstream⟩ := hread.decPayload hs
  rw [State.readAfter_of_decoding (.inr hs) s.nextBytes hbidx]
  refine State.holdsRead_of_stream ?_ (by rw [List.length_append, State.slotBytes_length, hlen, hbidx])
    (fun e => (hinv.decDone e).1) (State.holdsStream_afterPayloadFrame hlo hlen hstream hpb)
  rw [s.afterPayloadFrame_state pb]
  split <;> simp

-- Commands, accesses, steps.

theorem State.keepsTo_raise {s : State} {e : ErrCode} (h : s.Inv) (he : e ≠ .none) : s.keepsTo (s.raise e) :=
  State.keepsTo_of_ne (h.raise he) (by simp) (by simp) (by simp)

/-- No cell of the table lists NONE as an error. -/
theorem ne_none_of_cell {i : Instr} {st : Ctl} {states : List Ctl} {errors : List ErrCode} {e : ErrCode}
    (hc : transition i st = .next states errors) (he : e ∈ errors) : e ≠ .none := by
  rintro rfl
  cases i <;> cases st <;> simp only [transition, reduceCtorEq, Cell.next.injEq] at hc <;>
    obtain ⟨-, rfl⟩ := hc <;> simp at he

/-- Every command that completes keeps the invariant, by the list of effects. -/
theorem exec_keeps {s t : State} {i : Instr} (h : s.Inv) (ht : exec i s = .next t) : s.keepsTo t := by
  have hnext {u : State} (hu : exec i s = .next u) (hkeep : s.keepsTo u) : s.keepsTo t :=
    Host.Outcome.next.inj (hu.symm.trans ht) ▸ hkeep
  cases exec_effect s i with
  | ignored _ _ h' | nothing _ _ h' => exact hnext h' (State.keepsTo_of_same h rfl rfl rfl rfl)
  | illegal _ _ h' => exact hnext h' (State.keepsTo_raise h nofun)
  | raised _ _ _ _ _ hc he h' => exact hnext h' (State.keepsTo_raise h (ne_none_of_cell hc he))
  | cleared _ h' => exact hnext h' (State.keepsTo_of_ne h.toIdle nofun nofun nofun)
  | queried _ _ h' => exact hnext h' (State.keepsTo_of_same (h.withQuery _) rfl rfl rfl rfl)
  | planned _ _ h' => exact hnext h' (State.keepsTo_of_same (h.withCapacity _ _) rfl rfl rfl rfl)
  | encodeStarted _ hs he hb h' => exact hnext h' (State.keepsTo_of_ne (h.encodeStarted hs he hb) nofun nofun nofun)
  | decodeStarted _ hs he h' =>
    refine hnext h' ⟨h.decodeStarted hs he, fun read _ => ?_⟩
    rw [State.readAfter, hs]
    exact ⟨fun _ => rfl, nofun, nofun⟩
  | embedded hi hs _ =>
    subst hi
    obtain ⟨fb, hrun, hfb⟩ := exec_encFrame_of_ready (h.encReady hs)
    have hst : (s.afterEncFrame fb).state = .encActive := hs
    exact hnext hrun (State.keepsTo_of_ne (h.afterEncFrame hs (hfb.sound h.fbOk)) (by simp [hst]) (by simp [hst])
      (by simp [hst]))
  | extracted hi hs _ =>
    subst hi
    rcases exec_decFrame_of_inv h hs with ⟨-, -, hrun⟩ | ⟨hst, hfits, pb, hrun, hpb⟩ | ⟨hst, pb, hrun, hpb⟩
    · exact hnext hrun (State.keepsTo_of_ne h.withHeader_raise nofun nofun nofun)
    · exact hnext hrun (State.keepsTo_afterHeaderFrame h hst hfits hpb)
    · exact hnext hrun (State.keepsTo_afterPayloadFrame h hst hpb)
  | encodeEnded _ hs hend h' => exact hnext h' (State.keepsTo_of_ne (h.encodeEnded hs hend) nofun nofun nofun)

theorem illegalWord_keeps {s t : State} (h : s.Inv) (ht : illegalWord s = .next t) : s.keepsTo t := by
  by_cases hs : s.state = .error
  · obtain rfl := Host.Outcome.next.inj ((illegalWord_of_error hs).symm.trans ht)
    exact State.keepsTo_of_same h rfl rfl rfl rfl
  · obtain rfl := Host.Outcome.next.inj ((illegalWord_of_ne_error hs).symm.trans ht)
    exact State.keepsTo_raise h nofun

/-- Every access keeps the invariant. -/
theorem access_keeps {s t : State} {a : HostAccess} (h : s.Inv) (ht : access a s = .next t) : s.keepsTo t := by
  have hnext {u : State} (hu : access a s = .next u) (hkeep : s.keepsTo u) : s.keepsTo t :=
    Host.Outcome.next.inj (hu.symm.trans ht) ▸ hkeep
  cases access_effect s a with
  | answered _ _ h' => exact hnext h' (State.keepsTo_of_same (h.of_block rfl rfl) rfl rfl rfl rfl)
  | registerStored _ _ u _ hs hr h' =>
    have hst : u.state = .idle := by rw [regStore_frame hr]; exact hs
    exact hnext h' (State.keepsTo_of_idle ((h.regStore hs hr).of_block rfl rfl) hst)
  | byteStored _ b _ hs hx h' => exact hnext h' (State.keepsTo_of_idle ((h.setPayload b hx).of_block rfl rfl) hs)
  | sampleStored _ _ _ _ _ hx hv h' =>
    exact hnext h' (State.keepsTo_of_same ((h.setSample hx hv).of_block rfl rfl) rfl rfl rfl rfl)
  | reset _ h' => exact hnext h' (State.keepsTo_of_ne h.hardwareReset nofun nofun nofun)
  | command i _ _ _ h' =>
    exact State.keepsTo_congr (u := s.answered .done) rfl rfl (exec_keeps (h.of_block rfl rfl) (h'.symm.trans ht))
  | illegal _ _ _ _ h' =>
    exact State.keepsTo_congr (u := s.answered .done) rfl rfl
      (illegalWord_keeps (h.of_block rfl rfl) (h'.symm.trans ht))

/-- Settles O53. -/
theorem everyStepKeepsTheInvariant : Obligations.EveryStepKeepsTheInvariant := by
  intro s t h ht
  cases hp : s.pending with
  | nil =>
    obtain rfl := Host.Outcome.next.inj ((step_nil hp).symm.trans ht)
    exact State.keepsTo_of_same h rfl rfl rfl rfl
  | cons a rest =>
    exact State.keepsTo_congr (u := s.begin rest) rfl rfl
      (access_keeps (h.of_block rfl rfl) ((step_cons hp).symm.trans ht))

end Sys2Proof.Machine
end

section
/-! PROOF. The configuration registers outside IDLE (10_state R29). -/

namespace Sys2Proof.Machine

/-- The six configuration registers are as they were. -/
def State.keepsConfig (s t : State) : Prop :=
  t.width = s.width ∧ t.height = s.height ∧ t.channels = s.channels ∧ t.frameCount = s.frameCount ∧
    t.plenIn = s.plenIn ∧ t.qidx = s.qidx

theorem State.keepsConfig_refl (s : State) : s.keepsConfig s := ⟨rfl, rfl, rfl, rfl, rfl, rfl⟩

/-- No command writes a configuration register, in any state. -/
theorem exec_keepsConfig {s t : State} {i : Instr} (ht : exec i s = .next t) : s.keepsConfig t := by
  have hnext {u : State} (hu : exec i s = .next u) (hkeep : s.keepsConfig u) : s.keepsConfig t :=
    Host.Outcome.next.inj (hu.symm.trans ht) ▸ hkeep
  cases exec_effect s i with
  | ignored _ _ h' | illegal _ _ h' | nothing _ _ h' | raised _ _ _ _ _ _ _ h' | cleared _ h' | queried _ _ h'
  | planned _ _ h' | encodeStarted _ _ _ _ h' | decodeStarted _ _ _ h' | encodeEnded _ _ _ h' =>
    exact hnext h' s.keepsConfig_refl
  | embedded hi hs _ =>
    subst hi
    obtain ⟨u, hu, rfl⟩ := exec_encFrame_next hs ht
    rw [(embedBytes_lsbsChanged hu).rest]
    exact s.keepsConfig_refl
  | extracted hi _ _ =>
    subst hi
    rw [exec_decFrame_frame ht]
    exact s.keepsConfig_refl

theorem illegalWord_keepsConfig {s t : State} (ht : illegalWord s = .next t) : s.keepsConfig t := by
  by_cases hs : s.state = .error
  · obtain rfl := Host.Outcome.next.inj ((illegalWord_of_error hs).symm.trans ht)
    exact s.keepsConfig_refl
  · obtain rfl := Host.Outcome.next.inj ((illegalWord_of_ne_error hs).symm.trans ht)
    exact s.keepsConfig_refl

/-- Outside IDLE an access that is not the reset input stores no configuration register. -/
theorem access_keepsConfig {s t : State} {a : HostAccess} (hs : s.state ≠ .idle) (ha : a ≠ .reset)
    (ht : access a s = .next t) : s.keepsConfig t := by
  have hnext {u : State} (hu : access a s = .next u) (hkeep : s.keepsConfig u) : s.keepsConfig t :=
    Host.Outcome.next.inj (hu.symm.trans ht) ▸ hkeep
  cases access_effect s a with
  | answered _ _ h' | sampleStored _ _ _ _ _ _ _ h' => exact hnext h' s.keepsConfig_refl
  | registerStored _ _ _ _ hidle _ _ | byteStored _ _ _ hidle _ _ => exact absurd hidle hs
  | reset hreset _ => exact absurd hreset ha
  | command _ _ _ _ h' => exact exec_keepsConfig (s := s.answered .done) (h'.symm.trans ht)
  | illegal _ _ _ _ h' => exact illegalWord_keepsConfig (s := s.answered .done) (h'.symm.trans ht)

/-- Settles O42. -/
theorem configurationIsLockedOutsideIdle : Obligations.ConfigurationIsLockedOutsideIdle := by
  intro s t hs hreset ht
  cases hp : s.pending with
  | nil =>
    obtain rfl := Host.Outcome.next.inj ((step_nil hp).symm.trans ht)
    exact s.keepsConfig_refl
  | cons a rest =>
    exact access_keepsConfig (s := s.begin rest) hs (fun ha => hreset rest (ha ▸ hp)) ((step_cons hp).symm.trans ht)

end Sys2Proof.Machine
end

section
/-! PROOF. Progress and termination (44_control R148 (b), (c); 42_encoder R104; 43_decoder R125), over the frame
commands alone and over every step of the machine. -/

namespace Sys2Proof.Machine

-- An encode, frame after frame.

theorem State.encReady.withFb {s : State} (h : s.encReady) (m : Memory Nat) : (s.withFb m).encReady :=
  ⟨h.state, h.eligible, h.sampleBits, h.buffer, h.position⟩

theorem State.encReady.afterEncFrame {s : State} (h : s.encReady) (fb : Memory Nat) : (s.afterEncFrame fb).encReady :=
  ⟨h.state, h.eligible, h.sampleBits, h.buffer,
    (State.afterEncFrame_bidx h.position fb).trans_le (State.bidx_add_nextBytes_le h.position)⟩

/-- A run of ENC_FRAMEs over any frames: each moves BIDX by 16 up to the end of the stream, and FIDX by 1. -/
theorem overFrames_encFrame (frames : List (Memory Nat)) {s : State} (h : s.encReady) :
    ∃ t, overFrames .encFrame frames s = .next t ∧ t.encReady ∧ t.hdr = s.hdr ∧
      t.bidx.toNat = min (4 + s.hdr.toNat) (s.bidx.toNat + 16 * frames.length) ∧
      t.fidx = s.fidx + BitVec.ofNat 32 frames.length := by
  induction frames generalizing s with
  | nil => exact ⟨s, rfl, h, rfl, by have := h.position; simp; omega, by simp⟩
  | cons m rest ih =>
    obtain ⟨fb, hrun, -⟩ := exec_encFrame_of_ready (h.withFb m)
    obtain ⟨t, hrest, ht, hhdr, hbidx, hfidx⟩ := ih ((h.withFb m).afterEncFrame fb)
    have hmove : ((s.withFb m).afterEncFrame fb).bidx.toNat = s.bidx.toNat + s.nextBytes :=
      State.afterEncFrame_bidx (h.withFb m).position fb
    have hhdr' : ((s.withFb m).afterEncFrame fb).hdr = s.hdr := rfl
    have hfidx' : ((s.withFb m).afterEncFrame fb).fidx = s.fidx + 1 := rfl
    rw [hmove, hhdr', State.nextBytes] at hbidx
    refine ⟨t, (overFrames_cons rest hrun).trans hrest, ht, hhdr, ?_, ?_⟩
    · rw [hbidx, List.length_cons]
      omega
    · rw [hfidx, hfidx', List.length_cons, Nat.add_comm, BitVec.ofNat_add, BitVec.add_assoc]
      rfl

/-- After the whole stream ENC_FRAME is a pass-through and EOS ends the encode (42_encoder R103, 44_control R142). -/
theorem exec_after_stream {s : State} (hs : s.state = .encActive) (hend : s.bidx.toNat = 4 + s.hdr.toNat) :
    exec .encFrame s = .next { s with fidx := s.fidx + 1 } ∧ exec .eos s = .next { s with state := .encDone } :=
  ⟨encFrameAfterTheStreamOnlyCounts s hs hend, (exec_eos_of_encActive hs).trans (if_pos hend)⟩

-- What a step can do to an operation in progress, beside its frame command.

/-- STATE is none of those in which an operation still has frames to come. -/
def Ctl.atRest (st : Ctl) : Prop := st ≠ .encActive ∧ st ≠ .decHeader ∧ st ≠ .decPayload

theorem State.framesLeft_of_atRest {s : State} (h : s.state.atRest) : s.framesLeft = 0 := by
  obtain ⟨he, hh, hp⟩ := h
  unfold State.framesLeft
  cases hs : s.state with
  | encActive => exact absurd hs he
  | decHeader => exact absurd hs hh
  | decPayload => exact absurd hs hp
  | idle | encDone | decDone | error => rfl

/-- The operation in progress and its frame command. -/
def Ctl.runs (st : Ctl) (i : Instr) : Prop :=
  (st = .encActive ∧ i = .encFrame) ∨ ((st = .decHeader ∨ st = .decPayload) ∧ i = .decFrame)

/-- A command that is not the frame command of the operation in progress changes nothing, or ends the operation. -/
theorem exec_beside {s : State} {i : Instr} (hs : ¬ s.state.atRest) (hi : ¬ s.state.runs i) :
    exec i s = .next s ∨ ∃ t, exec i s = .next t ∧ t.state.atRest := by
  have hidle : s.state ≠ .idle := fun e => hs (by simp [Ctl.atRest, e])
  cases exec_effect s i with
  | ignored _ _ h' | nothing _ _ h' => exact .inl h'
  | illegal _ _ h' | raised _ _ _ _ _ _ _ h' => exact .inr ⟨_, h', by simp [Ctl.atRest]⟩
  | cleared _ h' | encodeEnded _ _ _ h' => exact .inr ⟨_, h', by simp [Ctl.atRest]⟩
  | queried _ h _ | planned _ h _ | encodeStarted _ h _ _ _ | decodeStarted _ h _ _ => exact absurd h hidle
  | embedded hi' h _ => exact absurd (.inl ⟨h, hi'⟩) hi
  | extracted hi' h _ => exact absurd (.inr ⟨h, hi'⟩) hi

/-- Every step of an operation in progress runs its frame command, leaves it undisturbed, or ends it. -/
theorem step_during {s : State} (hs : ¬ s.state.atRest) :
    (∃ i rest, s.state.runs i ∧ s.nextCommand = some i ∧ step s = exec i ((s.begin rest).answered .done)) ∨
      ((∀ i, s.state.runs i → s.nextCommand ≠ some i) ∧
        ∃ t, step s = .next t ∧ (s.undisturbed t ∨ t.state.atRest)) := by
  rcases step_cases s with ⟨i, rest, hcmd, hstep⟩ | ⟨hnone, hother⟩
  · by_cases hi : s.state.runs i
    · exact .inl ⟨i, rest, hi, hcmd, hstep⟩
    · refine .inr ⟨fun j hj hcmd' => hi (Option.some.inj (hcmd.symm.trans hcmd') ▸ hj), ?_⟩
      rcases exec_beside (s := (s.begin rest).answered .done) hs hi with hrun | ⟨t, hrun, ht⟩
      · exact ⟨_, hstep.trans hrun, .inl (s.undisturbed_begin_answered rest .done)⟩
      · exact ⟨t, hstep.trans hrun, .inr ht⟩
  · refine .inr ⟨fun j _ => by simp [hnone], ?_⟩
    rcases hother with ⟨rest, hstep⟩ | ⟨rest, -, hstep⟩ | ⟨t, hstep, ht⟩
    · by_cases herr : s.state = .error
      · exact absurd (by simp [Ctl.atRest, herr]) hs
      · refine ⟨_, hstep.trans (illegalWord_of_ne_error herr), .inr ?_⟩
        simp [Ctl.atRest]
    · exact ⟨_, hstep, .inr (by simp [Ctl.atRest])⟩
    · exact ⟨t, hstep, .inl ht⟩

-- An encode, step after step.

/-- The frames left of an encode in progress go down by one with each ENC_FRAME. -/
theorem step_encoding {s : State} (h : s.encodeSound) (hs : s.state = .encActive) :
    ∃ t, step s = .next t ∧ (t.state = .encActive →
      t.encodeSound ∧ t.framesLeft = s.framesLeft - if s.nextCommand = some .encFrame then 1 else 0) := by
  have hactive : ¬ s.state.atRest := fun hrest => hrest.1 hs
  rcases step_during hactive with ⟨i, rest, hi, hcmd, hstep⟩ | ⟨hne, t, hstep, ht⟩
  · obtain rfl : i = .encFrame := by simpa [Ctl.runs, hs] using hi
    have h1 : ((s.begin rest).answered .done).encodeSound := ⟨h.eligible, h.position, h.buffer⟩
    obtain ⟨t, hrun, hsound, -, -, hleft⟩ := execEncFrame_progress h1 hs
    exact ⟨t, hstep.trans hrun, fun _ => ⟨hsound, by rw [if_pos hcmd]; exact hleft⟩⟩
  · refine ⟨t, hstep, fun hte => ?_⟩
    rcases ht with ht | ht
    · rw [if_neg (hne .encFrame (.inl ⟨hs, rfl⟩)), ht.framesLeft]
      exact ⟨h.of_undisturbed (by simp [hs]) ht, rfl⟩
    · exact absurd hte ht.1

/-- While STATE is ENC_ACTIVE the ENC_FRAMEs executed are the frames used up. -/
theorem countWhile_encoding (steps : Nat) {s : State} (h : s.encodeSound) (hs : s.state = .encActive)
    (hu : (countWhile isEncoding .encFrame steps s).2.state = .encActive) :
    (countWhile isEncoding .encFrame steps s).2.encodeSound ∧
      (countWhile isEncoding .encFrame steps s).2.framesLeft =
        s.framesLeft - (countWhile isEncoding .encFrame steps s).1 := by
  induction steps generalizing s with
  | zero => exact ⟨h, rfl⟩
  | succ steps ih =>
    obtain ⟨t, hstep, ht⟩ := step_encoding h hs
    rw [countWhile_succ _ _ (by simp [isEncoding, hs]) hstep] at hu ⊢
    by_cases hte : t.state = .encActive
    · obtain ⟨hsound, hleft⟩ := ht hte
      obtain ⟨hsound', hleft'⟩ := ih hsound hte hu
      exact ⟨hsound', by rw [hleft', hleft, Nat.sub_sub]⟩
    · rw [countWhile_of_inactive _ _ (by simpa [isEncoding] using hte)] at hu
      exact absurd hu hte

/-- An encode is entered only from ENC_START with its checks passed, at the start of the stream. -/
theorem exec_encStart_sound {s t : State} (ht : exec .encStart s = .next t) (hs : t.state = .encActive) :
    t.encodeSound ∧ t.bidx.toNat = 0 := by
  have hnext {u : State} (hu : exec .encStart s = .next u) : u = t := Host.Outcome.next.inj (hu.symm.trans ht)
  cases exec_effect s .encStart with
  | ignored herr _ h' =>
    obtain rfl := hnext h'
    simp [hs] at herr
  | nothing _ hc h' =>
    obtain rfl := hnext h'
    simp [hs, transition] at hc
  | illegal _ _ h' | raised _ _ _ _ _ _ _ h' =>
    obtain rfl := hnext h'
    simp at hs
  | encodeStarted _ _ he hb h' =>
    obtain rfl := hnext h'
    exact ⟨⟨he, Nat.zero_le _, hb⟩, rfl⟩
  | cleared hi _ | queried hi _ _ | planned hi _ _ | decodeStarted hi _ _ _ | embedded hi _ _ | extracted hi _ _
  | encodeEnded hi _ _ _ => cases hi

theorem framesOf_eq_zero {n : Nat} (h : framesOf n = 0) : n = 0 := by
  rw [framesOf_eq] at h
  omega

/-- R148 (c) over the steps of the machine. -/
theorem encodeReachesItsEnd : EncodeReachesItsEnd := by
  intro s t steps n u hcmd hstep hcount hu hn
  rcases step_cases s with ⟨i, rest, hcmd', hexec⟩ | ⟨hnone, -⟩
  · obtain rfl : i = .encStart := Option.some.inj (hcmd'.symm.trans hcmd)
    have hrun : exec .encStart ((s.begin rest).answered .done) = .next t := hexec.symm.trans hstep
    have ht : t.state = .encActive := by
      by_contra hne
      rw [countWhile_of_inactive _ _ (by simpa [isEncoding] using hne)] at hcount
      exact hne ((Prod.mk.inj hcount).2 ▸ hu)
    obtain ⟨hsound, hzero⟩ := exec_encStart_sound hrun ht
    obtain ⟨hsound', hleft⟩ := countWhile_encoding steps hsound ht (by rw [hcount]; exact hu)
    rw [hcount] at hsound' hleft
    have hleft0 : t.framesLeft = framesOf t.total := by rw [State.framesLeft, ht, hzero, Nat.sub_zero]
    have hdone : framesOf (u.total - u.bidx.toNat) = 0 := by
      have : u.framesLeft = framesOf (u.total - u.bidx.toNat) := by rw [State.framesLeft, hu]
      rw [← this]
      simp only [hleft, hleft0]
      omega
    have hpos := hsound'.position
    exact exec_after_stream hu (u.total_eq ▸ by have := framesOf_eq_zero hdone; simp only at hpos; omega)
  · simp [hcmd] at hnone

/-- Settles O56. -/
theorem encodeReachesTheEndOfTheStream : Obligations.EncodeReachesTheEndOfTheStream := by
  refine ⟨fun s frames h hs => ?_, encodeReachesItsEnd⟩
  obtain ⟨t, hrun, ht, hhdr, hbidx, hfidx⟩ := overFrames_encFrame frames (h.encReady hs)
  exact ⟨t, hrun, ht.state, hhdr, hbidx, hfidx, fun hn => exec_after_stream ht.state (by rw [hbidx, hhdr]; omega)⟩

end Sys2Proof.Machine
end

section
/-! PROOF. A decode ends (44_control R148 (b), 43_decoder R125): frame after frame, and step after step. -/

namespace Sys2Proof.Machine

-- A decode, frame after frame.

/-- A decode in progress whose FIDX counts its frames (10_state R31 items 3 and 4). -/
def State.decReady (s : State) : Prop :=
  (s.headerReady ∧ s.fidx = 0) ∨ (s.payloadReady ∧ s.bidx.toNat = 16 * s.fidx.toNat)

/-- The end of a decode: an error, or DEC_DONE with FIDX the frames of the stream. -/
def State.decEnded (s : State) : Prop :=
  s.state = .error ∨ (s.state = .decDone ∧ s.fidx.toNat = (4 + s.hdr.toNat + 15) / 16)

theorem State.decReady_of_inv {s : State} (h : s.Inv) (hs : s.state = .decHeader ∨ s.state = .decPayload) :
    s.decReady := by
  rcases hs with hs | hs
  · exact .inl ⟨h.headerReady hs, (h.decHeader hs).2.1⟩
  · exact .inr ⟨h.payloadReady hs, (h.decPayload hs).2.2⟩

theorem State.decReady.withFb {s : State} (h : s.decReady) (m : Memory Nat) : (s.withFb m).decReady := by
  rcases h with ⟨h, hf⟩ | ⟨h, hf⟩
  · exact .inl ⟨⟨h.state, h.eligible, h.bidx, h.hdr⟩, hf⟩
  · exact .inr ⟨⟨h.state, h.eligible, h.afterHeader, h.position, h.buffer⟩, hf⟩

theorem State.decReady.decodeSound {s : State} (h : s.decReady) : s.decodeSound := by
  rcases h with ⟨h, -⟩ | ⟨h, -⟩
  · exact ⟨h.eligible, fun _ => ⟨h.bidx, h.hdr⟩, fun e => absurd (h.state.symm.trans e) nofun⟩
  · exact ⟨h.eligible, fun e => absurd (h.state.symm.trans e) nofun, fun _ => ⟨h.afterHeader, h.position, h.buffer⟩⟩

theorem State.decReady.isDecoding {s : State} (h : s.decReady) : isDecoding s.state = true := by
  rcases h with ⟨h, -⟩ | ⟨h, -⟩ <;> simp [Machine.isDecoding, h.state]

/-- A frame of a decode either ends it or leaves it ready for the next, by what the frame left in the registers. -/
theorem State.decEnded_or_decReady {t : State} (he : t.eligible = true) (hb : t.hdr.toNat ≤ t.params.pbufBytes)
    (hst : t.state = if t.bidx.toNat = 4 + t.hdr.toNat then .decDone else .decPayload)
    (hbidx : t.bidx.toNat = min (16 * t.fidx.toNat) (4 + t.hdr.toNat)) (hlt : 16 * t.fidx.toNat < 4 + t.hdr.toNat + 16)
    (hpos : 1 ≤ t.fidx.toNat) : t.decEnded ∨ t.decReady := by
  by_cases hend : t.bidx.toNat = 4 + t.hdr.toNat
  · exact .inl (.inr ⟨hst.trans (if_pos hend), by omega⟩)
  · exact .inr (.inr ⟨⟨hst.trans (if_neg hend), he, by omega, by omega, hb⟩, by omega⟩)

theorem exec_decFrame_keeps_eligible {s t : State} (h : exec .decFrame s = .next t) :
    t.eligible = s.eligible ∧ t.params = s.params := by
  have hframe := exec_decFrame_frame h
  exact ⟨State.eligible_congr (by rw [hframe]) (by rw [hframe]) (by rw [hframe]), by rw [hframe]⟩

theorem exec_decFrame_of_decReady {s : State} (h : s.decReady) :
    ∃ t, exec .decFrame s = .next t ∧ t.framesLeft + 1 ≤ s.framesLeft ∧ (t.decEnded ∨ t.decReady) := by
  obtain ⟨t, hrun, -, hleft⟩ := execDecFrame_progress h.decodeSound h.isDecoding
  replace hrun : exec .decFrame s = .next t := hrun
  refine ⟨t, hrun, hleft, ?_⟩
  obtain ⟨he, hparams⟩ := exec_decFrame_keeps_eligible hrun
  rcases h with ⟨h, hf⟩ | ⟨h, hf⟩
  · by_cases hfits : s.slotLength ≤ s.params.pbufBytes
    · obtain ⟨pb, hnext, -⟩ := exec_decFrame_within_buffer h hfits
      have hst := s.afterHeaderFrame_state pb
      have hbidx := s.afterHeaderFrame_bidx_toNat pb
      have hhdr := s.afterHeaderFrame_hdr_toNat pb
      have hfidx : (s.afterHeaderFrame pb).fidx.toNat = 1 := by rw [s.afterHeaderFrame_fidx pb, hf]; rfl
      rw [← Host.Outcome.next.inj (hrun.symm.trans hnext)] at hst hbidx hhdr hfidx
      rw [State.headerBytes] at hbidx
      have hend : 4 + s.slotLength ≤ 16 ↔ t.bidx.toNat = 4 + t.hdr.toNat := by omega
      refine State.decEnded_or_decReady (he.trans h.eligible) (by rw [hhdr, hparams]; exact hfits) ?_ (by omega)
        (by omega) hfidx.ge
      rw [hst]
      exact if_congr hend rfl rfl
    · obtain rfl := Host.Outcome.next.inj (hrun.symm.trans (exec_decFrame_over_buffer h (Nat.lt_of_not_le hfits)))
      exact .inl (.inl rfl)
  · obtain ⟨pb, hnext, -⟩ := exec_decFrame_of_payloadReady h
    have hst := s.afterPayloadFrame_state pb
    have hpos := h.position
    have hbidx : (s.afterPayloadFrame pb).bidx.toNat = s.bidx.toNat + s.nextBytes :=
      State.bidx_add_nextBytes_toNat hpos.le
    have hhdr : (s.afterPayloadFrame pb).hdr = s.hdr := rfl
    have hfidx : (s.afterPayloadFrame pb).fidx.toNat = s.fidx.toNat + 1 :=
      State.Inv.fidx_succ s.fidx (by omega) s.hdr.isLt
    rw [← Host.Outcome.next.inj (hrun.symm.trans hnext)] at hst hbidx hhdr hfidx
    have hn : s.nextBytes = min 16 (4 + s.hdr.toNat - s.bidx.toNat) := rfl
    exact State.decEnded_or_decReady (he.trans h.eligible) (by rw [hhdr, hparams]; exact h.buffer)
      (by rw [hst, hbidx, hhdr]) (by rw [hbidx, hfidx, hhdr]; omega) (by rw [hfidx, hhdr]; omega)
      (by rw [hfidx]; omega)

/-- A decode ends within the frames left. -/
theorem overFrames_decFrame (frames : List (Memory Nat)) {s : State} (h : s.decReady)
    (hlen : s.framesLeft ≤ frames.length) :
    ∃ m t, m ≤ s.framesLeft ∧ overFrames .decFrame (frames.take m) s = .next t ∧ t.decEnded := by
  induction frames generalizing s with
  | nil =>
    obtain ⟨t, -, hleft, -⟩ := exec_decFrame_of_decReady h
    simp only [List.length_nil] at hlen
    omega
  | cons m rest ih =>
    obtain ⟨t, hrun, hleft, hend⟩ := exec_decFrame_of_decReady (h.withFb m)
    replace hleft : t.framesLeft + 1 ≤ s.framesLeft := hleft
    rw [List.length_cons] at hlen
    rcases hend with hend | hready
    · exact ⟨1, t, by omega, overFrames_cons [] hrun, hend⟩
    · obtain ⟨j, u, hj, hrest, hu⟩ := ih hready (by omega)
      exact ⟨j + 1, u, by omega, by rw [List.take_succ_cons, overFrames_cons _ hrun, hrest], hu⟩

-- A decode, step after step.

/-- Every step of a decode in progress uses up the DEC_FRAME it runs. -/
theorem step_decoding {s : State} (h : s.decodeSound) (hs : isDecoding s.state = true) :
    ∃ t, step s = .next t ∧ (isDecoding t.state = true → t.decodeSound) ∧
      t.framesLeft + (if s.nextCommand = some .decFrame then 1 else 0) ≤ s.framesLeft := by
  have hst : s.state = .decHeader ∨ s.state = .decPayload := by simpa [isDecoding] using hs
  have hidle : s.state ≠ .idle := by rcases hst with hst | hst <;> simp [hst]
  have hactive : ¬ s.state.atRest := fun hrest => hst.elim hrest.2.1 hrest.2.2
  rcases step_during hactive with ⟨i, rest, hi, hcmd, hstep⟩ | ⟨hne, t, hstep, ht⟩
  · obtain rfl : i = .decFrame := by rcases hst with hst | hst <;> simpa [Ctl.runs, hst] using hi
    have h1 : ((s.begin rest).answered .done).decodeSound := ⟨h.eligible, h.header, h.payload⟩
    obtain ⟨t, hrun, hsound, hleft⟩ := execDecFrame_progress h1 hs
    exact ⟨t, hstep.trans hrun, fun _ => hsound, by rw [if_pos hcmd]; exact hleft⟩
  · rw [if_neg (hne .decFrame (.inr ⟨hst, rfl⟩))]
    rcases ht with ht | ht
    · exact ⟨t, hstep, fun _ => h.of_undisturbed hidle ht, ht.framesLeft.le⟩
    · refine ⟨t, hstep, fun hd => ?_, by rw [State.framesLeft_of_atRest ht]; exact Nat.zero_le _⟩
      obtain ⟨-, hh, hp⟩ := ht
      exact absurd (by simpa [isDecoding] using hd) (not_or.2 ⟨hh, hp⟩)

/-- A run executes no more DEC_FRAMEs of a decode than it has left. -/
theorem countWhile_decoding (steps : Nat) {s : State} (h : isDecoding s.state = true → s.decodeSound) :
    (countWhile isDecoding .decFrame steps s).1 ≤ s.framesLeft := by
  induction steps generalizing s with
  | zero => exact Nat.zero_le _
  | succ steps ih =>
    cases hs : isDecoding s.state with
    | false =>
      rw [countWhile_of_inactive _ _ hs]
      exact Nat.zero_le _
    | true =>
      obtain ⟨t, hstep, hsound, hleft⟩ := step_decoding (h hs) hs
      rw [countWhile_succ _ _ hs hstep]
      have := ih hsound
      simp only
      omega

/-- No state has more frames left than the bound (43_decoder R125). -/
theorem State.framesLeft_le (s : State) : s.framesLeft ≤ decFrameBound := by
  have hrest : framesOf (s.total - s.bidx.toNat) ≤ decFrameBound := by
    have := s.hdr.isLt
    rw [framesOf_eq, State.total_eq, decFrameBound, framesOf_eq, show Config.headerBytes = 4 from rfl]
    omega
  unfold State.framesLeft
  cases s.state with
  | encActive | decPayload => exact hrest
  | decHeader => exact le_refl _
  | idle | encDone | decDone | error => exact Nat.zero_le _

/-- A decode is entered only from DEC_START with its check passed, before the header. -/
theorem exec_decStart_sound {s t : State} (ht : exec .decStart s = .next t) (hs : isDecoding t.state = true) :
    t.decodeSound := by
  have hnext {u : State} (hu : exec .decStart s = .next u) : u = t := Host.Outcome.next.inj (hu.symm.trans ht)
  have hst : t.state = .decHeader ∨ t.state = .decPayload := by simpa [isDecoding] using hs
  cases exec_effect s .decStart with
  | ignored herr _ h' =>
    obtain rfl := hnext h'
    simp [herr] at hst
  | nothing _ hc h' =>
    obtain rfl := hnext h'
    rcases hst with hst | hst <;> simp [hst, transition] at hc
  | illegal _ _ h' | raised _ _ _ _ _ _ _ h' =>
    obtain rfl := hnext h'
    simp at hst
  | decodeStarted _ _ he h' =>
    obtain rfl := hnext h'
    exact ⟨he, fun _ => ⟨rfl, rfl⟩, nofun⟩
  | cleared hi _ | queried hi _ _ | planned hi _ _ | encodeStarted hi _ _ _ _ | embedded hi _ _ | extracted hi _ _
  | encodeEnded hi _ _ _ => cases hi

/-- R148 (b) over the steps of the machine. -/
theorem decodeIsBounded : DecodeIsBounded := by
  intro s t steps hcmd hstep
  rcases step_cases s with ⟨i, rest, hcmd', hexec⟩ | ⟨hnone, -⟩
  · obtain rfl : i = .decStart := Option.some.inj (hcmd'.symm.trans hcmd)
    have hrun : exec .decStart ((s.begin rest).answered .done) = .next t := hexec.symm.trans hstep
    exact (countWhile_decoding steps (exec_decStart_sound hrun)).trans t.framesLeft_le
  · simp [hcmd] at hnone

theorem decFrameBound_eq : decFrameBound = 2 ^ 28 + 1 := by decide

/-- Settles O57. -/
theorem decodeTerminates : Obligations.DecodeTerminates := by
  refine ⟨fun s frames h hs hlen => ?_, decFrameBound_eq, decodeIsBounded⟩
  have hbound := decFrameBound_eq ▸ s.framesLeft_le
  obtain ⟨m, t, hm, hrun, hend⟩ := overFrames_decFrame frames (State.decReady_of_inv h hs) (hbound.trans hlen)
  exact ⟨m, t, hm.trans hbound, hrun, hend⟩

end Sys2Proof.Machine
end

section
/-! PROOF. The round trip over whole frames: Decode of Encode is the payload (43_decoder R128). -/

namespace Sys2Proof.Machine

/-- Lane `i` of stream byte `k`: where its bit lies (40_slot_addresser R83). -/
theorem streamBit_lane (g : Geometry) (source : List Frame) (k : Nat) {i : Nat} (hi : i < 8) :
    streamBit g source (8 * k + i) =
      g.sample (source.getD (k / 16) []) ((g.height - 2) + k % 16 / 8) (8 * (k % 8) + i) 0 % 2 := by
  rw [streamBit, show (8 * k + i) / 128 = k / 16 by omega, show (8 * k + i) % 128 / 64 = k % 16 / 8 by omega,
    show (8 * k + i) % 64 = 8 * (k % 8) + i by omega]

/-- Where the LSBs of a slot are the bits of a byte, MSB first, the carrier spells the byte. -/
theorem carrierByte_eq {g : Geometry} {source : List Frame} {k : Nat} {b : Byte}
    (h : ∀ i < 8, streamBit g source (8 * k + i) = laneBit b i) : carrierByte g source k = b := by
  refine byte_ext fun i hi => ?_
  rw [carrierByte_getLsbD g source k hi, h i hi, laneBit_eq]
  cases b.getLsbD (7 - i) <;> rfl

/-- The location of a lane lies inside a frame of an eligible geometry (40_slot_addresser R81). -/
theorem Geometry.lane_lt {g : Geometry} (hg : g.ok = true) (k : Nat) {i : Nat} (hi : i < 8) :
    (g.height - 2) + k % 16 / 8 < g.height ∧ 8 * (k % 8) + i < g.width ∧ 0 < g.channels := by
  obtain ⟨⟨hw, -⟩, ⟨hh, -⟩, hc, -⟩ := g.ok_iff.1 hg
  omega

/-- The location of a lane holds the bit of the lane (40_slot_addresser R84). -/
theorem slotInverse_lane {H : Nat} (hH : 2 ≤ H) (k : Nat) {i : Nat} (hi : i < 8) :
    slotInverse (k / 16) H ((H - 2) + k % 16 / 8) (8 * (k % 8) + i) 0 = some (k, 7 - i) :=
  slotInverse_eq_some.2 ⟨by omega, by omega, by omega⟩

/-- What Encode leaves in bit 0 of a lane: the lane's bit of the stream byte (42_encoder R106). -/
theorem embedSample_lane {g : Geometry} (hg : g.ok = true) {stream : List Byte} {k i : Nat} (hk : k < stream.length)
    (hi : i < 8) (v : Nat) :
    embedSample g stream (k / 16) ((g.height - 2) + k % 16 / 8) (8 * (k % 8) + i) 0 v =
      withLsb v (laneBit (stream.getD k 0) i) := by
  obtain ⟨-, ⟨hh, -⟩, -⟩ := g.ok_iff.1 hg
  rw [embedSample, slotInverse_lane hh k hi, laneBit_eq]
  exact if_pos hk

/-- The carrier of an encode spells the stream. -/
theorem carrierByte_encodeRef {g : Geometry} (hg : g.ok = true) {source : List Frame} {payload : List Byte} {k : Nat}
    (hsource : ∀ f ∈ source, f.length = g.samples) (hframe : k < 16 * source.length) (hk : k < 4 + payload.length) :
    carrierByte g (encodeRef g source payload) k = (streamOf payload).getD k 0 := by
  refine carrierByte_eq fun i hi => ?_
  have hf : k / 16 < source.length := by omega
  have hlen : (source.getD (k / 16) []).length = g.samples := by
    rw [List.getD_eq_getElem _ _ hf]
    exact hsource _ (List.getElem_mem hf)
  obtain ⟨hr, hc, hch⟩ := Geometry.lane_lt hg k hi
  rw [streamBit_lane g _ k hi, encodeRef_getD payload hf, sample_embedInto _ _ hlen hr hc hch,
    embedSample_lane hg (by rwa [streamOf_length]) hi, withLsb_mod_two, Nat.mod_eq_of_lt (laneBit_lt _ _)]

/-- The carrier of an encode declares the length of the payload (30_encoding R68). -/
theorem declaredLength_encodeRef {g : Geometry} (hg : g.ok = true) {source : List Frame} {payload : List Byte}
    (hsource : ∀ f ∈ source, f.length = g.samples) (hlen : payload.length < 2 ^ 32)
    (hfit : 4 + payload.length ≤ 16 * source.length) :
    declaredLength g (encodeRef g source payload) = payload.length := by
  have hbyte {k : Nat} (hk : k < 4) :
      carrierByte g (encodeRef g source payload) k = headerByte (BitVec.ofNat 32 payload.length) k := by
    rw [carrierByte_encodeRef hg hsource (by omega) (by omega), streamOf_getD, if_pos hk]
  rw [declaredLength, hbyte (by decide), hbyte (by decide), hbyte (by decide), hbyte (by decide), headerByte_sum,
    BitVec.toNat_ofNat, Nat.mod_eq_of_lt hlen]

/-- Decode where the declared length fits the buffer and the frames. -/
theorem decodeRef_of_fits {g : Geometry} {pbufBytes : Nat} {source : List Frame}
    (hb : declaredLength g source ≤ pbufBytes) (hcap : 4 + declaredLength g source ≤ 16 * source.length) :
    decodeRef g pbufBytes source =
      .ok ((List.range (declaredLength g source)).map fun j => carrierByte g source (4 + j)) := by
  have hcap' : ¬ capacity source.length < Config.headerBytes + declaredLength g source := Nat.not_lt.2 hcap
  rw [decodeRef, if_neg (by omega), if_neg (Nat.not_lt.2 hb), if_neg hcap']

/-- Settles O58. -/
theorem decodeOfEncodeIsThePayload : Obligations.DecodeOfEncodeIsThePayload := by
  intro g source payload pbufBytes hg hsource hlen hfit hb
  have hdeclared := declaredLength_encodeRef hg hsource hlen hfit
  rw [decodeRef_of_fits (by rwa [hdeclared]) (by rwa [hdeclared, encodeRef_length]), hdeclared]
  congr 1
  refine List.ext_getElem (by simp) fun j hj hj' => ?_
  rw [List.getElem_map, List.getElem_range, carrierByte_encodeRef hg hsource (by omega) (by omega), streamOf_getD,
    if_neg (by omega), Nat.add_sub_cancel_left, List.getD_eq_getElem _ _ hj']

end Sys2Proof.Machine
end

section
/-! PROOF. The host procedure ENCODE computes Encode (42_encoder R106, 44_control R146): the frame loop, the request,
and its end. -/

namespace Sys2Proof.Machine

-- Host accesses between the commands.

/-- The state with other samples, another answer and another record: what loads and reads of frames change. -/
def State.withPort (s : State) (m : Memory Nat) (ans : Option PortAnswer) (acc : List CoreAccess) : State :=
  { s with fb := m, answer := ans, accesses := acc }

/-- The state in which a command runs that the host gives next. -/
def State.told (s : State) : State := s.withPort s.fb (some .done) []

theorem tell_cmd_told (i : Instr) (s : State) : tell (cmd i) s = exec i s.told := tell_cmd i s

theorem tellAll_singleton (a : HostAccess) (s : State) : tellAll [a] s = tell a s := by
  rw [tellAll]
  cases tell a s <;> rfl

/-- A command and the CLEAR after it lead to IDLE (44_control R146, R147). -/
theorem tellAll_clear {i : Instr} {s t : State} (h : exec i s.told = .next t) :
    tellAll [cmd i, cmd .clear] s = .next t.told.toIdle := by
  rw [tellAll, tell_cmd_told, h]
  exact (tellAll_singleton _ _).trans (tell_cmd_told _ _)

/-- A frame of the shape `g` with samples of so many bits. -/
def Geometry.holds (g : Geometry) (bits : Nat) (frame : Frame) : Prop :=
  frame.length = g.samples ∧ ∀ v ∈ frame, v < 2 ^ bits

/-- The samples of FB are a frame where they agree with it at every location. -/
theorem State.samplesOf_eq {s : State} {g : Geometry} {frame : Frame} (hlen : frame.length = g.samples)
    (h : ∀ row col ch, row < g.height → col < g.width → ch < g.channels →
      s.sampleAt row col ch = g.sample frame row col ch) : s.samplesOf g = frame := by
  refine List.ext_getElem (by simp [State.samplesOf, hlen]) fun idx h1 h2 => ?_
  obtain ⟨hr, hc, hch, hidx⟩ := Geometry.location_of_index (hlen ▸ h2)
  simp only [State.samplesOf, List.getElem_map, List.getElem_range]
  rw [h _ _ _ hr hc hch, Geometry.sample, hidx, List.getD_eq_getElem _ _ h2]

-- The frame loop.

section

/-- An encode of `payload` on frames of shape `g`, after `n` of them. -/
structure State.encodes (s : State) (g : Geometry) (payload : List Byte) (n : Nat) : Prop where
  ready : s.encReady
  shape : s.hasGeometry g
  length : s.hdr.toNat = payload.length
  position : s.bidx.toNat = min (4 + payload.length) (16 * n)
  stream : ∀ k < 4 + payload.length, s.streamByte k = (streamOf payload).getD k 0

variable {s : State} {g : Geometry} {payload : List Byte} {n : Nat}

theorem State.encodes.withPort (h : s.encodes g payload n) (m : Memory Nat) (ans : Option PortAnswer)
    (acc : List CoreAccess) : (s.withPort m ans acc).encodes g payload n :=
  ⟨⟨h.ready.state, h.ready.eligible, h.ready.sampleBits, h.ready.buffer, h.ready.position⟩, h.shape, h.length,
    h.position, fun k hk => (State.streamByte_congr rfl rfl k).trans (h.stream k hk)⟩

theorem State.encodes.afterEncFrame (h : s.encodes g payload n) (fb : Memory Nat) :
    (s.afterEncFrame fb).encodes g payload (n + 1) := by
  refine ⟨h.ready.afterEncFrame fb, h.shape, h.length, ?_, fun k hk =>
    (State.streamByte_congr rfl rfl k).trans (h.stream k hk)⟩
  rw [State.afterEncFrame_bidx h.ready.position, State.nextBytes, h.length, h.position]
  omega

/-- The bytes of this frame are those that the loop embeds, wherever they lie in the stream. -/
theorem State.encodes.embedded (h : s.encodes g payload n) {k : Nat} (hframe : k / 16 = n) :
    (s.bidx.toNat ≤ k ∧ k < s.bidx.toNat + s.nextBytes) ↔ k < 4 + payload.length := by
  rw [State.nextBytes, h.length, h.position]
  omega

/-- ENC_FRAME does to every sample of FB what Encode does to it (42_encoder R106). -/
theorem State.encodes.sampleAt (h : s.encodes g payload n) {fb : Memory Nat}
    (hembed : s.embedsInto s.bidx.toNat s.nextBytes fb) {row col ch : Nat} (hr : row < g.height) (hc : col < g.width)
    (hch : ch < g.channels) :
    (s.withFb fb).sampleAt row col ch = embedSample g (streamOf payload) n row col ch (s.sampleAt row col ch) := by
  obtain ⟨hheight, hwidth, hchannels⟩ := h.shape
  have hH := (s.eligible_iff.1 h.ready.eligible).2.1
  have hx : s.pixExists row col ch = true := (s.pixExists_iff _ _ _).2 (by omega)
  cases hinv : slotInverse n g.height row col ch with
  | none =>
    rw [embedSample, hinv]
    refine hembed.others row col ch hx fun j i _ _ hi hit => ?_
    have hsome : (slotInverse n g.height row col ch).isSome = true := slotInverse_isSome.2 (by omega)
    simp [hinv] at hsome
  | some p =>
    obtain ⟨k, b⟩ := p
    obtain ⟨⟨hch0, hlo, hhi, hcol⟩, hk, hb⟩ := slotInverse_eq_some.1 hinv
    have hframe : k / 16 = n := by omega
    have hloc : row = (g.height - 2) + k % 16 / 8 ∧ col = 8 * (k % 8) + col % 8 := by omega
    simp only [embedSample, hinv, streamOf_length]
    by_cases hin : k < 4 + payload.length
    · have hlane := hembed.lanes k (col % 8) ((h.embedded hframe).2 hin).1 ((h.embedded hframe).2 hin).2 (by omega)
      rw [hheight, ← hloc.1, ← hloc.2, laneBit_eq, h.stream k hin, ← hb, ← hch0] at hlane
      rw [if_pos hin, hlane]
    · rw [if_neg hin]
      refine hembed.others row col ch hx fun j i hj hj' hi hit => hin ?_
      have hjk : j % 16 = k % 16 := by omega
      have hpos := h.position
      have hnext : s.nextBytes = min 16 (4 + s.hdr.toNat - s.bidx.toNat) := rfl
      have hlen := h.length
      omega

/-- One pass of the frame loop hands the encoded frame to the sink (44_control R146). -/
theorem encodeFrames_some {frame : Frame} (h : s.encodes g payload n) (hf : g.holds s.params.sampleBits frame) :
    ∃ t : State, t.encodes g payload (n + 1) ∧ t.params = s.params ∧ ∀ rest sink,
      encodeFrames g (some frame :: rest) sink s =
        encodeFrames g rest (sink ++ [embedInto g (streamOf payload) n frame]) t := by
  obtain ⟨hlen, hvals⟩ := hf
  obtain ⟨fb, ans, acc, hload, hloaded⟩ := loadFrame_spec h.shape hlen hvals
  have hu : (s.withPort fb ans acc).told.encodes g payload n := (h.withPort fb ans acc).withPort fb (some .done) []
  set u := (s.withPort fb ans acc).told
  obtain ⟨fb', hrun, hembed⟩ := exec_encFrame_of_ready hu.ready
  have ht := hu.afterEncFrame fb'
  obtain ⟨ans', acc', htake⟩ := takeFrame_spec ht.shape
  have hall : tellAll (loadFrame g frame ++ [cmd .encFrame]) s = .next (u.afterEncFrame fb') := by
    rw [tellAll_append_next hload, tellAll_singleton]
    exact (tell_cmd_told _ _).trans hrun
  have hout : (u.afterEncFrame fb').samplesOf g = embedInto g (streamOf payload) n frame := by
    refine State.samplesOf_eq (by rw [embedInto_length, hlen]) fun row col ch hr hc hch => ?_
    have hin : u.sampleAt row col ch = g.sample frame row col ch :=
      (State.sampleAt_congr (s := s.withFb fb) rfl rfl rfl rfl row col ch).trans (hloaded row col ch hr hc hch)
    rw [sample_embedInto _ _ hlen hr hc hch, ← hin, ← hu.sampleAt hembed hr hc hch]
    exact State.sampleAt_congr rfl rfl rfl rfl row col ch
  refine ⟨(u.afterEncFrame fb').withPort (u.afterEncFrame fb').fb ans' acc', ht.withPort _ _ _, rfl,
    fun rest sink => ?_⟩
  rw [encodeFrames, hall, after_next, htake, hout]
  rfl

/-- The frame loop over frames that can all be read. -/
theorem encodeFrames_append (frames : List Frame) (h : s.encodes g payload n)
    (hf : ∀ f ∈ frames, g.holds s.params.sampleBits f) :
    ∃ t : State, t.encodes g payload (n + frames.length) ∧ ∀ rest sink,
      encodeFrames g (frames.map some ++ rest) sink s =
        encodeFrames g rest (sink ++ frames.mapIdx fun i f => embedInto g (streamOf payload) (n + i) f) t := by
  induction frames generalizing s n with
  | nil => exact ⟨s, h, fun rest sink => by simp⟩
  | cons frame frames ih =>
    obtain ⟨t, ht, hparams, hstep⟩ := encodeFrames_some h (hf frame List.mem_cons_self)
    obtain ⟨u, hu, hrest⟩ := ih ht fun f hmem => hparams ▸ hf f (List.mem_cons_of_mem _ hmem)
    have hlen : n + (frame :: frames).length = n + 1 + frames.length := by
      rw [List.length_cons]
      omega
    refine ⟨u, hlen ▸ hu, fun rest sink => ?_⟩
    rw [List.map_cons, List.cons_append, hstep, hrest, List.append_assoc, List.mapIdx_cons]
    simp only [List.singleton_append, Nat.add_zero, Nat.add_assoc, Nat.add_comm 1]

/-- After the frames: EOS ends the encode, and CLEAR the operation. -/
theorem encodeFrames_nil (h : s.encodes g payload n) (hn : 4 + payload.length ≤ 16 * n) (sink : List Frame) :
    ∃ t : State, encodeFrames g [] sink s = .next ({ error := .none, sink := sink }, t) ∧ t.state = .idle ∧
      t.err = .none := by
  have hend : s.told.bidx.toNat = 4 + s.told.hdr.toNat := by
    have hpos := h.position
    have hlen := h.length
    show s.bidx.toNat = 4 + s.hdr.toNat
    omega
  have hrun := (exec_eos_of_encActive (s := s.told) h.ready.state).trans (if_pos hend)
  exact ⟨_, by rw [encodeFrames, tell_cmd_told, hrun, after_next, unlessError_ok (by simp), tell_cmd_told, exec_clear,
    after_next], rfl, rfl⟩

/-- A frame that cannot be read: SRC_FAIL and CLEAR end the operation. -/
theorem encodeFrames_none (h : s.encodes g payload n) (rest : List (Option Frame)) (sink : List Frame) :
    ∃ t : State, encodeFrames g (none :: rest) sink s = .next ({ error := .sourceUnavailable, sink := sink }, t) ∧
      t.state = .idle ∧ t.err = .none := by
  have hrun := exec_srcFail_of_active (s := s.told) (.inl h.ready.state)
  exact ⟨_, by rw [encodeFrames, tellAll_clear hrun, after_next], rfl, rfl⟩

-- The request.

theorem tell_frameCount {s : State} (hs : s.state = .idle) (v : Word) :
    tell (wr .frameCount v) s = .next { s with frameCount := v, answer := some .done, accesses := [] } := by
  show Host.Outcome.next (hostRegWrite .frameCount v { s with accesses := [] }) = _
  simp only [hostRegWrite, hs, if_true, regStore, State.answered]

theorem tell_plenIn {s : State} (hs : s.state = .idle) (v : Word) :
    tell (wr .plenIn v) s = .next { s with plenIn := v, answer := some .done, accesses := [] } := by
  show Host.Outcome.next (hostRegWrite .plenIn v { s with accesses := [] }) = _
  simp only [hostRegWrite, hs, if_true, regStore, State.answered]

/-- PAYW in IDLE: it changes PBUF only, and a payload that fits is stored. -/
theorem tellAll_payw (payload : List Byte) {s : State} (hs : s.state = .idle) :
    ∃ (pb : Memory Byte) (ans : Option PortAnswer) (acc : List CoreAccess),
      tellAll (payw payload) s = .next { s with pbuf := pb, answer := ans, accesses := acc } ∧
      (payload.length ≤ s.params.pbufBytes →
        ∀ i < payload.length, (s.withPbuf pb).payloadAt i = payload.getD i 0) := by
  by_cases hfits : payload.length ≤ s.params.pbufBytes
  · obtain ⟨pb, ans, acc, hrun, hbytes⟩ := payw_spec hs hfits
    exact ⟨pb, ans, acc, hrun, fun _ => hbytes⟩
  · obtain ⟨pb, ans, acc, hrun⟩ := payw_keeps payload hs
    exact ⟨pb, ans, acc, hrun, fun h => absurd h hfits⟩

/-- The block when ENCODE gives ENC_START: in IDLE, with the request in its registers and the payload in PBUF. -/
structure State.requested (u s : State) (g : Geometry) (count : Nat) (payload : List Byte) : Prop where
  state : u.state = .idle
  width : u.width = BitVec.ofNat 16 g.width
  height : u.height = BitVec.ofNat 16 g.height
  channels : u.channels = BitVec.ofNat 8 g.channels
  frameCount : u.frameCount = BitVec.ofNat 32 count
  plenIn : u.plenIn = BitVec.ofNat 32 payload.length
  params : u.params = s.params
  payload : payload.length ≤ s.params.pbufBytes → ∀ i < payload.length, u.payloadAt i = payload.getD i 0

/-- The accesses of ENCODE before its frame loop amount to ENC_START on the request (44_control R146). -/
theorem tellAll_request (g : Geometry) (count : Nat) (payload : List Byte) {s : State} (hs : s.state = .idle) :
    ∃ u : State, u.requested s g count payload ∧
      tellAll (wrGeometry g ++ [wr .frameCount (BitVec.ofNat 32 count), wr .plenIn (BitVec.ofNat 32 payload.length)] ++
        payw payload ++ [cmd .encStart]) s = exec .encStart u := by
  obtain ⟨fb, ans, acc, hgeometry⟩ := wrGeometry_spec (g := g) hs
  set s1 : State := { s with
    width := BitVec.ofNat 16 g.width, height := BitVec.ofNat 16 g.height, channels := BitVec.ofNat 8 g.channels
    fb := fb, answer := ans, accesses := acc }
  set s2 : State := { s1 with
    frameCount := BitVec.ofNat 32 count, plenIn := BitVec.ofNat 32 payload.length
    answer := some .done, accesses := [] }
  have hregs : tellAll [wr .frameCount (BitVec.ofNat 32 count), wr .plenIn (BitVec.ofNat 32 payload.length)] s1 =
      .next s2 := by
    rw [tellAll, tell_frameCount (s := s1) hs]
    exact (tellAll_singleton _ _).trans (tell_plenIn (by exact hs) _)
  obtain ⟨pb, ans', acc', hpayw, hbytes⟩ := tellAll_payw payload (s := s2) hs
  set s3 : State := { s2 with pbuf := pb, answer := ans', accesses := acc' }
  have hall := (tellAll_append_next ((tellAll_append_next hgeometry).trans hregs)).trans hpayw
  refine ⟨s3.told, ⟨hs, rfl, rfl, rfl, rfl, rfl, rfl, fun hfits i hi => ?_⟩, ?_⟩
  · exact (State.payloadAt_congr rfl i).trans (hbytes hfits i hi)
  · rw [tellAll_append_next hall, tellAll_singleton, tell_cmd_told]

/-- A request that ENC_START turns down ends ENCODE with its error and an empty sink (44_control R146). -/
theorem encodeProc_of_refused {g : Geometry} {frames : List (Option Frame)} {payload : List Byte} {s : State}
    (hs : s.state = .idle) {e : ErrCode}
    (h : ∀ u : State, u.requested s g frames.length payload → exec .encStart u = .next (u.raise e)) :
    ∃ t : State, encodeProc { canOpen := true, geometry := g, frames := frames } payload s =
      .next ({ error := e, sink := [] }, t) ∧ t.state = .idle ∧ t.err = .none := by
  obtain ⟨u, hu, hrun⟩ := tellAll_request g frames.length payload hs
  exact ⟨_, by rw [encodeProc, if_neg (by simp), hrun, h u hu, after_next, unlessError_error (by simp)]; rfl, rfl, rfl⟩

namespace State.requested

variable {u : State} {count : Nat}

theorem hasGeometry (h : u.requested s g count payload) (hg : g.ok = true) : u.hasGeometry g :=
  hasGeometry_of_writes hg h.width h.height h.channels

theorem plenIn_toNat (h : u.requested s g count payload) (hlen : payload.length < 2 ^ 32) :
    u.plenIn.toNat = payload.length := by
  rw [h.plenIn, BitVec.toNat_ofNat, Nat.mod_eq_of_lt hlen]

theorem frameCount_toNat (h : u.requested s g count payload) (hcount : count < 2 ^ 32) :
    u.frameCount.toNat = count := by
  rw [h.frameCount, BitVec.toNat_ofNat, Nat.mod_eq_of_lt hcount]

/-- A geometry that fits the registers is as eligible there as it was. -/
theorem ineligible (h : u.requested s g count payload) (hw : g.width < 2 ^ 16) (hh : g.height < 2 ^ 16)
    (hc : g.channels < 2 ^ 8) (hbad : g.width < 64 ∨ g.height < 2 ∨ g.channels = 0) : u.eligible = false := by
  rw [State.eligible_eq_false_iff, h.width, h.height, h.channels, BitVec.toNat_ofNat, BitVec.toNat_ofNat,
    BitVec.toNat_ofNat, Nat.mod_eq_of_lt hw, Nat.mod_eq_of_lt hh, Nat.mod_eq_of_lt hc]
  exact hbad

/-- A request that passes the three checks starts the encode of the payload. -/
theorem started (h : u.requested s g count payload) (hg : g.ok = true) (hbits : 1 ≤ s.params.sampleBits)
    (hlen : payload.length < 2 ^ 32) (hbuf : payload.length ≤ s.params.pbufBytes) (hcount : count < 2 ^ 32)
    (hcap : 4 + payload.length ≤ 16 * count) :
    ∃ t : State, exec .encStart u = .next t ∧ t.encodes g payload 0 ∧ t.params = s.params := by
  have hplen := h.plenIn_toNat hlen
  have he := eligible_of_hasGeometry hg (h.hasGeometry hg)
  have hbuf' : u.plenIn.toNat ≤ u.params.pbufBytes := by rw [hplen, h.params]; exact hbuf
  refine ⟨_, exec_encStart_of_valid h.state (by rw [hplen, h.frameCount_toNat hcount]; exact hcap) he hbuf', ?_,
    h.params⟩
  refine ⟨⟨rfl, he, h.params ▸ hbits, hbuf', Nat.zero_le _⟩, h.hasGeometry hg, hplen, by simp, fun k hk => ?_⟩
  rw [State.streamByte, streamOf_getD]
  by_cases hk3 : k ≤ 3
  · rw [if_pos hk3, if_pos (by omega), ← h.plenIn]
  · rw [if_neg hk3, if_neg (by omega), ← h.payload hbuf (k - 4) (by omega)]
    exact State.payloadAt_congr rfl _

end State.requested

/-- ENCODE on an accepted request: the frame loop over its readable frames, and what follows them. -/
theorem encodeProc_of_accepted {frames : List Frame} {rest : List (Option Frame)} (hs : s.state = .idle)
    (hbits : 1 ≤ s.params.sampleBits) (hg : g.ok = true) (hf : ∀ f ∈ frames, g.holds s.params.sampleBits f)
    (hlen : payload.length < 2 ^ 32) (hbuf : payload.length ≤ s.params.pbufBytes)
    (hcount : frames.length + rest.length < 2 ^ 32) (hcap : 4 + payload.length ≤ 16 * (frames.length + rest.length)) :
    ∃ t : State, t.encodes g payload frames.length ∧
      encodeProc { canOpen := true, geometry := g, frames := frames.map some ++ rest } payload s =
        encodeFrames g rest (encodeRef g frames payload) t := by
  have hn : (frames.map some ++ rest).length = frames.length + rest.length := by simp
  obtain ⟨u, hu, hrun⟩ := tellAll_request g (frames.map some ++ rest).length payload hs
  obtain ⟨v, hstart, hv, hparams⟩ := hu.started hg hbits hlen hbuf (hn ▸ hcount) (hn ▸ hcap)
  have hv' := hv.withPort v.fb (some (.word (regRead .status v))) []
  obtain ⟨t, ht, hloop⟩ := encodeFrames_append frames hv' fun f hmem => by
    show g.holds v.params.sampleBits f
    rw [hparams]
    exact hf f hmem
  rw [Nat.zero_add] at ht
  refine ⟨t, ht, ?_⟩
  rw [encodeProc, if_neg (by simp), hrun, hstart, after_next, unlessError_ok (by simp [hv.ready.state])]
  refine (hloop rest []).trans ?_
  simp only [List.nil_append, Nat.zero_add]
  rfl

end

/-- Settles O59. -/
theorem encodeProcedureComputesEncode : Obligations.EncodeProcedureComputesEncode := by
  refine ⟨fun g frames payload s hs hbits hg hf hlen hbuf => ⟨fun hcount hcap => ?_, fun rest hcount hcap => ?_⟩,
    fun g frames payload s e hs hw hh hc hcount hlen he => ?_, fun _ _ _ _ => rfl⟩
  · obtain ⟨t, ht, hrun⟩ := encodeProc_of_accepted (rest := []) hs hbits hg hf hlen hbuf hcount hcap
    rw [List.append_nil] at hrun
    rw [hrun]
    exact encodeFrames_nil ht hcap _
  · have hn : frames.length + (none :: rest).length = frames.length + 1 + rest.length := by
      rw [List.length_cons]
      omega
    obtain ⟨t, ht, hrun⟩ := encodeProc_of_accepted (rest := none :: rest) hs hbits hg hf hlen hbuf (hn ▸ hcount)
      (hn ▸ hcap)
    rw [hrun]
    exact encodeFrames_none ht rest _
  · refine encodeProc_of_refused hs fun u hu => ?_
    have hplen := hu.plenIn_toNat hlen
    have hframes := hu.frameCount_toNat hcount
    rcases he with ⟨rfl, hcap⟩ | ⟨rfl, hcap, hbad⟩ | ⟨rfl, hcap, hg, hbuf⟩
    · exact exec_encStart_of_over_capacity hu.state (by rw [hplen, hframes]; exact hcap)
    · exact exec_encStart_of_ineligible hu.state (by rw [hplen, hframes]; exact hcap) (hu.ineligible hw hh hc hbad)
    · exact exec_encStart_of_over_buffer hu.state (by rw [hplen, hframes]; exact hcap)
        (eligible_of_hasGeometry hg (hu.hasGeometry hg)) (by rw [hplen, hu.params]; exact hbuf)

end Sys2Proof.Machine
end

section
/-! PROOF. The host procedure DECODE computes Decode (43_decoder R127, 44_control R147): one frame, the frame loop, and
its ends. -/

namespace Sys2Proof.Machine

-- Decode, case by case.

theorem decodeRef_of_over {g : Geometry} {pbufBytes : Nat} {source : List Frame} (hne : source.length ≠ 0)
    (hover : pbufBytes < declaredLength g source) : decodeRef g pbufBytes source = .error .bufferExceeded := by
  rw [decodeRef, if_neg hne, if_pos hover]

theorem decodeRef_of_short {g : Geometry} {pbufBytes : Nat} {source : List Frame}
    (hb : declaredLength g source ≤ pbufBytes) (hshort : 16 * source.length < 4 + declaredLength g source) :
    decodeRef g pbufBytes source = .error .incompleteData := by
  have hshort' : capacity source.length < Config.headerBytes + declaredLength g source := hshort
  rw [decodeRef, if_neg (Nat.not_lt.2 hb), if_pos hshort']
  split <;> rfl

-- One frame.

section

variable {s : State} {g : Geometry} {source : List Frame} {n m : Nat}

/-- The registers and PBUF after `m` bytes of the carrier, the header among them. -/
structure State.hasRead (s : State) (g : Geometry) (source : List Frame) (m : Nat) : Prop where
  length : s.hdr.toNat = declaredLength g source
  position : s.bidx.toNat = m
  payload : ∀ i, 4 + i < m → s.payloadAt i = carrierByte g source (4 + i)

/-- A decode of frames of shape `g`, after `n` of them. -/
structure State.decodes (s : State) (g : Geometry) (source : List Frame) (n : Nat) : Prop where
  shape : s.hasGeometry g
  phase : (n = 0 ∧ s.headerReady) ∨ (s.payloadReady ∧ s.hasRead g source (16 * n))

theorem State.hasRead.withPort (h : s.hasRead g source m) (fb : Memory Nat) (ans : Option PortAnswer)
    (acc : List CoreAccess) : (s.withPort fb ans acc).hasRead g source m :=
  ⟨h.length, h.position, fun i hi => (State.payloadAt_congr rfl i).trans (h.payload i hi)⟩

theorem State.decodes.withPort (h : s.decodes g source n) (fb : Memory Nat) (ans : Option PortAnswer)
    (acc : List CoreAccess) : (s.withPort fb ans acc).decodes g source n := by
  refine ⟨h.shape, ?_⟩
  rcases h.phase with ⟨hn, hready⟩ | ⟨hready, hread⟩
  · exact .inl ⟨hn, hready.state, hready.eligible, hready.bidx, hready.hdr⟩
  · exact .inr ⟨⟨hready.state, hready.eligible, hready.afterHeader, hready.position, hready.buffer⟩,
      hread.withPort fb ans acc⟩

/-- STATE of a decode in progress. -/
theorem State.decodes.state (h : s.decodes g source n) : s.state = .decHeader ∨ s.state = .decPayload := by
  rcases h.phase with ⟨-, hready⟩ | ⟨hready, -⟩
  · exact .inl hready.state
  · exact .inr hready.state

/-- FB holds frame `n` of a source: its slots spell the bytes of the carrier from `16n` on (43_decoder R120). -/
def State.spells (s : State) (g : Geometry) (source : List Frame) (n : Nat) : Prop :=
  ∀ j < 16, s.slotByte j = carrierByte g source (16 * n + j)

theorem State.spells_of_sampleAt (hg : g.ok = true) (hshape : s.hasGeometry g)
    (h : ∀ row col ch, row < g.height → col < g.width → ch < g.channels →
      s.sampleAt row col ch = g.sample (source.getD n []) row col ch) : s.spells g source n := by
  refine fun j hj => byte_ext fun i hi => ?_
  obtain ⟨hr, hc, hch⟩ := Geometry.lane_lt hg j hi
  rw [State.slotByte_getLsbD s j hi, carrierByte_getLsbD g source _ hi, streamBit_lane g source _ hi, hshape.1,
    h _ _ _ hr hc hch, show (16 * n + j) / 16 = n by omega, show (16 * n + j) % 16 = j % 16 by omega,
    show (16 * n + j) % 8 = j % 8 by omega]

theorem State.spells.slotLength (h : s.spells g source 0) : s.slotLength = declaredLength g source := by
  simp only [State.slotLength, declaredLength, h 0 (by decide), h 1 (by decide), h 2 (by decide), h 3 (by decide)]

/-- The state after a DEC_FRAME on frame `n`: the declared length exceeds the buffer, or the bytes up to the end of the
frame have been read, and the decode is done exactly where they are all. -/
def State.decodedFrame (s t : State) (g : Geometry) (source : List Frame) (n : Nat) : Prop :=
  (s.params.pbufBytes < declaredLength g source ∧ t.state = .error ∧ t.err = .bufferExceeded) ∨
    (declaredLength g source ≤ s.params.pbufBytes ∧
      t.hasRead g source (min (16 * (n + 1)) (4 + declaredLength g source)) ∧
      t.state = if 4 + declaredLength g source ≤ 16 * (n + 1) then .decDone else .decPayload)

theorem State.headerReady.decodedFrame (h : s.headerReady) (hspells : s.spells g source 0) :
    ∃ t, exec .decFrame s = .next t ∧ s.decodedFrame t g source 0 := by
  have hlen := hspells.slotLength
  by_cases hfits : s.slotLength ≤ s.params.pbufBytes
  · obtain ⟨pb, hrun, hpb⟩ := exec_decFrame_within_buffer h hfits
    have hbytes : s.headerBytes = min (16 * (0 + 1)) (4 + declaredLength g source) := by
      rw [State.headerBytes, hlen]
    refine ⟨_, hrun, .inr ⟨hlen ▸ hfits, ⟨?_, ?_, fun i hi => ?_⟩, ?_⟩⟩
    · exact (s.afterHeaderFrame_hdr_toNat pb).trans hlen
    · exact (s.afterHeaderFrame_bidx_toNat pb).trans hbytes
    · rw [s.payloadAt_afterHeaderFrame pb, ← Nat.zero_add i, hpb.stored i (by omega), hspells (4 + i) (by omega),
        Nat.mul_zero, Nat.zero_add, Nat.zero_add]
    · rw [s.afterHeaderFrame_state pb, hlen]
  · have hover := Nat.lt_of_not_le hfits
    exact ⟨_, exec_decFrame_over_buffer h hover, .inl ⟨hlen ▸ hover, rfl, rfl⟩⟩

theorem State.payloadReady.decodedFrame (h : s.payloadReady) (hread : s.hasRead g source (16 * n))
    (hspells : s.spells g source n) : ∃ t, exec .decFrame s = .next t ∧ s.decodedFrame t g source n := by
  obtain ⟨pb, hrun, hpb⟩ := exec_decFrame_of_payloadReady h
  have hpos := h.position
  have hlo := h.afterHeader
  have hlen := hread.length
  have hbidx := hread.position
  have hsum : s.bidx.toNat + s.nextBytes = min (16 * (n + 1)) (4 + declaredLength g source) := by
    rw [State.nextBytes]
    omega
  refine ⟨_, hrun, .inr ⟨hlen ▸ h.buffer, ⟨hlen, (State.bidx_add_nextBytes_toNat hpos.le).trans hsum,
    fun i hi => ?_⟩, (s.afterPayloadFrame_state pb).trans (if_congr (by omega) rfl rfl)⟩⟩
  rw [State.payloadAt_congr (s := s.withPbuf pb) (t := s.afterPayloadFrame pb) rfl i]
  by_cases hold : 4 + i < 16 * n
  · rw [hpb.others i (.inl (by omega)), hread.payload i hold]
  · obtain ⟨j, rfl⟩ : ∃ j, i = s.bidx.toNat - 4 + j := ⟨i - (s.bidx.toNat - 4), by omega⟩
    rw [hpb.stored j (by omega), Nat.zero_add, hspells j (by omega)]
    congr 1
    omega

theorem State.decodes.decodedFrame (h : s.decodes g source n) (hspells : s.spells g source n) :
    ∃ t, exec .decFrame s = .next t ∧ s.decodedFrame t g source n := by
  rcases h.phase with ⟨rfl, hready⟩ | ⟨hready, hread⟩
  · exact hready.decodedFrame hspells
  · exact hready.decodedFrame hread hspells

/-- DEC_FRAME keeps the shape and the parameters. -/
theorem exec_decFrame_keeps_shape {t : State} (hshape : s.hasGeometry g) (h : exec .decFrame s = .next t) :
    t.hasGeometry g ∧ t.params = s.params := by
  rw [exec_decFrame_frame h]
  exact ⟨hshape, rfl⟩

-- The frame loop.

/-- A run of DECODE that ends with a result, the block in IDLE. -/
def decodeEnds (run : Run (Except ErrCode (List Byte))) (result : Except ErrCode (List Byte)) : Prop :=
  ∃ t : State, run = .next (result, t) ∧ t.state = .idle ∧ t.err = .none

/-- In DEC_DONE the procedure reads the payload out and clears (44_control R147). -/
theorem decodeFrames_decDone {frame : Frame} {rest : List (Option Frame)} {v : State}
    (h : tellAll (loadFrame g frame ++ [cmd .decFrame]) s = .next v) (hv : v.state = .decDone)
    (hb : v.hdr.toNat ≤ v.params.pbufBytes) :
    decodeEnds (decodeFrames g (some frame :: rest) s) (.ok ((List.range v.hdr.toNat).map v.payloadAt)) := by
  rw [decodeFrames, h, after_next, rd_eq, if_pos ((status_eq v).2.2 hv), rd_eq]
  set w : State := { { v with accesses := [], answer := some (.word (regRead .status v)) } with
    accesses := [], answer := some (.word (regRead .hdr v)) }
  obtain ⟨ans, acc, hpayr⟩ := payr_spec (s := w) hv hb le_rfl
  have hbytes : w.payloadAt = v.payloadAt := funext fun i => State.payloadAt_congr rfl i
  rw [hbytes] at hpayr
  split
  · next bytes t heq =>
    obtain ⟨rfl, rfl⟩ := Prod.mk.inj (Host.Outcome.next.inj (heq.symm.trans hpayr))
    exact ⟨_, by rw [tell_cmd_told, exec_clear, after_next], rfl, rfl⟩
  · next f heq => cases heq.symm.trans hpayr
  · next r heq => cases heq.symm.trans hpayr

/-- In ERROR the procedure reads the error out and clears (44_control R147). -/
theorem decodeFrames_error {frame : Frame} {rest : List (Option Frame)} {v : State}
    (h : tellAll (loadFrame g frame ++ [cmd .decFrame]) s = .next v) (hv : v.state = .error) :
    decodeEnds (decodeFrames g (some frame :: rest) s) (.error v.err) := by
  refine ⟨v.told.toIdle, ?_, rfl, rfl⟩
  have hnot : regRead .status v ≠ 5 := fun e => by simp [(status_eq v).2.1 e] at hv
  rw [decodeFrames, h, after_next, rd_eq, if_neg hnot, if_pos ((status_eq v).1.2 hv), rd_eq, tell_cmd_told, exec_clear,
    after_next, ← errOfCode_regRead]
  rfl

/-- Elsewhere the procedure goes on with the next frame. -/
theorem decodeFrames_goOn {frame : Frame} {rest : List (Option Frame)} {v : State}
    (h : tellAll (loadFrame g frame ++ [cmd .decFrame]) s = .next v) (hdone : v.state ≠ .decDone)
    (herr : v.state ≠ .error) :
    decodeFrames g (some frame :: rest) s =
      decodeFrames g rest (v.withPort v.fb (some (.word (regRead .status v))) []) := by
  rw [decodeFrames, h, after_next, rd_eq, if_neg (mt (status_eq v).2.1 hdone), if_neg (mt (status_eq v).1.1 herr)]
  rfl

/-- A frame of the loop decides the result, which is Decode's and not that data is missing, or the decode goes on. -/
theorem decodeFrames_some {frame : Frame} (hg : g.ok = true) (h : s.decodes g source n) (hn : n < source.length)
    (hframe : source.getD n [] = frame) (hf : g.holds s.params.sampleBits frame) :
    (∀ rest, decodeEnds (decodeFrames g (some frame :: rest) s) (decodeRef g s.params.pbufBytes source) ∧
      decodeRef g s.params.pbufBytes source ≠ .error .incompleteData) ∨
    ∃ t : State, t.decodes g source (n + 1) ∧ t.params = s.params ∧
      ∀ rest, decodeFrames g (some frame :: rest) s = decodeFrames g rest t := by
  obtain ⟨hlen, hvals⟩ := hf
  obtain ⟨fb, ans, acc, hload, hloaded⟩ := loadFrame_spec h.shape hlen hvals
  have hu : (s.withPort fb ans acc).told.decodes g source n := (h.withPort fb ans acc).withPort fb (some .done) []
  set u := (s.withPort fb ans acc).told
  have hspells : u.spells g source n := State.spells_of_sampleAt hg hu.shape fun row col ch hr hc hch => by
    rw [hframe, ← hloaded row col ch hr hc hch]
    exact State.sampleAt_congr rfl rfl rfl rfl row col ch
  obtain ⟨v, hrun, hframe'⟩ := hu.decodedFrame hspells
  obtain ⟨hshape, hparams⟩ := exec_decFrame_keeps_shape hu.shape hrun
  have hpbuf : u.params.pbufBytes = s.params.pbufBytes := rfl
  have hall : tellAll (loadFrame g frame ++ [cmd .decFrame]) s = .next v := by
    rw [tellAll_append_next hload, tellAll_singleton]
    exact (tell_cmd_told _ _).trans hrun
  rcases hframe' with ⟨hover, hst, herr⟩ | ⟨hfits, hread, hst⟩
  · refine .inl fun rest => ?_
    rw [decodeRef_of_over (by omega) (hpbuf ▸ hover), ← herr]
    exact ⟨decodeFrames_error hall hst, by simp [herr]⟩
  · have hbuf : v.hdr.toNat ≤ v.params.pbufBytes := by rw [hread.length, hparams]; exact hfits
    by_cases hend : 4 + declaredLength g source ≤ 16 * (n + 1)
    · rw [if_pos hend] at hst
      refine .inl fun rest => ?_
      rw [decodeRef_of_fits (hpbuf ▸ hfits) (by omega)]
      refine ⟨?_, by simp⟩
      have hout : (List.range v.hdr.toNat).map v.payloadAt =
          (List.range (declaredLength g source)).map fun j => carrierByte g source (4 + j) := by
        rw [hread.length]
        refine List.map_congr_left fun j hj => hread.payload j ?_
        have hj' := Nat.add_lt_add_left (List.mem_range.1 hj) 4
        exact Nat.lt_min.2 ⟨hj'.trans_le hend, hj'⟩
      exact hout ▸ decodeFrames_decDone hall hst hbuf
    · rw [if_neg hend] at hst
      rw [Nat.min_eq_left (by omega)] at hread
      have hready : v.payloadReady :=
        ⟨hst, eligible_of_hasGeometry hg hshape, by rw [hread.position]; omega,
          by rw [hread.position, hread.length]; omega, hbuf⟩
      have hv : v.decodes g source (n + 1) := ⟨hshape, .inr ⟨hready, hread⟩⟩
      exact .inr ⟨v.withPort v.fb (some (.word (regRead .status v))) [], hv.withPort _ _ _, hparams,
        fun rest => decodeFrames_goOn hall (by simp [hst]) (by simp [hst])⟩

/-- The frame loop over frames that can all be read: it decides the result on the way, or has used them all up. -/
theorem decodeFrames_append (hg : g.ok = true) (frames : List Frame) (h : s.decodes g source n)
    (hn : n ≤ source.length) (hframes : source.drop n = frames) (hf : ∀ f ∈ frames, g.holds s.params.sampleBits f) :
    (∀ rest, decodeEnds (decodeFrames g (frames.map some ++ rest) s) (decodeRef g s.params.pbufBytes source) ∧
      decodeRef g s.params.pbufBytes source ≠ .error .incompleteData) ∨
    ∃ t : State, t.decodes g source source.length ∧ t.params = s.params ∧
      ∀ rest, decodeFrames g (frames.map some ++ rest) s = decodeFrames g rest t := by
  induction frames generalizing s n with
  | nil =>
    obtain rfl : n = source.length := Nat.le_antisymm hn (List.drop_eq_nil_iff.1 hframes)
    exact .inr ⟨s, h, rfl, fun _ => rfl⟩
  | cons frame frames ih =>
    have hlt : n < source.length := by
      by_contra hge
      rw [List.drop_eq_nil_of_le (Nat.le_of_not_lt hge)] at hframes
      cases hframes
    obtain ⟨hhead, htail⟩ := List.cons.inj ((List.drop_eq_getElem_cons hlt).symm.trans hframes)
    have hget : source.getD n [] = frame := (List.getD_eq_getElem _ _ hlt).trans hhead
    rcases decodeFrames_some hg h hlt hget (hf frame List.mem_cons_self) with hend | ⟨t, ht, hparams, hstep⟩
    · exact .inl fun rest => hend _
    · rcases ih ht hlt htail (fun f hmem => hparams ▸ hf f (List.mem_cons_of_mem _ hmem)) with hend | ⟨u, hu, hp, hrest⟩
      · refine .inl fun rest => ?_
        rw [List.map_cons, List.cons_append, hstep, ← hparams]
        exact hend rest
      · refine .inr ⟨u, hu, hp.trans hparams, fun rest => ?_⟩
        rw [List.map_cons, List.cons_append, hstep, hrest]

/-- Where the frames are used up and the decode is not done, data is missing (43_decoder R127). -/
theorem State.decodes.decodeRef (h : s.decodes g source source.length) :
    decodeRef g s.params.pbufBytes source = .error .incompleteData := by
  rcases h.phase with ⟨hzero, -⟩ | ⟨hready, hread⟩
  · rw [Machine.decodeRef, if_pos hzero]
  · have hlen := hread.length
    have hpos := hready.position
    rw [hread.position, hlen] at hpos
    exact decodeRef_of_short (hlen ▸ hready.buffer) hpos

/-- After the frames: EOS reports that data is missing. -/
theorem decodeFrames_nil (h : s.decodes g source n) : decodeEnds (decodeFrames g [] s) (.error .incompleteData) :=
  have hrun := exec_eos_of_decoding (s := s.told) h.state
  ⟨_, by rw [decodeFrames, tellAll_clear hrun, after_next], rfl, rfl⟩

/-- A frame that cannot be read: SRC_FAIL and CLEAR end the operation. -/
theorem decodeFrames_none (h : s.decodes g source n) (rest : List (Option Frame)) :
    decodeEnds (decodeFrames g (none :: rest) s) (.error .sourceUnavailable) :=
  have hrun := exec_srcFail_of_active (s := s.told) (.inr h.state)
  ⟨_, by rw [decodeFrames, tellAll_clear hrun, after_next], rfl, rfl⟩

-- The request.

/-- The accesses of DECODE before its frame loop amount to DEC_START with the geometry in its registers
(44_control R147). -/
theorem tellAll_decStart (g : Geometry) {s : State} (hs : s.state = .idle) :
    ∃ u : State, u.state = .idle ∧ u.width = BitVec.ofNat 16 g.width ∧ u.height = BitVec.ofNat 16 g.height ∧
      u.channels = BitVec.ofNat 8 g.channels ∧ u.params = s.params ∧
      tellAll (wrGeometry g ++ [cmd .decStart]) s = exec .decStart u := by
  obtain ⟨fb, ans, acc, hgeometry⟩ := wrGeometry_spec (g := g) hs
  refine ⟨_, ?_, ?_, ?_, ?_, ?_, by rw [tellAll_append_next hgeometry, tellAll_singleton, tell_cmd_told]⟩
  exacts [hs, rfl, rfl, rfl, rfl]

/-- DECODE on an eligible geometry is its frame loop, from the start of the decode. -/
theorem decodeProc_started (hg : g.ok = true) (hs : s.state = .idle) (source : List Frame) :
    ∃ t : State, t.decodes g source 0 ∧ t.params = s.params ∧ ∀ frames,
      decodeProc { canOpen := true, geometry := g, frames := frames } s = decodeFrames g frames t := by
  obtain ⟨u, hidle, hw, hh, hc, hparams, hrun⟩ := tellAll_decStart g hs
  have hshape := hasGeometry_of_writes hg hw hh hc
  have he := eligible_of_hasGeometry hg hshape
  set v : State := { u with hdr := 0, bidx := 0, fidx := 0, state := .decHeader } with hv
  have hstart : exec .decStart u = .next v := exec_decStart_of_eligible hidle he
  have hdecodes : v.decodes g source 0 := ⟨hshape, .inl ⟨rfl, rfl, he, rfl, rfl⟩⟩
  refine ⟨v.withPort v.fb (some (.word (regRead .status v))) [], hdecodes.withPort _ _ _, hparams, fun frames => ?_⟩
  rw [decodeProc, if_neg (by simp), hrun, hstart, after_next, unlessError_ok (by simp [hv])]
  rfl

end

/-- Settles O60. The frame loop decides the result on the way, or its end does. -/
theorem decodeProcedureComputesDecode : Obligations.DecodeProcedureComputesDecode := by
  refine ⟨fun g frames s hs hg hf => ?_, fun g frames s hs hw hh hc hbad => ?_, fun _ _ _ => rfl⟩
  · obtain ⟨t, ht, hparams, hproc⟩ := decodeProc_started hg hs frames
    have hloop := decodeFrames_append hg frames ht (Nat.zero_le _) rfl fun f hmem => hparams ▸ hf f hmem
    rw [hparams] at hloop
    rcases hloop with hdecided | ⟨u, hu, hparams', hrest⟩
    · refine ⟨?_, fun rest => ?_⟩
      · rw [hproc, ← List.append_nil (frames.map some)]
        exact (hdecided []).1
      · rw [hproc, if_neg (hdecided []).2]
        exact (hdecided (none :: rest)).1
    · have hshort : decodeRef g s.params.pbufBytes frames = .error .incompleteData := by
        rw [← hparams']
        exact hu.decodeRef
      refine ⟨?_, fun rest => ?_⟩
      · rw [hproc, hshort, ← List.append_nil (frames.map some), hrest]
        exact decodeFrames_nil hu
      · rw [hproc, if_pos hshort, hrest]
        exact decodeFrames_none hu rest
  · obtain ⟨u, hidle, huw, huh, huc, -, hrun⟩ := tellAll_decStart g hs
    have he : u.eligible = false := by
      rw [State.eligible_eq_false_iff, huw, huh, huc, BitVec.toNat_ofNat, BitVec.toNat_ofNat, BitVec.toNat_ofNat,
        Nat.mod_eq_of_lt hw, Nat.mod_eq_of_lt hh, Nat.mod_eq_of_lt hc]
      exact hbad
    exact ⟨_, by rw [decodeProc, if_neg (by simp), hrun, exec_decStart_of_ineligible hidle he, after_next,
      unlessError_error (by simp)]; rfl, rfl, rfl⟩

end Sys2Proof.Machine
end
